-- ==== Sys2Proof/Word.lean ====
section
/-! DEFINITION. The widths of the spec: every value of OWX is unsigned (00_scope.md section 4). -/

namespace Sys2Proof

/-- 8 bits: `IMM8`, a byte on the wire, the CRC-8 value. -/
abbrev Byte := BitVec 8

/-- 16 bits: `IMM16`, the CRC-16 value and its polynomial. -/
abbrev Half := BitVec 16

/-- 32 bits: a host register and a command word (R5, R71). -/
abbrev Word := BitVec 32

/-- 64 bits: `DATA`, `ROM` and a device address (R4). -/
abbrev DWord := BitVec 64

end Sys2Proof
end

