-- ==== Sys2Proof/Syntax.lean ====
section
/-! DEFINITION. The instructions: one constructor per row of spec/opcode_table.json, that is the 22 command forms of
30_encoding.md R72 and R81 and the five wire ROM command bytes of R78 and R79. -/

namespace Sys2Proof

/-- One constructor per row of the opcode table. -/
inductive Instr where
  /-- `RESET`: bus reset with presence detect (R90). -/
  | reset
  /-- `WBIT b`: write one bit, `b` = F0 (R91). -/
  | wbit (b : Bool)
  /-- `RBIT`: read one bit (R92). -/
  | rbit
  /-- `W8 #b`: write one byte, `b` = IMM8 (R99). -/
  | w8 (b : Byte)
  /-- `R8`: read one byte (R100). -/
  | r8
  /-- `W64`: write `DATA` (R101). -/
  | w64
  /-- `R64`: read 64 bits (R102). -/
  | r64
  /-- `SELECT`: match ROM with the address in `DATA` (R103). -/
  | select
  /-- `SKIP`: skip ROM (R104). -/
  | skip
  /-- `SRST`: reset the search (R129). -/
  | srst
  /-- `SRCH`: one normal search pass (R130, F0 = 0). -/
  | srch
  /-- `SRCH.A`: one alarm search pass (R130, F0 = 1). -/
  | srchA
  /-- `SSEL`: search-select the address in `DATA` (R131). -/
  | ssel
  /-- `C8I`: start a CRC-8 (R111). -/
  | c8i
  /-- `C8B #b`: fold IMM8 into the CRC-8 (R112). -/
  | c8b (b : Byte)
  /-- `C16I #s`: start a CRC-16 with seed IMM16 (R114, F0 = 0). -/
  | c16i (s : Half)
  /-- `C16I.REFIN`: start a CRC-16 with 0xFFFF (R114, F0 = 1). -/
  | c16iRefin
  /-- `C16B #b`: fold IMM8 into the CRC-16 (R115). -/
  | c16b (b : Byte)
  /-- `C16F`: finalise the CRC-16 (R117, F0 = 0). -/
  | c16f
  /-- `C16F.REFOUT`: finalise the CRC-16, inverted (R117, F0 = 1). -/
  | c16fRefout
  /-- `C8D`: fold `DATA[7:0]` into the CRC-8 (R113). -/
  | c8d
  /-- `C16D`: fold `DATA[7:0]` into the CRC-16 (R116). -/
  | c16d
  /-- `ROM:SEARCH`: the wire byte 0xF0 (R78, R79). -/
  | romSearch
  /-- `ROM:ALARM_SEARCH`: the wire byte 0xEC (R78, R79). -/
  | romAlarmSearch
  /-- `ROM:MATCH`: the wire byte 0x55 (R78, R79). -/
  | romMatch
  /-- `ROM:SKIP`: the wire byte 0xCC (R78, R79). -/
  | romSkip
  /-- `ROM:READ`: the wire byte 0x33 (R78, R79). -/
  | romRead
  deriving DecidableEq, Repr

/-- The names an assembler line begins with (30_encoding.md R81). -/
inductive Mnemonic where
  | RESET | WBIT | RBIT | W8 | R8 | W64 | R64 | SELECT | SKIP | SRST | SRCH | SRCH_A | SSEL
  | C8I | C8B | C16I | C16I_REFIN | C16B | C16F | C16F_REFOUT | C8D | C16D
  deriving DecidableEq, Repr

/-- One line of R81's syntax: a name and, where it is written, an immediate of any size. -/
structure AsmLine where
  /-- The command's name. -/
  name : Mnemonic
  /-- The immediate written after it, if any. -/
  imm : Option Nat
  deriving DecidableEq, Repr

end Sys2Proof
end

