-- ==== Sys2Proof/WellFormed.lean ====
section
/-! DEFINITION. What is well-formed: a command the host can write to CMD (30_encoding.md R71, R72), and a line an
assembler accepts (R81). The operands of `Instr` have the exact widths of their fields, so a wrong operand can be
written only in an `AsmLine`. -/

namespace Sys2Proof

/-- Does the row stand for a 32-bit command word (R72)? The five wire ROM command bytes are no command words: the
block or a device sees them on the wire only (R78). -/
def Instr.isCommand : Instr → Bool
  | .romSearch | .romAlarmSearch | .romMatch | .romSkip | .romRead => false
  | .reset | .wbit _ | .rbit | .w8 _ | .r8 | .w64 | .r64 | .select | .skip | .srst | .srch | .srchA | .ssel | .c8i
  | .c8b _ | .c16i _ | .c16iRefin | .c16b _ | .c16f | .c16fRefout | .c8d | .c16d => true

/-- A well-formed command, one that a word written to CMD can carry. -/
abbrev Instr.WellFormed (i : Instr) : Prop := i.isCommand = true

/-- The largest immediate a name takes, or `none` for a name that takes none (R81). -/
def Mnemonic.immMax : Mnemonic → Option Nat
  | .WBIT => some 1
  | .W8 | .C8B | .C16B => some 0xFF
  | .C16I => some 0xFFFF
  | .RESET | .RBIT | .R8 | .W64 | .R64 | .SELECT | .SKIP | .SRST | .SRCH | .SRCH_A | .SSEL | .C8I | .C16I_REFIN
  | .C16F | .C16F_REFOUT | .C8D | .C16D => none

/-- The line is accepted: an immediate stands exactly where the syntax has one, and fits its field: "An assembler
rejects an immediate that does not fit its field" (R81). -/
def AsmLine.wellFormed (l : AsmLine) : Bool :=
  match l.name.immMax, l.imm with
  | none, none => true
  | some m, some v => v ≤ m
  | _, _ => false

end Sys2Proof
end

