-- ==== Sys2Proof/Decode.lean ====
section
/-! DEFINITION. The command word: its fields (30_encoding.md R71), the decoder with the legality check of R73, the
wire ROM command bytes (R78, R79), and after them the encoder (R81) and the assembler. -/

namespace Sys2Proof

/-- `OP`, bits 4:0 (R71). -/
def opField (w : Word) : BitVec 5 := w.extractLsb' 0 5

/-- `F0`, bit 5 (R71). -/
def f0Field (w : Word) : Bool := w.getLsbD 5

/-- The reserved bits 7:6 (R71). -/
def reservedField (w : Word) : BitVec 2 := w.extractLsb' 6 2

/-- `IMM8`, bits 15:8 (R71). -/
def imm8Field (w : Word) : Byte := w.extractLsb' 8 8

/-- `IMM16`, bits 31:16 (R71). -/
def imm16Field (w : Word) : Half := w.extractLsb' 16 16

/-- Why a word is illegal: the four cases of R73. -/
inductive Illegal where
  /-- (a) its OP is unassigned. -/
  | unassignedOp
  /-- (b) bit 6 or bit 7 is 1. -/
  | reservedBits
  /-- (c) a field the OP does not use is not zero. -/
  | unusedField
  /-- (d) `C16I` with F0 = 1 and a seed. -/
  | seedWithReflectIn
  deriving DecidableEq, Repr

/-- The OP values R72 assigns. -/
def assignedOp (op : BitVec 5) : Bool :=
  (0x01 ≤ op.toNat && op.toNat ≤ 0x09) || (0x10 ≤ op.toNat && op.toNat ≤ 0x12) ||
    (0x18 ≤ op.toNat && op.toNat ≤ 0x1E)

/-- The OPs with an F0 operand: `WBIT`, `SRCH`, `C16I`, `C16F` (R72, R74). -/
def usesF0 (op : BitVec 5) : Bool := op == 0x02 || op == 0x11 || op == 0x1A || op == 0x1C

/-- The OPs with an IMM8 operand: `W8`, `C8B`, `C16B` (R72, R75). -/
def usesImm8 (op : BitVec 5) : Bool := op == 0x04 || op == 0x19 || op == 0x1B

/-- The OP with an IMM16 operand: `C16I` (R72, R76). -/
def usesImm16 (op : BitVec 5) : Bool := op == 0x1A

/-- The case of R73 a word falls under, the first of (a) to (d), or `none` for a legal word. -/
def illegalCase (w : Word) : Option Illegal :=
  if !assignedOp (opField w) then some .unassignedOp
  else if reservedField w != 0 then some .reservedBits
  else if (!usesF0 (opField w) && f0Field w) || (!usesImm8 (opField w) && imm8Field w != 0) ||
      (!usesImm16 (opField w) && imm16Field w != 0) then some .unusedField
  else if opField w == 0x1A && f0Field w && imm16Field w != 0 then some .seedWithReflectIn
  else none

/-- The command an OP and its operands stand for (R72, R74 to R76), `none` for an unassigned OP. -/
def commandOf (op : BitVec 5) (f0 : Bool) (imm8 : Byte) (imm16 : Half) : Option Instr :=
  match op.toNat with
  | 0x01 => some .reset
  | 0x02 => some (.wbit f0)
  | 0x03 => some .rbit
  | 0x04 => some (.w8 imm8)
  | 0x05 => some .r8
  | 0x06 => some .w64
  | 0x07 => some .r64
  | 0x08 => some .select
  | 0x09 => some .skip
  | 0x10 => some .srst
  | 0x11 => some (if f0 then .srchA else .srch)
  | 0x12 => some .ssel
  | 0x18 => some .c8i
  | 0x19 => some (.c8b imm8)
  | 0x1A => some (if f0 then .c16iRefin else .c16i imm16)
  | 0x1B => some (.c16b imm8)
  | 0x1C => some (if f0 then .c16fRefout else .c16f)
  | 0x1D => some .c8d
  | 0x1E => some .c16d
  | _ => none

/-- The decoder of CMD words (R72, R73, R80): the instruction, or the case of R73 that makes the word illegal. -/
def decodeWord (w : Word) : Except Illegal Instr :=
  match illegalCase w with
  | some r => .error r
  | none =>
    match commandOf (opField w) (f0Field w) (imm8Field w) (imm16Field w) with
    | some i => .ok i
    | none => .error .unassignedOp

/-- The ROM command byte an 8-bit wire byte is, if it is one (R78). -/
def decodeRomByte (b : Byte) : Option Instr :=
  if b = 0xF0 then some .romSearch
  else if b = 0xEC then some .romAlarmSearch
  else if b = 0x55 then some .romMatch
  else if b = 0xCC then some .romSkip
  else if b = 0x33 then some .romRead
  else none

/-- The host's question of one opcode-table row: the instruction the decoder reads from `w`, a 32-bit command word or
an 8-bit wire byte by the row's width. -/
def decodeTableWord (nbits w : Nat) : Option Instr :=
  if nbits = 8 then
    if w < 2 ^ 8 then decodeRomByte (BitVec.ofNat 8 w) else none
  else if nbits = 32 then
    if w < 2 ^ 32 then (decodeWord (BitVec.ofNat 32 w)).toOption else none
  else none

/-- A command word from its fields, "SSSSSSSSSSSSSSSS iiiiiiii 00 f ooooo" (R71). -/
def commandWord (imm16 : Half) (imm8 : Byte) (f0 : Bool) (op : BitVec 5) : Word :=
  imm16 ++ imm8 ++ 0#2 ++ BitVec.ofBool f0 ++ op

/-- The word of each command (R81); a ROM command byte stands in the low 8 bits (R78). -/
def encode : Instr → Word
  | .reset => commandWord 0 0 false 0x01
  | .wbit b => commandWord 0 0 b 0x02
  | .rbit => commandWord 0 0 false 0x03
  | .w8 b => commandWord 0 b false 0x04
  | .r8 => commandWord 0 0 false 0x05
  | .w64 => commandWord 0 0 false 0x06
  | .r64 => commandWord 0 0 false 0x07
  | .select => commandWord 0 0 false 0x08
  | .skip => commandWord 0 0 false 0x09
  | .srst => commandWord 0 0 false 0x10
  | .srch => commandWord 0 0 false 0x11
  | .srchA => commandWord 0 0 true 0x11
  | .ssel => commandWord 0 0 false 0x12
  | .c8i => commandWord 0 0 false 0x18
  | .c8b b => commandWord 0 b false 0x19
  | .c16i s => commandWord s 0 false 0x1A
  | .c16iRefin => commandWord 0 0 true 0x1A
  | .c16b b => commandWord 0 b false 0x1B
  | .c16f => commandWord 0 0 false 0x1C
  | .c16fRefout => commandWord 0 0 true 0x1C
  | .c8d => commandWord 0 0 false 0x1D
  | .c16d => commandWord 0 0 false 0x1E
  | .romSearch => 0xF0
  | .romAlarmSearch => 0xEC
  | .romMatch => 0x55
  | .romSkip => 0xCC
  | .romRead => 0x33

/-- How many bits the row's encoding has: one 32-bit word (R80), or the 8 bits of a wire byte (R79). -/
def encodedBits (i : Instr) : Nat := if i.isCommand then 32 else 8

/-- The instruction a line names, its immediate taken into the field's width (R81). -/
def asmInstr (name : Mnemonic) (v : Nat) : Instr :=
  match name with
  | .RESET => .reset
  | .WBIT => .wbit (v == 1)
  | .RBIT => .rbit
  | .W8 => .w8 (BitVec.ofNat 8 v)
  | .R8 => .r8
  | .W64 => .w64
  | .R64 => .r64
  | .SELECT => .select
  | .SKIP => .skip
  | .SRST => .srst
  | .SRCH => .srch
  | .SRCH_A => .srchA
  | .SSEL => .ssel
  | .C8I => .c8i
  | .C8B => .c8b (BitVec.ofNat 8 v)
  | .C16I => .c16i (BitVec.ofNat 16 v)
  | .C16I_REFIN => .c16iRefin
  | .C16B => .c16b (BitVec.ofNat 8 v)
  | .C16F => .c16f
  | .C16F_REFOUT => .c16fRefout
  | .C8D => .c8d
  | .C16D => .c16d

/-- The assembler of R81: the line's word, or `none` for a line it rejects. -/
def assemble (l : AsmLine) : Option Word :=
  if l.wellFormed then some (encode (asmInstr l.name (l.imm.getD 0))) else none

end Sys2Proof
end

