-- ==== Sys2Proof/Config.lean ====
section
/-! DEFINITION. What the platform or the implementation fixes: the timing parameters of 00_scope.md R3 (a block's set
stands in State, log 8), the OPEN parameters of 92_eei_decisions.md (D3, D32, D34), and the free value a sample of the line takes. -/

namespace Sys2Proof

/-- A set of the timing parameters of 00_scope.md R3, in microseconds (`nIdlePolls` is a count). -/
structure Timing where
  /-- `T_RSTL`: reset pulse, line held low. -/
  tRstl : Nat
  /-- `T_PDS`: release of the reset pulse to the presence sample. -/
  tPds : Nat
  /-- `T_RSTREC`: recovery after the presence sample. -/
  tRstrec : Nat
  /-- `T_SLOT`: active part of a slot. -/
  tSlot : Nat
  /-- `T_REC`: recovery after `T_SLOT`. -/
  tRec : Nat
  /-- `T_LOW1`: low time of a write-1 slot. -/
  tLow1 : Nat
  /-- `T_LOW0`: low time of a write-0 slot. -/
  tLow0 : Nat
  /-- `T_RDLOW`: low time of a read slot. -/
  tRdlow : Nat
  /-- `T_RDS`: sample instant of a read slot. -/
  tRds : Nat
  /-- `T_IDLE_POLL`: wait before each idle-wait poll. -/
  tIdlePoll : Nat
  /-- `N_IDLE_POLLS`: polls before a bus reset fails. -/
  nIdlePolls : Nat
  deriving DecidableEq, Repr

/-- The constraints every parameter set must meet (00_scope.md R3). -/
def Timing.Valid (p : Timing) : Prop :=
  1 ≤ p.tLow1 ∧ p.tLow1 < p.tRds ∧ 1 ≤ p.tRdlow ∧ p.tRdlow < p.tRds ∧ p.tRds ≤ p.tSlot ∧
    p.tLow0 ≤ p.tSlot ∧ 1 ≤ p.tRec ∧ 1 ≤ p.nIdlePolls

/-- The defaults of 00_scope.md R3. -/
def Timing.nominal : Timing where
  tRstl := 480
  tPds := 70
  tRstrec := 410
  tSlot := 60
  tRec := 10
  tLow1 := 6
  tLow0 := 60
  tRdlow := 6
  tRds := 15
  tIdlePoll := 2
  nIdlePolls := 125

/-- The slot period, `T_SLOT + T_REC` (00_scope.md R3). -/
def Timing.slotTime (p : Timing) : Nat := p.tSlot + p.tRec

/-- The time of a reset pulse with its presence sample and recovery (R88). -/
def Timing.pulseTime (p : Timing) : Nat := p.tRstl + p.tPds + p.tRstrec

/-- FREE VALUE (log 4): what the `n`-th sample of the line reads where no oracle is named (00_scope.md R9, U5). -/
opaque Config.freeSample : Nat → Bool

/-- FREE VALUE (log 15): does device `k` of the reference bus take the truncated event at place `n` of the wire trace as
a whole one? 93_implementation_defined.md U6 leaves the devices open there. -/
opaque Config.cutSeen : Nat → Nat → Bool

/-- FREE VALUE (log 9): `T_INTERNAL`, the decode and commit time of every command (D34, U3). -/
opaque Config.tInternal : Nat

/-- OPEN parameter behind `OWX_BASE` (log 7): the window's number among the host's 64-byte blocks (D3, U2). -/
opaque Config.owxBlock : Nat

/-- `OWX_BASE`, any 64-byte-aligned host address (R5, D3). -/
def Config.owxBase : Nat := 64 * Config.owxBlock

/-- OPEN host parameter `DISCOVER_MAX_PASSES` (R7, D32; log 19). -/
opaque Config.discoverMaxPasses : Nat

end Sys2Proof
end

