-- ==== Sys2Proof/Machine/State.lean ====
section
/-! DEFINITION. The state of OWX as plain data (10_state.md), with the wire, its environment (20_memory.md R52 to R65)
and the turns of the agents (60_exceptions.md R148). -/

namespace Sys2Proof.Machine

/-- The result codes of `STATUS.RESULT` (R135): codes 7 to 15 are never written, so they have no name. -/
inductive ResultCode where
  | ok
  | busStuck
  | noPresence
  | searchNoResponse
  | searchZeroFamily
  | searchEnd
  | illegal
  deriving DecidableEq, Repr

/-- `CURSOR.SSTATE` (R26). -/
inductive SState where
  | idle
  | searching
  | found
  | exhausted
  deriving DecidableEq, Repr

/-- The sequencer (R32): idle, or running the command in `cmd_latch`. `reading` is what the timebase reads at this instant
of the run; the command's start is `Wire.now`. The step, the position, the bit index, the poll count and the slot start
R32 lists follow from the two (Machine/Agents.lean; log 1). -/
inductive Seq where
  | idle
  | running (reading : Nat)
  deriving DecidableEq, Repr

/-- What a wire event that a block reset cut short was (R152). -/
inductive CutEvent where
  | pulse
  | write (b : Bool)
  | read
  deriving DecidableEq, Repr

/-- The events of a wire trace (00_scope.md section 4). -/
inductive WireEvent where
  /-- `POLL(v)`. -/
  | poll (v : Bool)
  /-- `RST(p)`. -/
  | rst (p : Bool)
  /-- `W0` or `W1`. -/
  | write (b : Bool)
  /-- `R(v)`. -/
  | read (v : Bool)
  /-- The truncated event of an abandoned command (R152). -/
  | cut (k : CutEvent)
  deriving DecidableEq, Repr

/-- A mark of the waveform: the pin driven low, the pin released, the line sampled, each at a time of the timebase
(R84 to R88). -/
inductive Edge where
  | low (t : Nat)
  | release (t : Nat)
  | sample (t : Nat) (v : Bool)
  deriving DecidableEq, Repr

/-- What a sample of the line is taken for: an idle-wait poll (R87), the presence sample (R88), a read slot (R85). -/
inductive SampleKind where
  | poll
  | presence
  | slot
  deriving DecidableEq, Repr

/-- The phase of a device in a search (R55, R60). -/
inductive SearchPhase where
  | bit
  | cmp
  | dir
  deriving DecidableEq, Repr

/-- The state of a reference device (R55). -/
inductive DeviceState where
  | idle
  | cmd (n : Nat) (acc : Byte)
  | search (p : Nat) (ph : SearchPhase)
  | matching (p : Nat)
  | readRom (p : Nat)
  | func (n : Nat) (acc : Byte)
  | respond
  | off
  deriving DecidableEq, Repr

/-- A device of the reference bus (R55). -/
structure Device where
  /-- Its 64-bit address. -/
  rom : DWord
  /-- Does it signal an alert condition? -/
  alerting : Bool
  /-- The bits it still has to play back. -/
  resp : List Bool
  /-- The master bits it received in its function phase. -/
  log : List Bool
  /-- Where it is in the protocol. -/
  st : DeviceState
  deriving DecidableEq, Repr

/-- A reference bus: a finite list of devices and the flag `stuck_low` (R55, R56). -/
structure Bus where
  devices : List Device
  stuckLow : Bool
  deriving DecidableEq, Repr

/-- The environment that answers `Sample()` (R9, R52): free draws, or the reference bus. `draws tape used` answers the
draws of `tape` first, then the free values; `used` counts the draws taken (log 4). -/
inductive Env where
  | draws (tape : List Bool) (used : Nat)
  | bus (b : Bus)
  deriving DecidableEq, Repr

/-- The line as the block drives it, its history, and what answers its samples. -/
structure Wire where
  /-- `dq_low` (R33). -/
  dqLow : Bool
  /-- The timebase, in microseconds (R10, R143); while a command runs, its reading at the command's start. -/
  now : Nat
  /-- The wire trace, first event first (R12, R148). -/
  trace : List WireEvent
  /-- The waveform, first mark first (R84 to R88). -/
  wave : List Edge
  /-- The bus oracle (R52). -/
  env : Env
  deriving DecidableEq, Repr

/-- The registers of the window by name (R40). -/
inductive Reg where
  | cmd
  | status
  | dataLo
  | dataHi
  | romLo
  | romHi
  | cursor
  | crc
  | crc16Poly
  | crc16Out
  /-- Offsets 0x28 to 0x3C (R42). -/
  | reserved
  deriving DecidableEq, Repr

/-- The width of a host access (R41). -/
inductive AccessWidth where
  | one
  | two
  | four
  | eight
  deriving DecidableEq, Repr

/-- One turn of an agent (R148, R151): `agenda` lists the turns to come (log 2). -/
inductive Turn where
  /-- The host stores to the window (R44, R45). For a width other than four, which the model refuses (R41), the value
  is not looked at. -/
  | hostWrite (off : BitVec 6) (width : AccessWidth) (v : Word)
  /-- The host loads from the window (R40, R43). -/
  | hostRead (off : BitVec 6) (width : AccessWidth)
  /-- The sequencer completes the running command (R148). -/
  | complete
  /-- `t` microseconds pass: a gap between commands (R94), or the running command's time on the line. -/
  | elapse (t : Nat)
  /-- The platform asserts the block reset (R150, R151). -/
  | blockReset
  deriving DecidableEq, Repr

/-- The machine (10_state.md R13, R36), its line, and the model's own `agenda` and `hostReads`. -/
structure State where
  /-- `STATUS.BUSY` (R15). -/
  busy : Bool
  /-- `STATUS.PRESENCE` (R16). -/
  presence : Bool
  /-- `STATUS.FOUND` (R17). -/
  found : Bool
  /-- `STATUS.RESULT` (R18). -/
  result : ResultCode
  /-- `STATUS.ERR_ILLEGAL` (R19). -/
  errIllegal : Bool
  /-- `STATUS.ERR_OVERRUN` (R20). -/
  errOverrun : Bool
  /-- `DATA` (R22). -/
  data : DWord
  /-- `ROM` (R23). -/
  rom : DWord
  /-- `CURSOR.LAST_DISC` (R24). -/
  lastDisc : BitVec 7
  /-- `CURSOR.LAST_DEV` (R25). -/
  lastDev : Bool
  /-- `CURSOR.SSTATE` (R26). -/
  sstate : SState
  /-- `CRC.CRC8` (R28). -/
  crc8 : Byte
  /-- `CRC.CRC16` (R29). -/
  crc16 : Half
  /-- `CRC16_POLY[15:0]` (R27). -/
  crc16Poly : Half
  /-- `CRC16_OUT[15:0]` (R30). -/
  crc16Out : Half
  /-- `last_zero` (R31). -/
  lastZero : BitVec 7
  /-- `seq` (R32). -/
  seq : Seq
  /-- `cmd_latch` (R35). -/
  cmdLatch : Word
  /-- The line: `dq_low`, the timebase, the trace, the waveform and the environment. -/
  wire : Wire
  /-- The block's timing parameters (00_scope.md R3): one set for the life of the block, which nothing writes (log 8). -/
  timing : Timing
  /-- The model's own: the turns still to be taken, in order (log 2). -/
  agenda : List Turn
  /-- The model's own: what host reads returned, oldest first (log 3). -/
  hostReads : List Word
  deriving DecidableEq, Repr

/-- The machine stops with a fault: never. "No command, and no host access, transfers control, saves state for a
handler, or stops the block" (R134), so nobody raises one and the type has no constructor (safe: no step is lost). -/
inductive Fault where
  deriving DecidableEq, Repr

/-- Why a step is refused. -/
inductive Refusal where
  /-- An instruction that has no meaning yet: raised by a refused arm of `exec` only, and no arm is refused (safe). -/
  | notModelled (mnemonic : String)
  /-- A host access that is not 4 bytes wide at a multiple of 4: raised by the host turns of Machine/Agents.lean.
  "The model refuses any other access" (R41, U1): safe, nothing can be proved about it. -/
  | badHostAccess
  deriving DecidableEq, Repr

/-- The outcome of a step or a meaning. -/
abbrev Outcome := Host.Outcome State Fault Refusal

/-- The wire at power-on: released, nothing sent, every later sample a free draw (DESIGN CHOICE, log 4, 10, 20). -/
def Wire.initial : Wire := { dqLow := false, now := 0, trace := [], wave := [], env := .draws [] 0 }

/-- The machine right after reset (R36, R37), a block with the default timing parameters (R3; log 8). -/
def State.reset : State where
  busy := false
  presence := false
  found := false
  result := .ok
  errIllegal := false
  errOverrun := false
  data := 0
  rom := 0
  lastDisc := 0
  lastDev := false
  sstate := .idle
  crc8 := 0
  crc16 := 0
  crc16Poly := 0xA001
  crc16Out := 0
  lastZero := 0
  seq := .idle
  cmdLatch := 0
  wire := Wire.initial
  timing := Timing.nominal
  agenda := []
  hostReads := []

end Sys2Proof.Machine
end

