-- ==== Sys2Proof/Machine/Bus.lean ====
section
/-! DEFINITION. The environment: what it answers to a sample, and how a wire event moves it on. Free draws (00_scope.md
R9) and the reference bus model (20_memory.md R55 to R65). -/

namespace Sys2Proof.Machine

/-- A device of a fixture at its start: "Every device starts in `Idle`", its log empty (R55). -/
def Device.fixture (rom : DWord) (alerting : Bool) (resp : List Bool) : Device :=
  { rom := rom, alerting := alerting, resp := resp, log := [], st := .idle }

/-- A reference bus at its start, from the parameters of R55: address, alert condition and response of each device, and
`stuck_low`. -/
def Bus.fixture (devs : List (DWord × Bool × List Bool)) (stuckLow : Bool) : Bus :=
  { devices := devs.map fun d => Device.fixture d.1 d.2.1 d.2.2, stuckLow := stuckLow }

/-- The machine right after reset with its line on a fixture (R38, R52, R55). -/
def State.onFixture (devs : List (DWord × Bool × List Bool)) (stuckLow : Bool) : State :=
  { State.reset with wire := { Wire.initial with env := .bus (Bus.fixture devs stuckLow) } }

/-- `dr`, what a device drives in the sample window of a slot: `false` pulls the line low (R58, R60, R62, R63). -/
def Device.drive (d : Device) : Bool :=
  match d.st with
  | .search p .bit => d.rom.getLsbD p
  | .search p .cmp => !d.rom.getLsbD p
  | .readRom p => d.rom.getLsbD p
  | .respond => d.resp.headD true
  | .search _ .dir | .idle | .cmd _ _ | .matching _ | .func _ _ | .off => true

/-- `acc OR (m << n)` (R59, R63). -/
def accBit (acc : Byte) (n : Nat) (m : Bool) : Byte := acc ||| ((BitVec.ofBool m).setWidth 8 <<< n)

/-- The state a device goes to when the ROM command byte `c` is complete (R59). -/
def Device.afterRomCommand (d : Device) (c : Byte) : DeviceState :=
  if c = 0xF0 then .search 0 .bit
  else if c = 0xEC then (if d.alerting then .search 0 .bit else .off)
  else if c = 0x55 then .matching 0
  else if c = 0xCC then .func 0 0
  else if c = 0x33 then .readRom 0
  else .off

/-- A device after a slot in which it saw the master bit `m` (R58 to R63, R65). -/
def Device.afterSlot (m : Bool) (d : Device) : Device :=
  match d.st with
  | .idle => d
  | .off => d
  | .cmd n acc =>
    { d with st := if n + 1 < 8 then .cmd (n + 1) (accBit acc n m) else d.afterRomCommand (accBit acc n m) }
  | .search p .bit => { d with st := .search p .cmp }
  | .search p .cmp => { d with st := .search p .dir }
  | .search p .dir =>
    { d with st := if m = d.rom.getLsbD p then (if p = 63 then .func 0 0 else .search (p + 1) .bit) else .off }
  | .matching p =>
    { d with st := if m = d.rom.getLsbD p then (if p = 63 then .func 0 0 else .matching (p + 1)) else .off }
  | .readRom p => { d with st := if p = 63 then .func 0 0 else .readRom (p + 1) }
  | .func n acc =>
    { d with log := d.log ++ [m], st := if n + 1 = 8 then .respond else .func (n + 1) (accBit acc n m) }
  | .respond =>
    match d.resp with
    | [] => { d with log := d.log ++ [m] }
    | _ :: rest => { d with resp := rest }

/-- Every device after a slot with the master bit `m` (R58). -/
def Bus.afterSlot (m : Bool) (b : Bus) : Bus := { b with devices := b.devices.map (Device.afterSlot m) }

/-- Every device after a reset pulse (R57). -/
def Bus.afterPulse (b : Bus) : Bus := { b with devices := b.devices.map fun d => { d with st := .cmd 0 0 } }

/-- What a sample of the reference bus reads (R56, R57, R64): 0 whenever `stuck_low` holds; a poll reads 1 otherwise,
the presence sample reads 0 where there is a device, a read slot reads the AND of all drives. -/
def Bus.answer (k : SampleKind) (b : Bus) : Bool :=
  !b.stuckLow &&
    match k with
    | .poll => true
    | .presence => b.devices.isEmpty
    | .slot => b.devices.all Device.drive

/-- What the environment answers to a sample (R9, R52): the next draw, or what the reference bus reads. -/
def Env.answer (k : SampleKind) (e : Env) : Bool :=
  match e with
  | .draws [] used => Config.freeSample used
  | .draws (v :: _) _ => v
  | .bus b => b.answer k

/-- One draw is taken (R9). -/
def Env.drawn (e : Env) : Env :=
  match e with
  | .draws tape used => .draws tape.tail (used + 1)
  | .bus b => .bus b

/-- A reference bus moves by `f`; free draws have nothing to move. -/
def Env.onBus (f : Bus → Bus) (e : Env) : Env :=
  match e with
  | .draws tape used => .draws tape used
  | .bus b => .bus (f b)

/-- The environment after a wire event: a sampled event takes one draw, a reset pulse and a slot move the devices, a
read slot with master bit 1 (R57, R58). A truncated event is no whole event of a command: `Env.afterCut` has it. -/
def Env.after (ev : WireEvent) (e : Env) : Env :=
  match ev with
  | .poll _ => e.drawn
  | .rst _ => e.drawn.onBus Bus.afterPulse
  | .write b => e.onBus (Bus.afterSlot b)
  | .read _ => e.drawn.onBus (Bus.afterSlot true)
  | .cut _ => e

/-- A device that took a truncated event as a whole one (log 15). -/
def Device.afterCut (k : CutEvent) (d : Device) : Device :=
  match k with
  | .pulse => { d with st := .cmd 0 0 }
  | .write b => d.afterSlot b
  | .read => d.afterSlot true

/-- Every device after the truncated event at place `n` of the trace: moved as by a whole event, or not at all, a free
value for each (R152, R153, U6; log 15). -/
def Bus.afterCut (n : Nat) (k : CutEvent) (b : Bus) : Bus :=
  { b with devices := b.devices.mapIdx fun j d => if Config.cutSeen n j then d.afterCut k else d }

/-- The environment after the truncated event at place `n` of the trace; `sampled` says whether the block took its
sample before the cut, and so a draw (R9, R152). -/
def Env.afterCut (n : Nat) (k : CutEvent) (sampled : Bool) (e : Env) : Env :=
  (if sampled then e.drawn else e).onBus (Bus.afterCut n k)

/-- The environment after a list of events. -/
def Env.afterAll (evs : List WireEvent) (e : Env) : Env := evs.foldl (fun e ev => e.after ev) e

end Sys2Proof.Machine
end

