-- ==== Sys2Proof/Machine/Flags.lean ====
section
/-! DEFINITION. The status fields: the words a host reads (10_state.md sections 3, 5 and 6), the write-1-to-clear bits
of `STATUS` (20_memory.md R44), and the flags a bus reset gives (40_transport.md R90). -/

namespace Sys2Proof.Machine

/-- The number of a result code (R135). -/
def ResultCode.code : ResultCode → BitVec 4
  | .ok => 0
  | .busStuck => 1
  | .noPresence => 2
  | .searchNoResponse => 3
  | .searchZeroFamily => 4
  | .searchEnd => 5
  | .illegal => 6

/-- The number of a search state (R26). -/
def SState.code : SState → BitVec 2
  | .idle => 0
  | .searching => 1
  | .found => 2
  | .exhausted => 3

/-- `STATUS` as a host reads it: BUSY 0, PRESENCE 1, FOUND 2, RESULT 7:4, ERR_ILLEGAL 8, ERR_OVERRUN 9, the rest 0. -/
def statusWord (s : State) : Word :=
  0#22 ++ BitVec.ofBool s.errOverrun ++ BitVec.ofBool s.errIllegal ++ s.result.code ++ 0#1 ++ BitVec.ofBool s.found ++
    BitVec.ofBool s.presence ++ BitVec.ofBool s.busy

/-- `CURSOR` as a host reads it: LAST_DISC 6:0, LAST_DEV 8, SSTATE 13:12, the rest 0. -/
def cursorWord (s : State) : Word :=
  0#18 ++ s.sstate.code ++ 0#3 ++ BitVec.ofBool s.lastDev ++ 0#1 ++ s.lastDisc

/-- `CRC` as a host reads it: CRC16 31:16, CRC8 7:0, the rest 0 (R28, R29). -/
def crcWord (s : State) : Word := s.crc16 ++ 0#8 ++ s.crc8

/-- A 16-bit register in a 32-bit host word (R27, R30). -/
def halfWord (v : Half) : Word := 0#16 ++ v

/-- A host write of `v` to `STATUS`: writing 1 to bit 8 or 9 clears that flag, all other bits are ignored (R44). -/
def writeStatus (v : Word) (s : State) : State :=
  { s with errIllegal := s.errIllegal && !v.getLsbD 8, errOverrun := s.errOverrun && !v.getLsbD 9 }

/-- What `BusReset()` returns (R87, R88). -/
inductive ResetOutcome where
  | present
  | absent
  | stuck
  deriving DecidableEq, Repr

/-- `STATUS.PRESENCE` after a bus reset (R16, R90, R122). -/
def ResetOutcome.presence : ResetOutcome → Bool
  | .present => true
  | .absent => false
  | .stuck => false

/-- `STATUS.RESULT` after a bus reset (R90, R122). -/
def ResetOutcome.result : ResetOutcome → ResultCode
  | .present => .ok
  | .absent => .noPresence
  | .stuck => .busStuck

end Sys2Proof.Machine
end

