-- ==== Sys2Proof/Machine/Operands.lean ====
section
/-! DEFINITION. Operands: the implicit operands a command takes from `DATA` (30_encoding.md R77), the order of bits on
the wire (20_memory.md R49), and the result a bit or a byte read leaves in `DATA` (R92, R100). -/

namespace Sys2Proof.Machine

/-- The bits of a value in wire order: `v[0]` first (R49). -/
def lsbBits {n : Nat} (v : BitVec n) : List Bool := (List.range n).map fun i => v.getLsbD i

/-- The number whose bits are these, the first bit bit 0 (R49, R98). -/
def natOfBits : List Bool → Nat
  | [] => 0
  | b :: bs => b.toNat + 2 * natOfBits bs

/-- The 64-bit value of bits read from the wire, the first into bit 0, zero-extended (R92, R98, R100, R102). -/
def dataOfBits (bs : List Bool) : DWord := BitVec.ofNat 64 (natOfBits bs)

/-- `v` with bit `i` replaced by `b`: `ROM[pos-1] <- branch` (R126). -/
def withBit (v : DWord) (i : Nat) (b : Bool) : DWord := if b then v ||| (1#64 <<< i) else v &&& ~~~(1#64 <<< i)

/-- `DATA[7:0]`, the operand of `C8D` and `C16D` (R22, R77). -/
def dataByte (s : State) : Byte := s.data.extractLsb' 0 8

/-- Byte `k` of an address or of `DATA`: bits `8k+7:8k` (R48). -/
def addressByte (v : DWord) (k : Nat) : Byte := v.extractLsb' (8 * k) 8

/-- The family code: byte 0 of an address (R48). -/
def familyByte (v : DWord) : Byte := addressByte v 0

end Sys2Proof.Machine
end

