-- ==== Sys2Proof/Machine/Ops.lean ====
section
/-! DEFINITION. The named operations: the wire primitives (00_scope.md R8 to R10), the slot and bus reset procedures
(40_transport.md R84 to R88), the byte procedures (41_codec.md R97, R98), and how a command completes (20_memory.md
R46, 60_exceptions.md R137). OWX takes no exception (60_exceptions.md R134, R141): the completion of an illegal word
stands where a processor's exception entry would. -/

namespace Sys2Proof.Machine

/-- `DriveLow()`: the line is low from this instant (R8). -/
def Wire.driveLow (w : Wire) : Wire := { w with dqLow := true, wave := w.wave ++ [.low w.now] }

/-- `Release()` (R8). -/
def Wire.release (w : Wire) : Wire := { w with dqLow := false, wave := w.wave ++ [.release w.now] }

/-- `Wait(t)` (R10). -/
def Wire.wait (t : Nat) (w : Wire) : Wire := { w with now := w.now + t }

/-- `WaitUntil(t)` (R10): no wait where the timebase is already past `t` (log 23). -/
def Wire.waitUntil (t : Nat) (w : Wire) : Wire := { w with now := max w.now t }

/-- The level of the line at a sample: low when the block or the environment pulls it low (R9, R50). -/
def Wire.level (k : SampleKind) (w : Wire) : Bool := !w.dqLow && w.env.answer k

/-- The sample is marked in the waveform. -/
def Wire.sampled (v : Bool) (w : Wire) : Wire := { w with wave := w.wave ++ [.sample w.now v] }

/-- `trace <- trace ++ [ev]`; the environment moves with the event (R52, R57, R58). -/
def Wire.emit (ev : WireEvent) (w : Wire) : Wire := { w with trace := w.trace ++ [ev], env := w.env.after ev }

/-- `WriteSlot(b)` (R84). -/
def writeSlot (p : Timing) (b : Bool) (w : Wire) : Wire :=
  let t0 := w.now
  ((((w.driveLow).waitUntil (t0 + if b then p.tLow1 else p.tLow0)).release).waitUntil (t0 + p.tSlot + p.tRec)).emit
    (.write b)

/-- `ReadSlot()` (R85): the bit read and the line after the slot. -/
def readSlot (p : Timing) (w : Wire) : Bool × Wire :=
  let t0 := w.now
  let w1 := (((w.driveLow).waitUntil (t0 + p.tRdlow)).release).waitUntil (t0 + p.tRds)
  let v := w1.level .slot
  (v, ((w1.sampled v).waitUntil (t0 + p.tSlot + p.tRec)).emit (.read v))

/-- The polls of the idle wait, at most `n` more (R87): did one read 1? -/
def idleWait (p : Timing) : Nat → Wire → Bool × Wire
  | 0, w => (false, w)
  | n + 1, w =>
    let w1 := w.wait p.tIdlePoll
    let v := w1.level .poll
    let w2 := (w1.sampled v).emit (.poll v)
    if v then (true, w2) else idleWait p n w2

/-- The reset pulse, the presence sample and the recovery (R88): the sample and the line after them. -/
def resetPulse (p : Timing) (w : Wire) : Bool × Wire :=
  let t0 := w.now
  let w1 := (((w.driveLow).waitUntil (t0 + p.tRstl)).release).waitUntil (t0 + p.tRstl + p.tPds)
  let v := w1.level .presence
  (v, ((w1.sampled v).emit (.rst v)).waitUntil (t0 + p.tRstl + p.tPds + p.tRstrec))

/-- `BusReset()` (R87, R88): a presence sample of 0 means present (R89). -/
def busReset (p : Timing) (w : Wire) : ResetOutcome × Wire :=
  match idleWait p p.nIdlePolls w.release with
  | (false, w1) => (.stuck, w1)
  | (true, w1) => (if (resetPulse p w1).1 then .absent else .present, (resetPulse p w1).2)

/-- `WriteSlot` for each of these bits in turn. -/
def writeBits (p : Timing) : List Bool → Wire → Wire
  | [], w => w
  | b :: bs, w => writeBits p bs (writeSlot p b w)

/-- `WriteByte(v)`: 8 write slots, least significant bit first (R97). -/
def writeByte (p : Timing) (v : Byte) (w : Wire) : Wire := writeBits p (lsbBits v) w

/-- The 64 write slots of a 64-bit value (R101, R103). -/
def writeDWord (p : Timing) (v : DWord) (w : Wire) : Wire := writeBits p (lsbBits v) w

/-- `n` read slots: the bits in slot order (R98, R102). -/
def readBits (p : Timing) : Nat → Wire → List Bool × Wire
  | 0, w => ([], w)
  | n + 1, w =>
    ((readSlot p w).1 :: (readBits p n (readSlot p w).2).1, (readBits p n (readSlot p w).2).2)

/-- The reading of the timebase that the sequencer holds, 0 when idle (R10, R32). -/
def Seq.reading : Seq → Nat
  | .idle => 0
  | .running t => t

/-- `Now()` at this instant: the timebase, which a running command has moved on (R10, R32). -/
def State.instant (s : State) : Nat := max s.wire.now s.seq.reading

/-- The line when a command is complete: released (R51), `T_INTERNAL` later (R162; log 9), and not before the instant
`reading` at which the completion comes (R10; log 28). -/
def Wire.settle (reading : Nat) (w : Wire) : Wire :=
  { w with dqLow := false, now := max (w.now + Config.tInternal) reading }

/-- A command completes with a result code: its writes and `BUSY <- 0` become visible together (R18, R46). -/
def finish (r : ResultCode) (s : State) : State :=
  { s with result := r, busy := false, seq := .idle, wire := s.wire.settle s.seq.reading }

/-- An illegal word completes (R137). -/
def completeIllegal (s : State) : State := finish .illegal { s with errIllegal := true }

/-- A command that only writes slots: `f` is its wire activity (R91, R99, R101, R103, R104). -/
def writeCommand (f : Wire → Wire) (s : State) : State := finish .ok { s with wire := f s.wire }

/-- A command that reads `n` bits into `DATA` (R92, R100, R102). -/
def readCommand (n : Nat) (s : State) : State :=
  finish .ok { s with wire := (readBits s.timing n s.wire).2,
                      data := dataOfBits (readBits s.timing n s.wire).1 }

end Sys2Proof.Machine
end

