-- ==== Sys2Proof/Machine/Codec.lean ====
section
/-! DEFINITION. The codec commands `W8`, `R8`, `W64`, `R64`, `SELECT`, `SKIP` (41_codec.md) and the wire ROM command
bytes (30_encoding.md R78, R79). -/

namespace Sys2Proof.Machine

/-- `W8 #b` (R99). -/
def execW8 (b : Byte) (s : State) : Outcome := .next (writeCommand (writeByte s.timing b) s)

/-- `R8` (R100). -/
def execR8 (s : State) : Outcome := .next (readCommand 8 s)

/-- `W64` (R101). -/
def execW64 (s : State) : Outcome := .next (writeCommand (writeDWord s.timing s.data) s)

/-- `R64` (R102). -/
def execR64 (s : State) : Outcome := .next (readCommand 64 s)

/-- `SELECT` (R103): the byte 0x55, then the address in `DATA`; no bus reset. -/
def execSelect (s : State) : Outcome :=
  .next (writeCommand (fun w => writeDWord s.timing s.data (writeByte s.timing 0x55 w)) s)

/-- `SKIP` (R104): the byte 0xCC; no bus reset. -/
def execSkip (s : State) : Outcome := .next (writeCommand (writeByte s.timing 0xCC) s)

/-- `ROM:SEARCH`: the byte 0xF0 alone on the wire, as the host sends it with `W8 #0xF0` (R78, R79, R99; log 11). -/
def execRomSearch (s : State) : Outcome := .next (writeCommand (writeByte s.timing 0xF0) s)

/-- `ROM:ALARM_SEARCH`: the byte 0xEC alone on the wire (R78, R79, R99; log 11). -/
def execRomAlarmSearch (s : State) : Outcome := .next (writeCommand (writeByte s.timing 0xEC) s)

/-- `ROM:MATCH`: the byte 0x55 alone on the wire (R78, R79, R99; log 11). -/
def execRomMatch (s : State) : Outcome := .next (writeCommand (writeByte s.timing 0x55) s)

/-- `ROM:SKIP`: the byte 0xCC alone on the wire (R78, R79, R99; log 11). -/
def execRomSkip (s : State) : Outcome := .next (writeCommand (writeByte s.timing 0xCC) s)

/-- `ROM:READ`: the byte 0x33, which the host sends with `W8 #0x33` (R78, R79, R83; log 11). -/
def execRomRead (s : State) : Outcome := .next (writeCommand (writeByte s.timing 0x33) s)

end Sys2Proof.Machine
end

