-- ==== Sys2Proof/Machine/Crc.lean ====
section
/-! DEFINITION. The CRC functions and the CRC commands (42_crc.md). -/

namespace Sys2Proof.Machine

/-- `n` rounds of the CRC-8 loop (R105). -/
def crc8Rounds : Nat → Byte → Byte → Byte
  | 0, c, _ => c
  | n + 1, c, b =>
    crc8Rounds n (if (c ^^^ b).getLsbD 0 then (c >>> 1) ^^^ 0x8C else c >>> 1) (b >>> 1)

/-- `crc8_step(c, b)` (R105). -/
def crc8Step (c b : Byte) : Byte := crc8Rounds 8 c b

/-- `crc8(data)` (R106). -/
def crc8 (data : List Byte) : Byte := data.foldl crc8Step 0

/-- `n` rounds of the CRC-16 loop (R108). -/
def crc16Rounds (poly : Half) : Nat → Half → Half
  | 0, c => c
  | n + 1, c => crc16Rounds poly n (if c.getLsbD 0 then (c >>> 1) ^^^ poly else c >>> 1)

/-- `crc16_step(c, b, poly)` (R108). -/
def crc16Step (poly c : Half) (b : Byte) : Half := crc16Rounds poly 8 (c ^^^ b.setWidth 16)

/-- The start value of a CRC-16: `reflect_in` replaces the seed by 0xFFFF (R109, D20). -/
def crc16Start (seed : Half) (reflectIn : Bool) : Half := if reflectIn then 0xFFFF else seed

/-- The final value of a CRC-16: `reflect_out` inverts it (R109). -/
def crc16Final (c : Half) (reflectOut : Bool) : Half := if reflectOut then c ^^^ 0xFFFF else c

/-- `crc16(data, seed, poly, reflect_in, reflect_out)` (R109). -/
def crc16 (data : List Byte) (seed poly : Half) (reflectIn reflectOut : Bool) : Half :=
  crc16Final (data.foldl (crc16Step poly) (crc16Start seed reflectIn)) reflectOut

/-- The table-driven form of the CRC-16 step (R118): `T[i] = crc16_step(0, i, poly)`. -/
def crc16TableStep (poly c : Half) (b : Byte) : Half :=
  (c >>> 8) ^^^ crc16Step poly 0 ((c ^^^ b.setWidth 16).setWidth 8)

/-- The CRC-8 over the bytes of an address, 0 for a valid one (R70, R107). -/
def addressCrc (v : DWord) : Byte := crc8 ((List.range 8).map (addressByte v))

/-- The two bytes a CRC-16 travels as: low byte first (R69, R110). -/
def crc16Trailer (c : Half) : List Byte := [c.extractLsb' 0 8, c.extractLsb' 8 8]

/-- `C8I` (R111). -/
def execC8i (s : State) : Outcome := .next (finish .ok { s with crc8 := 0x00 })

/-- `C8B #b` (R112). -/
def execC8b (b : Byte) (s : State) : Outcome := .next (finish .ok { s with crc8 := crc8Step s.crc8 b })

/-- `C8D` (R113). -/
def execC8d (s : State) : Outcome := .next (finish .ok { s with crc8 := crc8Step s.crc8 (dataByte s) })

/-- `C16I #s` (R114, F0 = 0). -/
def execC16i (seed : Half) (s : State) : Outcome := .next (finish .ok { s with crc16 := crc16Start seed false })

/-- `C16I.REFIN` (R114, F0 = 1, IMM16 = 0). -/
def execC16iRefin (s : State) : Outcome := .next (finish .ok { s with crc16 := crc16Start 0 true })

/-- `C16B #b` (R115). -/
def execC16b (b : Byte) (s : State) : Outcome :=
  .next (finish .ok { s with crc16 := crc16Step s.crc16Poly s.crc16 b })

/-- `C16D` (R116). -/
def execC16d (s : State) : Outcome :=
  .next (finish .ok { s with crc16 := crc16Step s.crc16Poly s.crc16 (dataByte s) })

/-- `C16F` (R117, F0 = 0). -/
def execC16f (s : State) : Outcome := .next (finish .ok { s with crc16Out := crc16Final s.crc16 false })

/-- `C16F.REFOUT` (R117, F0 = 1). -/
def execC16fRefout (s : State) : Outcome := .next (finish .ok { s with crc16Out := crc16Final s.crc16 true })

end Sys2Proof.Machine
end

