-- ==== Sys2Proof/Machine/Search.lean ====
section
/-! DEFINITION. The ROM search engine `SRST`, `SRCH`, `SRCH.A`, `SSEL` (43_search.md). The pass works on a copy of the
state, which becomes visible when the command completes (20_memory.md R46). -/

namespace Sys2Proof.Machine

/-- `CursorClear()` (R120). -/
def cursorClear (s : State) : State := { s with lastDisc := 0, lastDev := false, rom := 0 }

/-- A pass that reports no address: the cursor is cleared, then `NoAddress(code)` (R120, R121, R122, R124, R128). -/
def noAddress (code : ResultCode) (s : State) : State :=
  finish code { cursorClear s with found := false, sstate := .exhausted }

/-- The branch taken at position `pos` (R125, with the choice of 90_conflicts.md C1). -/
def branchAt (pos : Nat) (idb cmp : Bool) (s : State) : Bool :=
  if idb != cmp then idb
  else if pos < s.lastDisc.toNat then s.rom.getLsbD (pos - 1)
  else decide (pos = s.lastDisc.toNat)

/-- One position once its bit and complement are read: the branch is chosen, recorded and written back (R125, R126). -/
def takeBranch (pos : Nat) (idb cmp : Bool) (s : State) : State :=
  let branch := branchAt pos idb cmp s
  { s with
    lastZero := if idb == cmp && !branch then BitVec.ofNat 7 pos else s.lastZero
    rom := withBit s.rom (pos - 1) branch
    wire := writeSlot s.timing branch s.wire }

/-- Step 3 for `n` more positions from `pos` (R124 to R126): did every position have a response? -/
def searchBits : Nat → Nat → State → Bool × State
  | 0, _, s => (true, s)
  | n + 1, pos, s =>
    let r1 := readSlot s.timing s.wire
    let r2 := readSlot s.timing r1.2
    if r1.1 && r2.1 then (false, { s with wire := r2.2 })
    else searchBits n (pos + 1) (takeBranch pos r1.1 r2.1 { s with wire := r2.2 })

/-- Step 4, after 64 positions (R127). -/
def completePass (s : State) : State :=
  { s with lastDisc := s.lastZero, lastDev := if s.lastZero = 0 then true else s.lastDev }

/-- Step 5 (R128): a zero family byte reports no address, any other candidate is the found address. -/
def validateCandidate (s : State) : State :=
  if familyByte s.rom = 0 then noAddress .searchZeroFamily s
  else finish .ok { s with data := s.rom, found := true, sstate := .found }

/-- Steps 2 to 5 (R123 to R128). -/
def searchRest (c : Byte) (s : State) : State :=
  match searchBits 64 1 { s with wire := writeByte s.timing c s.wire, lastZero := 0 } with
  | (false, s1) => noAddress .searchNoResponse s1
  | (true, s1) => validateCandidate (completePass s1)

/-- `SearchPass(c)` (R121 to R128). -/
def searchPass (c : Byte) (s : State) : State :=
  if s.lastDev then noAddress .searchEnd s
  else
    let o := busReset s.timing s.wire
    let s1 := { s with wire := o.2, presence := o.1.presence }
    match o.1 with
    | .stuck => noAddress .busStuck s1
    | .absent => noAddress .noPresence s1
    | .present => searchRest c s1

/-- `SSEL` primes the cursor with the address in `DATA` (R131). -/
def primeCursor (s : State) : State := { s with rom := s.data, lastDisc := 64, lastDev := false }

/-- `SRST` (R129). -/
def execSrst (s : State) : Outcome :=
  .next (finish .ok { cursorClear s with found := false, sstate := .idle })

/-- `SRCH` (R130, F0 = 0). -/
def execSrch (s : State) : Outcome := .next (searchPass 0xF0 { s with sstate := .searching })

/-- `SRCH.A` (R130, F0 = 1). -/
def execSrchA (s : State) : Outcome := .next (searchPass 0xEC { s with sstate := .searching })

/-- `SSEL` (R131). -/
def execSsel (s : State) : Outcome := .next (searchPass 0xEC { primeCursor s with sstate := .searching })

end Sys2Proof.Machine
end

