-- ==== Sys2Proof/Machine/Transport.lean ====
section
/-! DEFINITION. The transport commands `RESET`, `WBIT`, `RBIT` (40_transport.md). -/

namespace Sys2Proof.Machine

/-- `RESET` (R90). -/
def execReset (s : State) : Outcome :=
  let o := busReset s.timing s.wire
  .next (finish o.1.result { s with wire := o.2, presence := o.1.presence })

/-- `WBIT b` (R91). -/
def execWbit (b : Bool) (s : State) : Outcome := .next (writeCommand (writeSlot s.timing b) s)

/-- `RBIT` (R92). -/
def execRbit (s : State) : Outcome := .next (readCommand 1 s)

end Sys2Proof.Machine
end

