-- ==== Sys2Proof/Machine/Dispatch.lean ====
section
/-! DEFINITION. One arm per instruction: the completion of the command in a state (60_exceptions.md R148). -/

namespace Sys2Proof.Machine

def exec (i : Instr) (s : State) : Host.Outcome State Fault Refusal :=
  match i with
  | .reset => Sys2Proof.Machine.execReset s
  | .wbit b => Sys2Proof.Machine.execWbit b s
  | .rbit => Sys2Proof.Machine.execRbit s
  | .w8 b => Sys2Proof.Machine.execW8 b s
  | .r8 => Sys2Proof.Machine.execR8 s
  | .w64 => Sys2Proof.Machine.execW64 s
  | .r64 => Sys2Proof.Machine.execR64 s
  | .select => Sys2Proof.Machine.execSelect s
  | .skip => Sys2Proof.Machine.execSkip s
  | .srst => Sys2Proof.Machine.execSrst s
  | .srch => Sys2Proof.Machine.execSrch s
  | .srchA => Sys2Proof.Machine.execSrchA s
  | .ssel => Sys2Proof.Machine.execSsel s
  | .c8i => Sys2Proof.Machine.execC8i s
  | .c8b b => Sys2Proof.Machine.execC8b b s
  | .c16i x => Sys2Proof.Machine.execC16i x s
  | .c16iRefin => Sys2Proof.Machine.execC16iRefin s
  | .c16b b => Sys2Proof.Machine.execC16b b s
  | .c16f => Sys2Proof.Machine.execC16f s
  | .c16fRefout => Sys2Proof.Machine.execC16fRefout s
  | .c8d => Sys2Proof.Machine.execC8d s
  | .c16d => Sys2Proof.Machine.execC16d s
  | .romSearch => Sys2Proof.Machine.execRomSearch s
  | .romAlarmSearch => Sys2Proof.Machine.execRomAlarmSearch s
  | .romMatch => Sys2Proof.Machine.execRomMatch s
  | .romSkip => Sys2Proof.Machine.execRomSkip s
  | .romRead => Sys2Proof.Machine.execRomRead s

end Sys2Proof.Machine
end

