-- ==== Sys2Proof/Machine/Agents.lean ====
section
/-! DEFINITION. The turns of the agents (60_exceptions.md R148): the host's reads and writes of the register window
(20_memory.md section 2), issue (10_state.md R14), completion, the time a command spends on the line, and the block
reset (70_reset_and_hazards.md section 1). -/

namespace Sys2Proof.Machine

/-- The register at an offset of the window that is a multiple of 4 (R40, R42). -/
def regAt (off : BitVec 6) : Reg :=
  match off.toNat with
  | 0x00 => .cmd
  | 0x04 => .status
  | 0x08 => .dataLo
  | 0x0C => .dataHi
  | 0x10 => .romLo
  | 0x14 => .romHi
  | 0x18 => .cursor
  | 0x1C => .crc
  | 0x20 => .crc16Poly
  | 0x24 => .crc16Out
  | _ => .reserved

/-- What a host read of a register returns; it changes nothing (R14, R21, R40, R42, R43). -/
def readReg (r : Reg) (s : State) : Word :=
  match r with
  | .cmd => 0
  | .status => statusWord s
  | .dataLo => s.data.extractLsb' 0 32
  | .dataHi => s.data.extractLsb' 32 32
  | .romLo => s.rom.extractLsb' 0 32
  | .romHi => s.rom.extractLsb' 32 32
  | .cursor => cursorWord s
  | .crc => crcWord s
  | .crc16Poly => halfWord s.crc16Poly
  | .crc16Out => halfWord s.crc16Out
  | .reserved => 0

/-- Does the word carry a search command (R119)? -/
def isSearchWord (w : Word) : Bool :=
  match decodeWord w with
  | .ok .srch | .ok .srchA | .ok .ssel => true
  | _ => false

/-- Issue: the word is latched, `BUSY <- 1`, and `SSTATE <- SEARCHING` for a search command (R14, R119, R148). -/
def issue (w : Word) (s : State) : State :=
  { s with
    cmdLatch := w
    busy := true
    seq := .running s.wire.now
    sstate := if isSearchWord w then .searching else s.sstate }

/-- Completion: the latched word runs whole, or completes as illegal (R137, R148). -/
def complete (s : State) : Outcome :=
  match decodeWord s.cmdLatch with
  | .ok i => exec i s
  | .error _ => .next (completeIllegal s)

/-- The wire as the running command will leave it, from which the time already spent on the line is cut. -/
def pendingWire (s : State) : Wire :=
  match complete { s with wire := { s.wire with dqLow := false } } with
  | .next t => t.wire
  | .fault _ => s.wire
  | .refused _ => s.wire

/-- The events of the running command, first to last. -/
def pendingEvents (s : State) : List WireEvent := (pendingWire s).trace.drop s.wire.trace.length

/-- The waveform marks of the running command, first to last. -/
def pendingEdges (s : State) : List Edge := (pendingWire s).wave.drop s.wire.wave.length

/-- How long an event takes (R84 to R88, R162). -/
def eventTime (p : Timing) : WireEvent → Nat
  | .poll _ => p.tIdlePoll
  | .rst _ => p.pulseTime
  | .write _ => p.slotTime
  | .read _ => p.slotTime
  | .cut _ => 0

/-- How long after its start an event is in the trace: a reset pulse at its presence sample, before the recovery (R88),
every other event at its end (R84, R85, R87). -/
def eventShown (p : Timing) : WireEvent → Nat
  | .rst _ => p.tRstl + p.tPds
  | .poll v => eventTime p (.poll v)
  | .write b => eventTime p (.write b)
  | .read v => eventTime p (.read v)
  | .cut k => eventTime p (.cut k)

/-- The events that are in the trace `t` microseconds after the first began, the time spent since the last of them began
or ended, and the event then under way that is not in the trace yet, if any. -/
def eventsWithin (p : Timing) : List WireEvent → Nat → List WireEvent × Nat × Option WireEvent
  | [], t => ([], t, none)
  | e :: es, t =>
    if eventTime p e ≤ t then
      (e :: (eventsWithin p es (t - eventTime p e)).1, (eventsWithin p es (t - eventTime p e)).2)
    else if eventShown p e ≤ t then ([e], t, none)
    else ([], t, some e)

/-- The time the running command has been on the line (R32), 0 when idle. -/
def State.elapsed (s : State) : Nat := s.instant - s.wire.now

/-- The running command's events that are in the trace so far (R32). -/
def eventsDone (s : State) : List WireEvent := (eventsWithin s.timing (pendingEvents s) s.elapsed).1

/-- The time spent in the event under way, and that event, if it is not in the trace yet. -/
def eventUnderWay (s : State) : Nat × Option WireEvent :=
  (eventsWithin s.timing (pendingEvents s) s.elapsed).2

/-- The idle-poll count of `seq` (R32): polls made so far. -/
def seqPolls (s : State) : Nat := (eventsDone s).countP fun e => match e with | .poll _ => true | _ => false

/-- The slots done so far. -/
def seqSlots (s : State) : Nat :=
  (eventsDone s).countP fun e => match e with | .write _ => true | .read _ => true | _ => false

/-- The search bit position `pos` of `seq` (R32, R34): 1 to 64 within a pass, 0 before its bit loop. -/
def seqPos (s : State) : Nat := if seqSlots s < 8 then 0 else min 64 ((seqSlots s - 8) / 3 + 1)

/-- The start time `t0` of the event under way (R32, R86). -/
def seqT0 (s : State) : Nat := s.instant - (eventUnderWay s).1

/-- Has the mark been made by time `t`? A level holds from the instant of its mark (R8; log 14). -/
def Edge.madeBy (t : Nat) : Edge → Bool
  | .low t' => t' ≤ t
  | .release t' => t' ≤ t
  | .sample t' _ => t' ≤ t

/-- The marks of the running command made so far. -/
def edgesDone (s : State) : List Edge := (pendingEdges s).filter (Edge.madeBy s.instant)

/-- The pin drive after a mark. -/
def Edge.drive (low : Bool) : Edge → Bool
  | .low _ => true
  | .release _ => false
  | .sample _ _ => low

/-- `dq_low` at this instant of the running command (R33, R47). -/
def lineLow (s : State) : Bool := (edgesDone s).foldl Edge.drive false

/-- The pin is where the waveform of the running command has it at this instant (R8, R33, R47). -/
def drivePin (s : State) : State := { s with wire := { s.wire with dqLow := lineLow s } }

/-- A host write while the block is idle (R44). -/
def writeRegIdle (r : Reg) (v : Word) (s : State) : State :=
  match r with
  | .cmd => drivePin (issue v s)
  | .status => writeStatus v s
  | .dataLo => { s with data := s.data.extractLsb' 32 32 ++ v }
  | .dataHi => { s with data := v ++ s.data.extractLsb' 0 32 }
  | .crc16Poly => { s with crc16Poly := v.extractLsb' 0 16 }
  | .romLo | .romHi | .cursor | .crc | .crc16Out | .reserved => s

/-- A host write while a command runs (R45). -/
def writeRegBusy (r : Reg) (v : Word) (s : State) : State :=
  match r with
  | .status => writeStatus v s
  | .cmd | .dataLo | .dataHi | .crc16Poly => { s with errOverrun := true }
  | .romLo | .romHi | .cursor | .crc | .crc16Out | .reserved => s

/-- A host write of `v` to a register (R44, R45). -/
def writeReg (r : Reg) (v : Word) (s : State) : State := if s.busy then writeRegBusy r v s else writeRegIdle r v s

/-- The one access the block has a step for: 4 bytes wide, at a multiple of 4 (R41). -/
def goodAccess (off : BitVec 6) (width : AccessWidth) : Bool := decide (width = .four) && off.toNat % 4 == 0

/-- The host address of a register of the window (R5, R40; log 7). -/
def hostAddress (off : BitVec 6) : Nat := Config.owxBase + off.toNat

/-- `t` microseconds pass. Idle, the line stays released (R94); while a command runs, its time on the line goes on,
and the pin is where the waveform has it (R32, R33). It may run past the command's own duration, which then completes
late (DESIGN CHOICE, log 28). -/
def elapse (t : Nat) (s : State) : State :=
  match s.seq with
  | .idle => { s with wire := s.wire.wait t }
  | .running now => drivePin { s with seq := .running (now + t) }

/-- The truncated event of an abandoned command, a slot or a reset pulse that had begun and is not in the trace (R152),
and whether the sample it takes had been taken. -/
def cutEvent (s : State) : Option (CutEvent × Bool) :=
  match eventUnderWay s with
  | (_, some (.rst _)) => some (.pulse, false)
  | (_, some (.write b)) => some (.write b, false)
  | (t, some (.read _)) => some (.read, s.timing.tRds ≤ t)
  | (_, some (.poll _)) => none
  | (_, some (.cut _)) => none
  | (_, none) => none

/-- The environment an abandoned command leaves: moved by its events, and by the truncated one as a free value says
(R38, R152, R153; log 15). -/
def envAfterReset (s : State) : Env :=
  match cutEvent s with
  | none => s.wire.env.afterAll (eventsDone s)
  | some (k, sampled) =>
    (s.wire.env.afterAll (eventsDone s)).afterCut (s.wire.trace.length + (eventsDone s).length) k sampled

/-- The line after a block reset: released at once; what an abandoned command did on the wire has happened (R38, R151,
R152). The timebase reads what it read before (R10). -/
def wireAfterReset (s : State) : Wire :=
  match s.seq with
  | .idle => { s.wire with dqLow := false }
  | .running _ =>
    { dqLow := false
      now := s.instant
      trace := s.wire.trace ++ eventsDone s ++ (cutEvent s).toList.map fun x => .cut x.1
      wave := s.wire.wave ++ edgesDone s ++ if lineLow s then [.release s.instant] else []
      env := envAfterReset s }

/-- A block reset (R151): every register at its reset value (R36), a running command abandoned with nothing committed.
The line's history, the environment, the timing parameters, the turns to come and what the host has read are no block
state (R38; log 8). -/
def blockReset (s : State) : State :=
  { State.reset with wire := wireAfterReset s, timing := s.timing, agenda := s.agenda, hostReads := s.hostReads }

/-- One turn of an agent (R148). A `complete` turn while the block is idle is not enabled and changes nothing (log 17). -/
def takeTurn (t : Turn) (s : State) : Outcome :=
  match t with
  | .hostWrite off width v => if goodAccess off width then .next (writeReg (regAt off) v s) else .refused .badHostAccess
  | .hostRead off width =>
    if goodAccess off width then .next { s with hostReads := s.hostReads ++ [readReg (regAt off) s] }
    else .refused .badHostAccess
  | .complete => if s.busy then complete s else .next s
  | .elapse dt => .next (elapse dt s)
  | .blockReset => .next (blockReset s)

/-- The command word that puts a row of the opcode table before the sequencer: the word itself, or, for a wire ROM
command byte, the `W8 #b` that carries it (R83; log 11). -/
def rowWord (nbits w : Nat) : Word :=
  if nbits = 8 then encode (.w8 (BitVec.ofNat 8 w)) else BitVec.ofNat 32 w

end Sys2Proof.Machine
end

