-- ==== Sys2Proof/Machine/Step.lean ====
section
/-! DEFINITION. One step of the machine: the next turn of the agenda; with no turn left, a running command completes,
and an idle block stays as it is (60_exceptions.md R146, R148; log 2). -/

namespace Sys2Proof.Machine

/-- One step. -/
def step (s : State) : Host.Outcome State Fault Refusal :=
  match s.agenda with
  | [] => if s.busy then complete s else .next s
  | t :: rest => takeTurn t { s with agenda := rest }

/-- `s` with the instruction whose bits are `w` issued (latched, `BUSY = 1`) and its completion the next turn: the
sequencer fetches from `cmd_latch`, and no program counter is involved (R34, R66; log 2). -/
def State.withFetchWord (s : State) (nbits w : Nat) : State :=
  { issue (rowWord nbits w) s with agenda := .complete :: s.agenda }

end Sys2Proof.Machine
end

