-- ==== Sys2Proof/Machine/HostNotation.lean ====
section
/-! DEFINITION. The host's notation (30_encoding.md R82, R83) as turns and instructions, and repeated search passes
(43_search.md R133). The host's own variables and jumps are host state, outside the block (R82). -/

namespace Sys2Proof.Machine

/-- `off(REG)` (R40, R82). -/
def Reg.offset : Reg → BitVec 6
  | .cmd => 0x00
  | .status => 0x04
  | .dataLo => 0x08
  | .dataHi => 0x0C
  | .romLo => 0x10
  | .romHi => 0x14
  | .cursor => 0x18
  | .crc => 0x1C
  | .crc16Poly => 0x20
  | .crc16Out => 0x24
  | .reserved => 0x28

/-- `st REG, v` (R82). -/
def st (r : Reg) (v : Word) : Turn := .hostWrite r.offset .four v

/-- `ld r, REG` (R82). -/
def ld (r : Reg) : Turn := .hostRead r.offset .four

/-- `wait` (R82) in the interleaving where the command completes before the next poll of `STATUS`. -/
def waitDone : List Turn := [.complete, ld .status]

/-- `do X` (R83). -/
def doCommand (i : Instr) : List Turn := st .cmd (encode i) :: waitDone

/-- `lddata v` (R83). -/
def lddata (v : DWord) : List Turn := [st .dataLo (v.extractLsb' 0 32), st .dataHi (v.extractLsb' 32 32)]

/-- `rddata r` (R83): the two reads. -/
def rddata : List Turn := [ld .dataLo, ld .dataHi]

/-- `r <- {hi, lo}` of `rddata` (R83). -/
def rddataValue (lo hi : Word) : DWord := hi ++ lo

/-- `MATCH v` (R83). -/
def matchDevice (v : DWord) : List Turn := lddata v ++ doCommand .select

/-- `READROM` (R83). -/
def readRom : List Turn := doCommand (.w8 0x33) ++ doCommand .r64

/-- `WBIT0` (R83). -/
def wbit0 : Instr := .wbit false

/-- `WBIT1` (R83). -/
def wbit1 : Instr := .wbit true

/-- `ASRCH` (R83). -/
def asrch : Instr := .srchA

/-- At most `n` runs of a search command, stopping at the first that reports no address: the addresses reported, in
order, and the state after the last run (R133). -/
def enumerate (i : Instr) : Nat → State → List DWord × State
  | 0, s => ([], s)
  | n + 1, s =>
    match exec i s with
    | .next t => if t.found then (t.data :: (enumerate i n t).1, (enumerate i n t).2) else ([], t)
    | .fault _ => ([], s)
    | .refused _ => ([], s)

/-- The host's discovery (R7, R155): `SRST`, then at most `DISCOVER_MAX_PASSES` passes of `SRCH`; the addresses whose
CRC is good, each once. -/
def discover (s : State) : List DWord :=
  match exec .srst s with
  | .next t => ((enumerate .srch Config.discoverMaxPasses t).1.filter fun a => addressCrc a == 0).eraseDups
  | .fault _ => []
  | .refused _ => []

end Sys2Proof.Machine
end

