-- ==== Sys2Proof/Safety.lean ====
section
/-! DEFINITION. The terms the claims are stated in: the invariant of a good state, what a completed command leaves
alone, and the shapes a wire trace has. -/

namespace Sys2Proof.Machine

/-- A good state. The cursor stays in its range (R24, R31) and LAST_DEV means "no branch left" (R25); BUSY, `seq` and
`dq_low` agree (R15, R32, R33, R51); SSTATE reads SEARCHING exactly while a search command is busy (R26, R119); IDLE and
EXHAUSTED leave the cursor clear and report no address (R120, R129, R17), FOUND leaves a found address with a non-zero
family byte (R128). The timing parameters meet the constraints of R3, and
a running command's instant is not before its start (R10). -/
def GoodState (s : State) : Prop :=
  s.lastDisc.toNat ≤ 64 ∧ s.lastZero.toNat ≤ 64 ∧
    (s.lastDev = true → s.lastDisc = 0) ∧
    (s.busy = false ↔ s.seq = .idle) ∧
    (s.busy = false → s.wire.dqLow = false) ∧
    (s.sstate = .searching ↔ s.busy = true ∧ isSearchWord s.cmdLatch = true) ∧
    (s.sstate = .idle ∨ s.sstate = .exhausted →
      s.lastDisc = 0 ∧ s.lastDev = false ∧ s.rom = 0 ∧ s.found = false) ∧
    (s.sstate = .found → s.found = true ∧ familyByte s.rom ≠ 0) ∧ s.timing.Valid ∧
    (∀ t, s.seq = .running t → s.wire.now ≤ t)

/-- `s` with its command completed with result `r`, the line then `w`, and nothing else changed (`cmd_latch` keeps its
word: log 12). -/
def completed (r : ResultCode) (w : Wire) (s : State) : State :=
  { s with result := r, busy := false, seq := .idle, wire := w }

/-- The line after a command without wire activity: released, `T_INTERNAL` later but not before this instant, nothing
else changed (R10, R137, R162; log 28). -/
def quietWire (s : State) : Wire :=
  { s.wire with dqLow := false, now := max (s.wire.now + Config.tInternal) s.seq.reading }

/-- The write slots of a list of bits, in order. -/
def writeEvents (bs : List Bool) : List WireEvent := bs.map .write

/-- The read slots of a list of sampled bits, in order. -/
def readEvents (bs : List Bool) : List WireEvent := bs.map .read

/-- Every sampled event of the list is what the environment answers at that point (R9, R52, R85, R87, R88): the
environment moves on with each event. -/
def AnsweredBy : Env → List WireEvent → Prop
  | _, [] => True
  | e, .poll v :: evs => e.answer .poll = v ∧ AnsweredBy (e.after (.poll v)) evs
  | e, .rst v :: evs => e.answer .presence = v ∧ AnsweredBy (e.after (.rst v)) evs
  | e, .read v :: evs => e.answer .slot = v ∧ AnsweredBy (e.after (.read v)) evs
  | e, .write b :: evs => AnsweredBy (e.after (.write b)) evs
  | e, .cut k :: evs => AnsweredBy (e.after (.cut k)) evs

/-- The time a list of events takes with the parameters `p`: a bus reset and its slots follow each other without a gap
(R93, R162). -/
def wireTime (p : Timing) (evs : List WireEvent) : Nat := (evs.map (eventTime p)).sum

/-- The line `w` is what the events `evs` of a command that completes in `s` make of the line: the samples are the
environment's answers, the environment has moved with the events, the line is released, and with parameters that meet
the constraints of R3 the events and `T_INTERNAL` are all the time that has passed, or more where the completion comes
later (log 28). -/
def WireAfter (s : State) (evs : List WireEvent) (w : Wire) : Prop :=
  w.dqLow = false ∧ w.trace = s.wire.trace ++ evs ∧ AnsweredBy s.wire.env evs ∧ w.env = s.wire.env.afterAll evs ∧
    (s.timing.Valid →
      w.now = max (s.wire.now + wireTime s.timing evs + Config.tInternal) s.seq.reading)

/-- The command sends these bits, one write slot each, reports `OK`, and changes nothing else. -/
def Sends (i : Instr) (bs : List Bool) (s : State) : Prop :=
  ∃ w, exec i s = .next (completed .ok w s) ∧ WireAfter s (writeEvents bs) w

/-- The command reads `n` bits, one read slot each, into `DATA`, the first into bit 0 and the bits above them 0, reports
`OK`, and changes nothing else. -/
def ReadsInto (i : Instr) (n : Nat) (s : State) : Prop :=
  ∃ w bs d, bs.length = n ∧ exec i s = .next { completed .ok w s with data := d } ∧
    (∀ k, d.getLsbD k = bs.getD k false) ∧ WireAfter s (readEvents bs) w

/-- A bus reset that drove its pulse: `k` polls that read 0, one that read 1, and the presence sample (R87, R88). -/
def resetEvents (k : Nat) (p : Bool) : List WireEvent := List.replicate k (.poll false) ++ [.poll true, .rst p]

/-- A bus reset on a line that never idles (R87): the whole budget of polls. -/
def stuckEvents (p : Timing) : List WireEvent := List.replicate p.nIdlePolls (.poll false)

/-- How long the block drives the line low from the start of an event (R84, R85, R87, R88). -/
def lowTime (p : Timing) : WireEvent → Nat
  | .poll _ => 0
  | .rst _ => p.tRstl
  | .write b => if b then p.tLow1 else p.tLow0
  | .read _ => p.tRdlow
  | .cut _ => 0

/-- Does the block drive the line low `t` microseconds after the first of these events began (R33, R93)? -/
def drivenLow (p : Timing) : List WireEvent → Nat → Bool
  | [], _ => false
  | ev :: evs, t => if t < eventTime p ev then decide (t < lowTime p ev) else drivenLow p evs (t - eventTime p ev)

/-- One position of a search pass: the bit, its complement, and the branch written back. -/
abbrev Position := Bool × Bool × Bool

/-- The three slots of a position (R124, R126, R130). -/
def positionEvents (x : Position) : List WireEvent := [.read x.1, .read x.2.1, .write x.2.2]

/-- The branch R125 gives for position `pos` with the cursor as it stood when the pass began. -/
def ruleBranch (lastDisc : BitVec 7) (rom : DWord) (pos : Nat) (idb cmp : Bool) : Bool :=
  if idb = cmp then
    if pos < lastDisc.toNat then rom.getLsbD (pos - 1) else if pos = lastDisc.toNat then true else false
  else idb

/-- The positions of a pass follow R124 and R125: none reads 1, 1, and each branch is the rule's. -/
def FollowsRule (lastDisc : BitVec 7) (rom : DWord) (xs : List Position) : Prop :=
  ∀ k (h : k < xs.length),
    ¬(xs[k].1 = true ∧ xs[k].2.1 = true) ∧ xs[k].2.2 = ruleBranch lastDisc rom (k + 1) xs[k].1 xs[k].2.1

/-- Position `pos` is a branch point at which 0 was taken (R125). -/
def ZeroTaken (xs : List Position) (pos : Nat) : Prop := 1 ≤ pos ∧ xs[pos - 1]? = some (false, false, false)

/-- `z` is the last branch point at which 0 was taken, or 0 for none (R31, R125). -/
def LastZeroTaken (xs : List Position) (z : Nat) : Prop :=
  (z = 0 ∨ ZeroTaken xs z) ∧ ∀ pos, ZeroTaken xs pos → pos ≤ z

/-- What a pass leaves that reports no address: the cursor clear, FOUND 0, EXHAUSTED, the result code, and nothing else
changed but PRESENCE, `last_zero` and the line (R119, R120). -/
def noAddressState (code : ResultCode) (presence : Bool) (lastZero : BitVec 7) (w : Wire) (s : State) : State :=
  { completed code w s with
    found := false, sstate := .exhausted, lastDisc := 0, lastDev := false, rom := 0,
    presence := presence, lastZero := lastZero }

/-- What a pass leaves that finds the address `a` with `lastZero` its last branch point where 0 was taken (R127, R128). -/
def foundState (a : DWord) (lastZero : BitVec 7) (w : Wire) (s : State) : State :=
  { completed .ok w s with
    data := a, rom := a, found := true, sstate := .found, presence := true,
    lastDisc := lastZero, lastDev := decide (lastZero = 0), lastZero := lastZero }

/-- The ROM command byte of a search command (R78, R130, R131). -/
def searchByte : Instr → Byte
  | .srch => 0xF0
  | _ => 0xEC

/-- The state a search command's pass starts from: `SSEL` primes the cursor (R131). -/
def passStart (i : Instr) (s : State) : State :=
  if i = .ssel then { s with rom := s.data, lastDisc := 64, lastDev := false } else s

/-- The three commands that run a search pass. -/
def IsSearch (i : Instr) : Prop := i = .srch ∨ i = .srchA ∨ i = .ssel

/-- The devices that answer a search command: all to the normal one, the alerting ones to the alarm search (R59). -/
def answers (i : Instr) (d : Device) : Bool := decide (i = .srch) || d.alerting

/-- The addresses that answer a search command. -/
def answering (i : Instr) (ds : List Device) : List DWord := (ds.filter (answers i)).map Device.rom

/-- The order of addresses in wire order: at the first bit that differs `a` has 0 (R132). -/
def WireOrder (a b : DWord) : Prop :=
  ∃ k, (∀ j, j < k → a.getLsbD j = b.getLsbD j) ∧ a.getLsbD k = false ∧ b.getLsbD k = true

/-- The state a write of `w` to CMD leaves in an idle block: the word latched, BUSY set, the command's time beginning now,
SSTATE and the pin as they then are, and every other field as it was (R14). -/
def issuedState (w : Word) (sstate : SState) (low : Bool) (s : State) : State :=
  { s with
    cmdLatch := w, busy := true, seq := .running s.wire.now, sstate := sstate, wire := { s.wire with dqLow := low } }

/-- The truncated event that a block reset leaves of an event under way: of a slot or a reset pulse, none of a poll
(R152). -/
def cutOf : WireEvent → List WireEvent
  | .poll _ => []
  | .rst _ => [.cut .pulse]
  | .write b => [.cut (.write b)]
  | .read _ => [.cut .read]
  | .cut _ => []

/-- Of the events `evs` of a command, the first `n` are in the trace `t` microseconds after its start (R84, R85, R87,
R88), and no more. -/
def ShownAt (p : Timing) (evs : List WireEvent) (t n : Nat) : Prop :=
  n ≤ evs.length ∧
    (∀ k ev, k < n → evs[k]? = some ev → wireTime p (evs.take k) + eventShown p ev ≤ t) ∧
    ∀ ev, evs[n]? = some ev → t < wireTime p (evs.take n) + eventShown p ev

/-- A byte for a streaming CRC: an immediate, or the low byte of a value loaded into `DATA` (R118). -/
inductive Feed where
  | imm (b : Byte)
  | data (v : DWord)
  deriving DecidableEq, Repr

/-- The byte that is folded. -/
def Feed.byte : Feed → Byte
  | .imm b => b
  | .data v => addressByte v 0

/-- The host writes both halves of `DATA` (R83 `lddata`). -/
def loadData (v : DWord) (s : State) : State :=
  writeReg .dataHi (v.extractLsb' 32 32) (writeReg .dataLo (v.extractLsb' 0 32) s)

/-- The streaming commands for a list of bytes: `fold b` for an immediate, `DATA` loaded and then `foldData` otherwise. -/
def feedAll (fold : Byte → Instr) (foldData : Instr) : List Feed → State → Outcome
  | [], s => .next s
  | f :: fs, s =>
    match (match f with | .imm b => exec (fold b) s | .data v => exec foldData (loadData v s)) with
    | .next t => feedAll fold foldData fs t
    | .fault r => .fault r
    | .refused r => .refused r

/-- The commands of a list run one after the other, each to its completion. -/
def execAll : List Instr → State → Outcome
  | [], s => .next s
  | i :: is, s =>
    match exec i s with
    | .next t => execAll is t
    | .fault r => .fault r
    | .refused r => .refused r

/-- The number of polls in a list of events. -/
def pollCount (evs : List WireEvent) : Nat := evs.countP fun e => match e with | .poll _ => true | _ => false

/-- The number of slots in a list of events. -/
def slotCount (evs : List WireEvent) : Nat :=
  evs.countP fun e => match e with | .write _ => true | .read _ => true | _ => false

/-- `t` has the result fields of `s`: everything a command commits at its completion (R46), the operands it reads
(R35), and the line's history. -/
def SameResults (s t : State) : Prop :=
  t.data = s.data ∧ t.rom = s.rom ∧ t.lastDisc = s.lastDisc ∧ t.lastDev = s.lastDev ∧ t.crc8 = s.crc8 ∧
    t.crc16 = s.crc16 ∧ t.crc16Out = s.crc16Out ∧ t.crc16Poly = s.crc16Poly ∧ t.presence = s.presence ∧
    t.found = s.found ∧ t.result = s.result ∧ t.lastZero = s.lastZero ∧ t.wire.trace = s.wire.trace ∧
    t.wire.wave = s.wire.wave ∧ t.wire.env = s.wire.env

end Sys2Proof.Machine
end

