-- ==== Sys2Proof/Certificates/Slice0/Obligations.lean ====
section
/-! DEFINITION. The statements of this model for the provers. Each docstring names the rules of spec/ it formalises;
"log n" is notes/assumptions/n.md. -/

open Sys2Proof Sys2Proof.Machine

/-! ### Encoding -/

/-- Decoding the encoding of any row of the opcode table gives the row back with every operand (R72, R78, R80). -/
def Obligations.DecodeOfEncodeIsTheInstruction : Prop :=
  ∀ i : Instr, decodeTableWord (encodedBits i) (encode i).toNat = some i

/-- Each legal word has one meaning: its instruction encodes to exactly that word, and is a command (R71, R80). -/
def Obligations.EncodeOfDecodeIsTheWord : Prop :=
  ∀ (w : Word) (i : Instr), decodeWord w = .ok i → i.WellFormed ∧ encode i = w

/-- A word is illegal exactly in the cases (a) to (d) of R73, told on the word as a number, and completes with RESULT,
ERR_ILLEGAL and BUSY written and nothing else changed but the time (R73, R137, R162). The model's choices:
`T_INTERNAL` is added once, at completion (log 9); a completion that comes later keeps its instant (log 28); the
hidden `cmd_latch` keeps its word after completion, here and in every statement below (log 12). -/
def Obligations.IllegalWordsAndTheirEffect : Prop :=
  (∀ w : Word,
    (∃ r, decodeWord w = .error r) ↔
      let op := w.toNat % 32
      let f0 := w.toNat / 32 % 2
      let imm8 := w.toNat / 256 % 256
      let imm16 := w.toNat / 65536
      (op = 0x00 ∨ (0x0A ≤ op ∧ op ≤ 0x0F) ∨ (0x13 ≤ op ∧ op ≤ 0x17) ∨ op = 0x1F) ∨
        w.toNat / 64 % 4 ≠ 0 ∨
        (f0 ≠ 0 ∧ op ≠ 0x02 ∧ op ≠ 0x11 ∧ op ≠ 0x1A ∧ op ≠ 0x1C) ∨
        (imm8 ≠ 0 ∧ op ≠ 0x04 ∧ op ≠ 0x19 ∧ op ≠ 0x1B) ∨
        (imm16 ≠ 0 ∧ op ≠ 0x1A) ∨
        (op = 0x1A ∧ f0 = 1 ∧ imm16 ≠ 0)) ∧
    ∀ (s : State) (r : Illegal), decodeWord s.cmdLatch = .error r →
      complete s = .next { completed .illegal (quietWire s) s with errIllegal := true }

/-- The words of R81 and R72 for every command form, with operands where the form has one, and the five wire bytes of
R78, decode to what they stand for; two illegal words are refused (a sanity check). -/
def Obligations.SampleWordsDecode : Prop :=
  decodeWord 0x00000001 = .ok .reset ∧ decodeWord 0x00000002 = .ok (.wbit false) ∧
    decodeWord 0x00000022 = .ok (.wbit true) ∧ decodeWord 0x00000003 = .ok .rbit ∧
    decodeWord 0x0000A504 = .ok (.w8 0xA5) ∧ decodeWord 0x00000005 = .ok .r8 ∧ decodeWord 0x00000006 = .ok .w64 ∧
    decodeWord 0x00000007 = .ok .r64 ∧ decodeWord 0x00000008 = .ok .select ∧ decodeWord 0x00000009 = .ok .skip ∧
    decodeWord 0x00000010 = .ok .srst ∧ decodeWord 0x00000011 = .ok .srch ∧ decodeWord 0x00000031 = .ok .srchA ∧
    decodeWord 0x00000012 = .ok .ssel ∧ decodeWord 0x00000018 = .ok .c8i ∧ decodeWord 0x0000FF19 = .ok (.c8b 0xFF) ∧
    decodeWord 0x1234001A = .ok (.c16i 0x1234) ∧ decodeWord 0x0000003A = .ok .c16iRefin ∧
    decodeWord 0x0000011B = .ok (.c16b 0x01) ∧ decodeWord 0x0000001C = .ok .c16f ∧
    decodeWord 0x0000003C = .ok .c16fRefout ∧ decodeWord 0x0000001D = .ok .c8d ∧ decodeWord 0x0000001E = .ok .c16d ∧
    decodeTableWord 8 0xF0 = some .romSearch ∧ decodeTableWord 8 0xEC = some .romAlarmSearch ∧
    decodeTableWord 8 0x55 = some .romMatch ∧ decodeTableWord 8 0xCC = some .romSkip ∧
    decodeTableWord 8 0x33 = some .romRead ∧
    decodeWord 0x0001003A = .error .seedWithReflectIn ∧ decodeWord 0x00000042 = .error .reservedBits

/-- The assembler rejects a line whose immediate is missing, superfluous or too wide, and gives every other line a
word that decodes to the command the line names; `W8`, `C8B`, `C16B` and `C16I` place the immediate as R81 says. -/
def Obligations.AssemblerGivesTheWordOfTheLine : Prop :=
  (∀ l : AsmLine, l.wellFormed = false → assemble l = none) ∧
    (∀ l : AsmLine, l.wellFormed = true →
      ∃ w, assemble l = some w ∧ decodeWord w = .ok (asmInstr l.name (l.imm.getD 0))) ∧
    (∀ b, b ≤ 0xFF →
      assemble ⟨.W8, some b⟩ = some (BitVec.ofNat 32 (0x04 + b * 256)) ∧
        assemble ⟨.C8B, some b⟩ = some (BitVec.ofNat 32 (0x19 + b * 256)) ∧
        assemble ⟨.C16B, some b⟩ = some (BitVec.ofNat 32 (0x1B + b * 256))) ∧
    ∀ x, x ≤ 0xFFFF → assemble ⟨.C16I, some x⟩ = some (BitVec.ofNat 32 (0x1A + x * 65536))

/-! ### Steps and agents -/

/-- When the latched word decodes to an instruction and completion is next (no turn left, or a `complete` turn), the
step is that instruction's meaning, with the turn taken off the agenda; an issued table word is run by the very next
step (R14, R35, R148; the agenda is the model's, log 2, and a wire ROM command byte is issued as `W8 #byte`, log 11). -/
def Obligations.StepRunsTheLatchedCommand : Prop :=
  (∀ (s : State) (i : Instr), s.busy = true → decodeWord s.cmdLatch = .ok i →
    (s.agenda = [] → step s = exec i s) ∧
      ∀ rest, s.agenda = .complete :: rest → step s = exec i { s with agenda := rest }) ∧
    (∀ (s : State) (w : Word) (i : Instr), decodeWord w = .ok i →
      step (s.withFetchWord 32 w.toNat) = exec i { s.withFetchWord 32 w.toNat with agenda := s.agenda }) ∧
    ∀ (s : State) (b : Byte) (i : Instr), decodeRomByte b = some i →
      step (s.withFetchWord 8 b.toNat) = exec i { s.withFetchWord 8 b.toNat with agenda := s.agenda }

/-- A step is refused exactly where the next turn is a host access that is not 4 bytes wide at a multiple of 4 (R41);
no step stops otherwise, since a fault does not exist (R134). -/
def Obligations.OnlyABadHostAccessIsRefused : Prop :=
  ∀ s : State,
    ((∃ r, step s = .refused r) ↔
      ∃ (off : BitVec 6) (width : AccessWidth) (rest : List Turn),
        (width ≠ .four ∨ off.toNat % 4 ≠ 0) ∧
          (s.agenda = .hostRead off width :: rest ∨ ∃ v, s.agenda = .hostWrite off width v :: rest)) ∧
      ((¬ ∃ r, step s = .refused r) → ∃ t, step s = .next t)

/-- What reset leaves: State.reset, and the state after a block reset in any state, read as R36 gives them. -/
def Obligations.BlockResetSetsEveryRegister : Prop :=
  ∀ s t : State, (t = State.reset ∨ takeTurn .blockReset s = .next t) →
    readReg .status t = 0 ∧ t.data = 0 ∧ t.rom = 0 ∧ readReg .cursor t = 0 ∧ readReg .crc t = 0 ∧
      readReg .crc16Poly t = 0x0000A001 ∧ readReg .crc16Out t = 0 ∧ t.lastZero = 0 ∧ t.seq = .idle ∧
      t.cmdLatch = 0 ∧ t.wire.dqLow = false ∧ t.result = .ok ∧ t.sstate = .idle

/-- The invariant holds right after reset. -/
def Obligations.ResetMeetsTheInvariant : Prop := GoodState State.reset

/-- Every step from a state that meets the invariant leads to one that does, with the same timing parameters (R3, R24, R25, R26, R31, R33, R51, R119, R120,
R128). -/
def Obligations.EveryStepKeepsTheInvariant : Prop :=
  ∀ s t : State, GoodState s → step s = .next t → GoodState t ∧ t.timing = s.timing

/-- A block reset abandons the running command with nothing committed and no register kept, and releases the line. With
`evs` the events the command would have made, the trace it leaves holds exactly those that were in the trace by this
instant, then the truncated event where a slot or a reset pulse was under way; a low phase ends at this instant. Where no
event was cut the environment is where the whole events left it; on the reference bus the devices on the line and a stuck
line are the same ones in any case. An illegal word, and an idle block, leave the trace, the waveform and the environment
as they were. The timebase does not move (R10, R38, R151, R152; what a truncated event does to a device is a free value,
log 15; which events count at one instant is log 14, that time counts from the issue is log 1). -/
def Obligations.BlockResetAbandonsTheCommand : Prop :=
  ∀ (s : State) (rest : List Turn), s.agenda = .blockReset :: rest →
    ∃ w, step s = .next { State.reset with
        wire := w, timing := s.timing, agenda := rest, hostReads := s.hostReads } ∧
      w.dqLow = false ∧ w.now = s.instant ∧
      ((s.seq = .idle ∨ ∃ r, decodeWord s.cmdLatch = .error r) →
        w.trace = s.wire.trace ∧ w.wave = s.wire.wave ∧ w.env = s.wire.env) ∧
      ∀ i u evs, s.seq ≠ .idle → decodeWord s.cmdLatch = .ok i → exec i s = .next u →
        evs = u.wire.trace.drop s.wire.trace.length →
        ∃ n cut, ShownAt s.timing evs (s.instant - s.wire.now) n ∧
          (∀ ev, evs[n]? = some ev →
            cut = if wireTime s.timing (evs.take n) ≤ s.instant - s.wire.now then cutOf ev else []) ∧
          (evs[n]? = none → cut = []) ∧
          w.trace = s.wire.trace ++ evs.take n ++ cut ∧
          (s.timing.Valid → drivenLow s.timing evs (s.instant - s.wire.now) = true →
            w.wave.getLast? = some (.release s.instant)) ∧
          (cut = [] → w.env = s.wire.env.afterAll (evs.take n)) ∧
          ∀ b, s.wire.env = .bus b → ∃ b', w.env = .bus b' ∧ b'.stuckLow = b.stuckLow ∧
            b'.devices.map (fun d => (d.rom, d.alerting)) = b.devices.map fun d => (d.rom, d.alerting)

/-! ### The register window -/

/-- The side effects of host writes while BUSY = 0, register by register (R44): every other field keeps its value. A write
to CMD issues: of the line it may change the pin alone, and SSTATE, both as the statement on CMD says. -/
def Obligations.HostWritesWhileIdle : Prop :=
  ∀ (s : State) (v : Word) (rest : List Turn), s.busy = false →
    (s.agenda = st .cmd v :: rest →
      ∃ ss low, step s = .next (issuedState v ss low { s with agenda := rest })) ∧
    (s.agenda = st .status v :: rest →
      ∃ a b, step s = .next { s with agenda := rest, errIllegal := a, errOverrun := b } ∧
        readReg .status { s with errIllegal := a, errOverrun := b } = readReg .status s &&& ~~~(v &&& 0x00000300)) ∧
    (s.agenda = st .dataLo v :: rest →
      ∃ d, step s = .next { s with agenda := rest, data := d } ∧ d.extractLsb' 0 32 = v ∧
        d.extractLsb' 32 32 = s.data.extractLsb' 32 32) ∧
    (s.agenda = st .dataHi v :: rest →
      ∃ d, step s = .next { s with agenda := rest, data := d } ∧ d.extractLsb' 32 32 = v ∧
        d.extractLsb' 0 32 = s.data.extractLsb' 0 32) ∧
    (s.agenda = st .crc16Poly v :: rest →
      ∃ p, step s = .next { s with agenda := rest, crc16Poly := p } ∧ p.toNat = v.toNat % 65536) ∧
    ∀ r, r = .romLo ∨ r = .romHi ∨ r = .cursor ∨ r = .crc ∨ r = .crc16Out →
      s.agenda = st r v :: rest → step s = .next { s with agenda := rest }

/-- While BUSY = 1 a write to CMD, DATA_LO, DATA_HI or CRC16_POLY is dropped and sets ERR_OVERRUN, a write to STATUS
clears as always, and every other write is ignored (R45). -/
def Obligations.HostWritesWhileBusy : Prop :=
  ∀ (s : State) (v : Word) (rest : List Turn), s.busy = true →
    (∀ r, r = .cmd ∨ r = .dataLo ∨ r = .dataHi ∨ r = .crc16Poly → s.agenda = st r v :: rest →
      step s = .next { s with agenda := rest, errOverrun := true }) ∧
    (s.agenda = st .status v :: rest →
      ∃ a b, step s = .next { s with agenda := rest, errIllegal := a, errOverrun := b } ∧
        readReg .status { s with errIllegal := a, errOverrun := b } = readReg .status s &&& ~~~(v &&& 0x00000300)) ∧
    ∀ r, r = .romLo ∨ r = .romHi ∨ r = .cursor ∨ r = .crc ∨ r = .crc16Out ∨ r = .reserved →
      s.agenda = st r v :: rest → step s = .next { s with agenda := rest }

/-- No register read has a side effect: a host read at any offset leaves every field of the block and the line and
hands the host one value (R43): 0 for CMD (R14), and at each offset of the register map (R40) the word of that register,
which is also the register `ld` and `st` name. -/
def Obligations.HostReadsHaveNoSideEffect : Prop :=
  (∀ (s : State) (off : BitVec 6) (rest : List Turn), off.toNat % 4 = 0 →
    s.agenda = .hostRead off .four :: rest →
      ∃ v, step s = .next { s with agenda := rest, hostReads := s.hostReads ++ [v] } ∧ (off = 0 → v = 0)) ∧
    ∀ (s : State) (rest : List Turn) (off : BitVec 6) (r : Reg),
      (off, r) ∈ [((0x00 : BitVec 6), Reg.cmd), (0x04, .status), (0x08, .dataLo), (0x0C, .dataHi), (0x10, .romLo),
        (0x14, .romHi), (0x18, .cursor), (0x1C, .crc), (0x20, .crc16Poly), (0x24, .crc16Out)] →
      ld r = .hostRead off .four ∧ (∀ v, st r v = .hostWrite off .four v) ∧
        (s.agenda = .hostRead off .four :: rest →
          step s = .next { s with agenda := rest, hostReads := s.hostReads ++ [readReg r s] })

/-- A reserved offset reads 0, and a write to it changes nothing and sets no flag, busy or not (R42). -/
def Obligations.ReservedOffsets : Prop :=
  ∀ (s : State) (off : BitVec 6) (rest : List Turn), 0x28 ≤ off.toNat → off.toNat % 4 = 0 →
    (s.agenda = .hostRead off .four :: rest →
      step s = .next { s with agenda := rest, hostReads := s.hostReads ++ [0] }) ∧
    ∀ v, s.agenda = .hostWrite off .four v :: rest → step s = .next { s with agenda := rest }

/-- The words a host reads, bit by bit: every field in its place and every reserved bit 0, in every state, with the
numbers of the result codes and of the search states (R15 to R30, R21, R26, R135); `ld` of each register gives its word
by the statement on host reads. -/
def Obligations.RegisterWordsBitByBit : Prop :=
  (ResultCode.code .ok = 0 ∧ ResultCode.code .busStuck = 1 ∧ ResultCode.code .noPresence = 2 ∧
    ResultCode.code .searchNoResponse = 3 ∧ ResultCode.code .searchZeroFamily = 4 ∧ ResultCode.code .searchEnd = 5 ∧
    ResultCode.code .illegal = 6) ∧
  (SState.code .idle = 0 ∧ SState.code .searching = 1 ∧ SState.code .found = 2 ∧ SState.code .exhausted = 3) ∧
  ∀ s : State,
    readReg .cmd s = 0 ∧
    (∀ k, (readReg .status s).getLsbD k =
      if k = 0 then s.busy else if k = 1 then s.presence else if k = 2 then s.found
      else if 4 ≤ k ∧ k ≤ 7 then s.result.code.getLsbD (k - 4)
      else if k = 8 then s.errIllegal else if k = 9 then s.errOverrun else false) ∧
    (∀ k, (readReg .cursor s).getLsbD k =
      if k ≤ 6 then s.lastDisc.getLsbD k else if k = 8 then s.lastDev
      else if 12 ≤ k ∧ k ≤ 13 then s.sstate.code.getLsbD (k - 12) else false) ∧
    (∀ k, (readReg .crc s).getLsbD k =
      if k ≤ 7 then s.crc8.getLsbD k else if 16 ≤ k then s.crc16.getLsbD (k - 16) else false) ∧
    (readReg .crc16Poly s).toNat = s.crc16Poly.toNat ∧ (readReg .crc16Out s).toNat = s.crc16Out.toNat ∧
    rddataValue (readReg .dataLo s) (readReg .dataHi s) = s.data ∧
    rddataValue (readReg .romLo s) (readReg .romHi s) = s.rom

/-- CMD: when the block is not busy, a write stores the word, sets BUSY and starts the command the word encodes, whose time
on the line begins at this instant and which the next completion runs; SSTATE becomes SEARCHING for a search command and
is kept for any other word; the pin is low at once where the command's first event is driven low from its start; every
other field is as it was. A read returns 0 with no effect (R14; the pin and the time at the issue as in R8 and R47, and
log 1, log 9, log 14). -/
def Obligations.CmdWriteIssuesTheCommand : Prop :=
  (∀ (s : State) (w : Word) (rest : List Turn), s.busy = false → s.agenda = st .cmd w :: rest →
    ∃ ss low, step s = .next (issuedState w ss low { s with agenda := rest }) ∧
      (∀ i, decodeWord w = .ok i →
        step { issuedState w ss low s with agenda := [] } = exec i { issuedState w ss low s with agenda := [] } ∧
        (IsSearch i → ss = .searching) ∧ (¬ IsSearch i → ss = s.sstate) ∧
        ∀ u, s.timing.Valid → exec i s = .next u →
          low = drivenLow s.timing (u.wire.trace.drop s.wire.trace.length) 0) ∧
      ∀ r, decodeWord w = .error r → ss = s.sstate ∧ low = false) ∧
    ∀ (s : State) (rest : List Turn), s.agenda = ld .cmd :: rest →
      step s = .next { s with agenda := rest, hostReads := s.hostReads ++ [0] }

/-- While a command stays busy no step changes a result field, an operand, the latched word, SSTATE or the line's
history, and ERR_ILLEGAL does not rise: results become visible only at completion (R35, R46, R47, R158). -/
def Obligations.NothingIsVisibleBeforeCompletion : Prop :=
  ∀ s t : State, s.busy = true → step s = .next t → t.busy = true →
    SameResults s t ∧ t.cmdLatch = s.cmdLatch ∧ t.sstate = s.sstate ∧ (s.errIllegal = false → t.errIllegal = false)

/-- BUSY rises only by a 32-bit host write to CMD, which changes no result field (R15, R66, R150). -/
def Obligations.OnlyACmdWriteStartsACommand : Prop :=
  ∀ s t : State, s.busy = false → step s = .next t → t.busy = true →
    ∃ w rest, s.agenda = .hostWrite 0 .four w :: rest ∧ t.cmdLatch = w ∧ SameResults s t

/-- ERR_ILLEGAL is set exactly when an illegal command completes, ERR_OVERRUN exactly when a write is dropped, and each
is cleared only by a host write of 1 to its bit or a block reset (R19, R20). -/
def Obligations.ErrorFlagsAreSticky : Prop :=
  ∀ s t : State, step s = .next t →
    (s.errIllegal = false → t.errIllegal = true →
      s.busy = true ∧ t.busy = false ∧ ∃ r, decodeWord s.cmdLatch = .error r) ∧
    (∀ r, s.busy = true → decodeWord s.cmdLatch = .error r → t.busy = false →
      (∃ rest, s.agenda = .blockReset :: rest) ∨ t.errIllegal = true) ∧
    (s.errIllegal = true → t.errIllegal = false →
      (∃ rest, s.agenda = .blockReset :: rest) ∨
        ∃ v rest, s.agenda = st .status v :: rest ∧ v.getLsbD 8 = true) ∧
    (s.errOverrun = false →
      (t.errOverrun = true ↔ s.busy = true ∧
        ∃ r v rest, (r = .cmd ∨ r = .dataLo ∨ r = .dataHi ∨ r = .crc16Poly) ∧ s.agenda = st r v :: rest)) ∧
    (s.errOverrun = true → t.errOverrun = false →
      (∃ rest, s.agenda = .blockReset :: rest) ∨
        ∃ v rest, s.agenda = st .status v :: rest ∧ v.getLsbD 9 = true)

/-- A host write while a command runs moves nothing of the command: its completion is the same, but for ERR_OVERRUN, which
a dropped write sets; a write to STATUS clears the flags whose bits are 1, and leaves the completion the same but for
them, where an illegal word sets ERR_ILLEGAL again (R45, R95, R138). -/
def Obligations.HostWritesDoNotDisturbACommand : Prop :=
  ∀ (s : State) (v : Word) (t : State), s.busy = true → complete s = .next t →
    (∀ r, r ≠ Reg.status → complete (writeReg r v s) =
      .next { t with
        errOverrun := t.errOverrun || decide (r = .cmd ∨ r = .dataLo ∨ r = .dataHi ∨ r = .crc16Poly) }) ∧
    (∀ i, decodeWord s.cmdLatch = .ok i → complete (writeReg .status v s) =
      .next { t with
        errIllegal := t.errIllegal && !v.getLsbD 8
        errOverrun := t.errOverrun && !v.getLsbD 9 }) ∧
    ∀ r, decodeWord s.cmdLatch = .error r → t.errIllegal = true ∧ complete (writeReg .status v s) =
      .next { t with errOverrun := t.errOverrun && !v.getLsbD 9 }

/-- An idle block with no turn to take stays as it is, and a gap of any length between commands moves the timebase
alone (R94, R146). -/
def Obligations.AnIdleBlockKeepsItsState : Prop :=
  ∀ s : State, s.busy = false → s.seq = .idle →
    (s.agenda = [] → step s = .next s) ∧
      ∀ t rest, s.agenda = .elapse t :: rest →
        step s = .next { s with agenda := rest, wire := { s.wire with now := s.wire.now + t } }

/-- The line is live while `WBIT` runs: after `n` more microseconds it is low exactly while less than `T_LOW0` (bit 0) or
`T_LOW1` (bit 1) have passed since the issue (R8, R47, R84, R91). That the time is counted from the issue in `seq` is log
1, that all of `T_INTERNAL` comes after the slot is log 9, that a level holds at the instant of its mark is log 14: the
model's choices. -/
def Obligations.TheLineIsLiveDuringAWriteSlot : Prop :=
  ∀ (s : State) (b : Bool) (e n : Nat) (rest : List Turn), s.busy = true → s.seq = .running (s.wire.now + e) →
    decodeWord s.cmdLatch = .ok (.wbit b) → s.agenda = .elapse n :: rest →
      ∃ t, step s = .next t ∧ t.busy = true ∧ t.seq = .running (s.wire.now + e + n) ∧ SameResults s t ∧
        (t.wire.dqLow = true ↔ e + n < if b then s.timing.tLow1 else s.timing.tLow0)

/-! ### Transport -/

/-- `WBIT b`: one write slot, low for the first `T_LOW0` (b = 0) or `T_LOW1` (b = 1) microseconds; RESULT is OK, and
nothing else changes (R91). The model's choices: `T_INTERNAL` is added once, at completion (log 9), a completion that
comes later keeps its instant (log 28), and the hidden `cmd_latch` keeps its word (log 12). -/
def Obligations.WbitWritesOneBit : Prop :=
  decodeWord 0x00000002 = .ok (.wbit false) ∧ decodeWord 0x00000022 = .ok (.wbit true) ∧
    ∀ (b : Bool) (s : State),
      ∃ w, exec (.wbit b) s = .next (completed .ok w s) ∧ WireAfter s [.write b] w ∧
        w.wave = s.wire.wave ++
          [.low s.wire.now, .release (s.wire.now + if b then s.timing.tLow1 else s.timing.tLow0)]

/-- `RBIT`: one read slot, low for `T_RDLOW` and sampled at `T_RDS`; DATA is the zero-extended sample (R92). The
model's choices: `T_INTERNAL` is added once, at completion (log 9), a completion that comes later keeps its instant
(log 28), and the hidden `cmd_latch` keeps its word (log 12). -/
def Obligations.RbitReadsOneBit : Prop :=
  decodeWord 0x00000003 = .ok .rbit ∧
    ∀ s : State, ∃ w v, exec .rbit s = .next { completed .ok w s with data := if v then 1 else 0 } ∧
      v = s.wire.env.answer .slot ∧ WireAfter s [.read v] w ∧
      (s.timing.Valid → w.wave = s.wire.wave ++
        [.low s.wire.now, .release (s.wire.now + s.timing.tRdlow), .sample (s.wire.now + s.timing.tRds) v])

/-- `RESET`: either all `N_IDLE_POLLS` polls read 0, no pulse is driven and RESULT is BUS_STUCK, or the first poll to
read 1 ends the wait and the presence sample gives PRESENCE and OK or NO_PRESENCE; nothing else changes (R87, R88,
R89, R90). The model's choices: `T_INTERNAL` is added once, at completion (log 9), a completion that comes later keeps
its instant (log 28), and the hidden `cmd_latch` keeps its word (log 12). -/
def Obligations.ResetDetectsPresence : Prop :=
  decodeWord 0x00000001 = .ok .reset ∧
    ∀ s : State, ∃ w,
      (exec .reset s = .next { completed .busStuck w s with presence := false } ∧
        WireAfter s (stuckEvents s.timing) w) ∨
      ∃ k p, k < s.timing.nIdlePolls ∧
        exec .reset s = .next { completed (if p then .noPresence else .ok) w s with presence := !p } ∧
        WireAfter s (resetEvents k p) w

/-- `RESET` on given draws: `k` zeros then a 1 and the presence sample, or `N_IDLE_POLLS` zeros (R87, R90). That the
hidden `cmd_latch` keeps its word is the model's choice (log 12). -/
def Obligations.ResetOnDraws : Prop :=
  (∀ (s : State) (k : Nat) (p : Bool) (rest : List Bool) (n : Nat), k < s.timing.nIdlePolls →
    s.wire.env = .draws (List.replicate k false ++ true :: p :: rest) n →
      ∃ w, exec .reset s = .next { completed (if p then .noPresence else .ok) w s with presence := !p } ∧
        w.trace = s.wire.trace ++ resetEvents k p ∧ w.env = .draws rest (n + k + 2)) ∧
    ∀ (s : State) (rest : List Bool) (n : Nat), s.wire.env = .draws (List.replicate s.timing.nIdlePolls false ++ rest) n →
      ∃ w, exec .reset s = .next { completed .busStuck w s with presence := false } ∧
        w.trace = s.wire.trace ++ stuckEvents s.timing ∧ w.env = .draws rest (n + s.timing.nIdlePolls)

/-- `RESET` on the reference bus: a stuck line is reported and moves no device; otherwise every device is sent to
`Cmd(0, 0)`, and PRESENCE says whether there is one (R56, R57, R90). The model's choices: `T_INTERNAL` is added once,
at completion (log 9), a completion that comes later keeps its instant (log 28), and the hidden `cmd_latch` keeps its
word (log 12). -/
def Obligations.ResetOnTheReferenceBus : Prop :=
  ∀ (s : State) (ds : List Device),
    (s.wire.env = .bus ⟨ds, true⟩ →
      ∃ w, exec .reset s = .next { completed .busStuck w s with presence := false } ∧
        w.trace = s.wire.trace ++ stuckEvents s.timing ∧ w.env = .bus ⟨ds, true⟩) ∧
    (1 ≤ s.timing.nIdlePolls → s.wire.env = .bus ⟨ds, false⟩ →
      ∃ w, exec .reset s = .next { completed (if ds = [] then .noPresence else .ok) w s with
          presence := decide (ds ≠ []) } ∧
        WireAfter s [.poll true, .rst (decide (ds = []))] w ∧
        w.env = .bus ⟨ds.map fun d => { d with st := .cmd 0 0 }, false⟩)

/-- The slot waveforms for every parameter set that meets the constraints of R3, and that the defaults meet them: a
write slot is low for exactly `T_LOW1` or `T_LOW0`, a read slot for `T_RDLOW` and sampled at `T_RDS`, and a slot takes
`T_SLOT + T_REC` (R84, R85, R86). -/
def Obligations.SlotWaveforms : Prop :=
  Timing.nominal.Valid ∧ ∀ p : Timing, p.Valid → ∀ w : Wire,
    (∀ b, (writeSlot p b w).now = w.now + p.tSlot + p.tRec ∧ (writeSlot p b w).dqLow = false ∧
      (writeSlot p b w).trace = w.trace ++ [.write b] ∧
      (writeSlot p b w).wave = w.wave ++ [.low w.now, .release (w.now + if b then p.tLow1 else p.tLow0)]) ∧
    (readSlot p w).1 = w.env.answer .slot ∧ (readSlot p w).2.now = w.now + p.tSlot + p.tRec ∧
    (readSlot p w).2.dqLow = false ∧ (readSlot p w).2.trace = w.trace ++ [.read (w.env.answer .slot)] ∧
    (readSlot p w).2.wave = w.wave ++
      [.low w.now, .release (w.now + p.tRdlow), .sample (w.now + p.tRds) (w.env.answer .slot)]

/-- The reset pulse for every parameter set: low for `T_RSTL`, sampled `T_PDS` after the release, then `T_RSTREC` of
recovery (R88). -/
def Obligations.ResetPulseWaveform : Prop :=
  ∀ (p : Timing) (w : Wire),
    (resetPulse p w).1 = w.env.answer .presence ∧ (resetPulse p w).2.dqLow = false ∧
    (resetPulse p w).2.now = w.now + p.tRstl + p.tPds + p.tRstrec ∧
    (resetPulse p w).2.trace = w.trace ++ [.rst (w.env.answer .presence)] ∧
    (resetPulse p w).2.wave = w.wave ++
      [.low w.now, .release (w.now + p.tRstl),
        .sample (w.now + p.tRstl + p.tPds) (w.env.answer .presence)]

/-! ### Codec and wire bytes -/

/-- `W8`, `W64`, `SELECT` and `SKIP` send their bits least significant bit first, one write slot each, report OK and
change nothing else: no bus reset, DATA unchanged (R49, R97, R99, R101, R103, R104). The model's choices: `T_INTERNAL`
is added once, at completion (log 9), a completion that comes later keeps its instant (log 28), and the hidden
`cmd_latch` keeps its word (log 12). -/
def Obligations.CodecWritesAreLsbFirst : Prop :=
  ∀ s : State,
    (∀ b : Byte, Sends (.w8 b) [b.getLsbD 0, b.getLsbD 1, b.getLsbD 2, b.getLsbD 3, b.getLsbD 4, b.getLsbD 5,
      b.getLsbD 6, b.getLsbD 7] s) ∧
    Sends .w64 ((List.range 64).map fun k => s.data.getLsbD k) s ∧
    Sends .select ([true, false, true, false, true, false, true, false] ++
      (List.range 64).map fun k => s.data.getLsbD k) s ∧
    Sends .skip [false, false, true, true, false, false, true, true] s

/-- Each wire ROM command byte is the 8 write slots R79 lists for it, reported OK as the `W8 #b` that carries it (R78,
R79; that a byte by itself runs as `W8 #b` is the model's choice, log 11). The model's choices: `T_INTERNAL` is added
once, at completion (log 9), a completion that comes later keeps its instant (log 28), and the hidden `cmd_latch`
keeps its word (log 12). -/
def Obligations.RomCommandBytesOnTheWire : Prop :=
  ∀ s : State,
    Sends .romSearch [false, false, false, false, true, true, true, true] s ∧
    Sends .romAlarmSearch [false, false, true, true, false, true, true, true] s ∧
    Sends .romMatch [true, false, true, false, true, false, true, false] s ∧
    Sends .romSkip [false, false, true, true, false, false, true, true] s ∧
    Sends .romRead [true, true, false, false, true, true, false, false] s

/-- How the devices of the reference bus take a byte as the first byte after a bus reset: the five ROM command bytes as
R59 says, any other byte with `Off` (R57, R58, R59). The ROM command bytes run as the rows of the opcode table, which is
the model's choice (log 11), and as `W8` with the same byte. -/
def Obligations.DevicesTakeTheRomCommand : Prop :=
  ∀ (s : State) (ds : List Device), s.timing.Valid → s.wire.env = .bus ⟨ds, false⟩ →
    (∀ i b (after : Device → DeviceState),
      (i = .romSearch ∧ b = 0xF0 ∧ after = (fun _ => .search 0 .bit)) ∨
      (i = .romAlarmSearch ∧ b = 0xEC ∧ after = (fun d => if d.alerting then .search 0 .bit else .off)) ∨
      (i = .romMatch ∧ b = 0x55 ∧ after = (fun _ => .matching 0)) ∨
      (i = .romSkip ∧ b = 0xCC ∧ after = (fun _ => .func 0 0)) ∨
      (i = .romRead ∧ b = 0x33 ∧ after = (fun _ => .readRom 0)) →
      ∃ t, execAll [.reset, i] s = .next t ∧ execAll [.reset, .w8 b] s = .next t ∧
        t.wire.env = .bus ⟨ds.map fun d => { d with st := after d }, false⟩) ∧
    ∀ b : Byte, b ≠ 0xF0 → b ≠ 0xEC → b ≠ 0x55 → b ≠ 0xCC → b ≠ 0x33 →
      ∃ t, execAll [.reset, .w8 b] s = .next t ∧
        t.wire.env = .bus ⟨ds.map fun d => { d with st := .off }, false⟩

/-- `R8` and `R64` (and `RBIT`) fill DATA from the read slots, the first into bit 0, zero-extended; each bit is the
sample of its slot, and nothing else changes (R49, R92, R98, R100, R102). The model's choices: `T_INTERNAL` is added
once, at completion (log 9), a completion that comes later keeps its instant (log 28), and the hidden `cmd_latch`
keeps its word (log 12). -/
def Obligations.CodecReadsFillData : Prop :=
  ∀ s : State, ReadsInto .rbit 1 s ∧ ReadsInto .r8 8 s ∧ ReadsInto .r64 64 s

/-- With nothing driving the line every read bit is 1, with the line stuck low every read bit is 0 (R92, R100, R102). -/
def Obligations.ReadsOfAnEmptyOrStuckBus : Prop :=
  ∀ (s : State) (ds : List Device),
    (s.wire.env = .bus ⟨[], false⟩ →
      (∃ t, exec .rbit s = .next t ∧ t.data = 1) ∧ (∃ t, exec .r8 s = .next t ∧ t.data = 0xFF) ∧
        ∃ t, exec .r64 s = .next t ∧ t.data = 0xFFFFFFFFFFFFFFFF) ∧
    (s.wire.env = .bus ⟨ds, true⟩ →
      (∃ t, exec .rbit s = .next t ∧ t.data = 0) ∧ (∃ t, exec .r8 s = .next t ∧ t.data = 0) ∧
        ∃ t, exec .r64 s = .next t ∧ t.data = 0)

/-- READROM after a bus reset: each bit of DATA is the AND of that bit of all addresses on the bus, so one device's
address is read whole (R62, R64, R83). -/
def Obligations.ReadRomReadsTheAndOfAddresses : Prop :=
  ∀ (s : State) (ds : List Device), s.timing.Valid → s.wire.env = .bus ⟨ds, false⟩ →
    ∃ t, execAll [.reset, .w8 0x33, .r64] s = .next t ∧
      (∀ k, k < 64 → t.data.getLsbD k = ds.all fun d => d.rom.getLsbD k) ∧
      ∀ d, ds = [d] → t.data = d.rom

/-- After a bus reset, `SELECT` leaves exactly the devices whose address is DATA in their function phase and switches
all others off (R61, R65, R103). -/
def Obligations.SelectAddressesOneDevice : Prop :=
  ∀ (s : State) (ds : List Device), s.timing.Valid → s.wire.env = .bus ⟨ds, false⟩ →
    ∃ t, execAll [.reset, .select] s = .next t ∧ t.result = .ok ∧
      t.wire.env = .bus ⟨ds.map fun d => { d with st := if d.rom = s.data then .func 0 0 else .off }, false⟩

/-! ### CRC engines -/

/-- `C8I`, `C8B`, `C8D`: CRC8 is started at 0, or folds IMM8 or DATA[7:0]; no wire activity, and nothing else changes
(R111, R112, R113). The model's choices: `T_INTERNAL` is added once, at completion (log 9), a completion that comes
later keeps its instant (log 28), and the hidden `cmd_latch` keeps its word (log 12). -/
def Obligations.CrcEightCommands : Prop :=
  decodeWord 0x00000018 = .ok .c8i ∧ decodeWord 0x0000001D = .ok .c8d ∧
    (∀ b : Byte, decodeWord (0x00000019 ||| (b.setWidth 32 <<< 8)) = .ok (.c8b b)) ∧
    ∀ s : State,
      exec .c8i s = .next { completed .ok (quietWire s) s with crc8 := 0 } ∧
      (∀ b, exec (.c8b b) s = .next { completed .ok (quietWire s) s with crc8 := crc8Step s.crc8 b }) ∧
      exec .c8d s = exec (.c8b (BitVec.ofNat 8 (s.data.toNat % 256))) s

/-- `C16I`, `C16I.REFIN`, `C16B`, `C16D`, `C16F`, `C16F.REFOUT`: the running CRC-16 is started or folds a byte with
CRC16_POLY, and finalising writes CRC16_OUT alone; no wire activity, and nothing else changes (R114 to R117). The
model's choices: `T_INTERNAL` is added once, at completion (log 9), a completion that comes later keeps its instant
(log 28), and the hidden `cmd_latch` keeps its word (log 12). -/
def Obligations.CrcSixteenCommands : Prop :=
  ∀ s : State,
    (∀ x, exec (.c16i x) s = .next { completed .ok (quietWire s) s with crc16 := x }) ∧
    exec .c16iRefin s = .next { completed .ok (quietWire s) s with crc16 := 0xFFFF } ∧
    (∀ b, exec (.c16b b) s =
      .next { completed .ok (quietWire s) s with crc16 := crc16Step s.crc16Poly s.crc16 b }) ∧
    exec .c16d s = exec (.c16b (BitVec.ofNat 8 (s.data.toNat % 256))) s ∧
    exec .c16f s = .next { completed .ok (quietWire s) s with crc16Out := s.crc16 } ∧
    exec .c16fRefout s = .next { completed .ok (quietWire s) s with crc16Out := ~~~s.crc16 }

/-- CRC-8 over any bytes and one more is 0 exactly when that byte is the CRC of the others; an address is valid exactly
when the CRC over its 8 bytes is 0 (R70, R107). -/
def Obligations.CrcEightChecksItself : Prop :=
  (∀ (d : List Byte) (c : Byte), crc8 (d ++ [c]) = 0 ↔ c = crc8 d) ∧
    ∀ a : DWord, addressCrc a = 0 ↔
      crc8 [addressByte a 0, addressByte a 1, addressByte a 2, addressByte a 3, addressByte a 4, addressByte a 5,
        addressByte a 6] = addressByte a 7

/-- The standard CRC-16 trailer checks, low byte first, exactly when the plain CRC over data and trailer is 0xB001
(R69, R110). -/
def Obligations.CrcSixteenTrailerResidue : Prop :=
  ∀ (d : List Byte) (lo hi : Byte),
    (crc16 d 0 0xA001 false true = hi ++ lo ↔ crc16 (d ++ [lo, hi]) 0 0xA001 false false = 0xB001) ∧
      crc16 (d ++ crc16Trailer (crc16 d 0 0xA001 false true)) 0 0xA001 false false = 0xB001

/-- The streaming commands compute the functions, each byte folded by `C8B #b` or `C16B #b`, or by `C8D` or `C16D` after
the host has loaded any value with that low byte into DATA: `C8I` and the bytes leave `crc8` of them; `C16I` or
`C16I.REFIN`, the bytes and `C16F` or `C16F.REFOUT` leave `crc16` of them with the seed, the polynomial in CRC16_POLY and
both flags (R106, R109, R118). -/
def Obligations.StreamingEqualsTheFunction : Prop :=
  ∀ (s : State) (fs : List Feed),
    (∃ s1 t, exec .c8i s = .next s1 ∧ feedAll .c8b .c8d fs s1 = .next t ∧ t.crc8 = crc8 (fs.map Feed.byte)) ∧
    ∀ (start : Instr) (seed : Half) (ri ro : Bool),
      (start = .c16i seed ∧ ri = false) ∨ (start = .c16iRefin ∧ ri = true) →
      ∃ s1 s2 t, exec start s = .next s1 ∧ feedAll .c16b .c16d fs s1 = .next s2 ∧
        exec (if ro then .c16fRefout else .c16f) s2 = .next t ∧
        t.crc16Out = crc16 (fs.map Feed.byte) seed s.crc16Poly ri ro

/-- The table-driven step gives the results of the bit loop, for every polynomial, and so does the table-driven CRC of
any bytes (R118). -/
def Obligations.TableDrivenCrcIsTheSame : Prop :=
  (∀ (poly c : Half) (b : Byte), crc16TableStep poly c b = crc16Step poly c b) ∧
    ∀ (poly c : Half) (bs : List Byte), bs.foldl (crc16TableStep poly) c = bs.foldl (crc16Step poly) c

/-! ### Search engine -/

/-- `SRST` clears the cursor, FOUND and SSTATE, reports OK without wire activity, and changes nothing else; in IDLE,
in a state that meets the invariant, it changes nothing but RESULT and the end of its own command (R129, R162). The
model's choices: `T_INTERNAL` is added once, at completion (log 9), a completion that comes later keeps its instant
(log 28), and the hidden `cmd_latch` keeps its word (log 12). -/
def Obligations.SrstResetsTheSearch : Prop :=
  decodeWord 0x00000010 = .ok .srst ∧
    ∀ s : State, exec .srst s = .next { completed .ok (quietWire s) s with
      lastDisc := 0, lastDev := false, rom := 0, found := false, sstate := .idle } ∧
      (GoodState s → s.sstate = .idle → exec .srst s = .next (completed .ok (quietWire s) s))

/-- Step 0: with LAST_DEV = 1 a search does nothing on the wire, clears the cursor and reports SEARCH_END, with DATA
and PRESENCE unchanged; the cursor it leaves starts a new enumeration (R121, R141, R162). The model's choices:
`T_INTERNAL` is added once, at completion (log 9), a completion that comes later keeps its instant (log 28), and the
hidden `cmd_latch` keeps its word (log 12); the hidden `last_zero` keeps its value where the pass ends before its bit
loop (log 13, deduced). -/
def Obligations.SearchEndAfterTheLastDevice : Prop :=
  ∀ (i : Instr) (s : State), i = .srch ∨ i = .srchA → s.lastDev = true →
    exec i s = .next (noAddressState .searchEnd s.presence s.lastZero (quietWire s) s)

/-- Steps 1 to 5 of every search command, for every answer of the line (R122 to R128, R130, R131): which events are on
the wire, that every branch is the one R125 gives, and what each outcome commits. The model's choices: `T_INTERNAL` is
added once, at completion (log 9), a completion that comes later keeps its instant (log 28), and the hidden
`cmd_latch` keeps its word (log 12); the hidden `last_zero` keeps its value where the pass ends before its bit loop
(log 13, deduced). -/
def Obligations.SearchPassOutcomes : Prop :=
  ∀ (i : Instr) (s : State), IsSearch i → (passStart i s).lastDev = false →
    ∃ w,
      (WireAfter s (stuckEvents s.timing) w ∧
        exec i s = .next (noAddressState .busStuck false s.lastZero w s)) ∨
      (∃ k, k < s.timing.nIdlePolls ∧ WireAfter s (resetEvents k true) w ∧
        exec i s = .next (noAddressState .noPresence false s.lastZero w s)) ∨
      (∃ k xs z, k < s.timing.nIdlePolls ∧ xs.length < 64 ∧
        FollowsRule (passStart i s).lastDisc (passStart i s).rom xs ∧ LastZeroTaken xs z ∧
        WireAfter s
          (resetEvents k false ++ writeEvents (lsbBits (searchByte i)) ++ xs.flatMap positionEvents ++
            [.read true, .read true]) w ∧
        exec i s = .next (noAddressState .searchNoResponse true (BitVec.ofNat 7 z) w s)) ∨
      ∃ k xs z a, k < s.timing.nIdlePolls ∧ xs.length = 64 ∧
        FollowsRule (passStart i s).lastDisc (passStart i s).rom xs ∧ LastZeroTaken xs z ∧
        (∀ n (h : n < xs.length), a.getLsbD n = xs[n].2.2) ∧
        WireAfter s
          (resetEvents k false ++ writeEvents (lsbBits (searchByte i)) ++ xs.flatMap positionEvents) w ∧
        exec i s = .next (if familyByte a = 0 then noAddressState .searchZeroFamily true (BitVec.ofNat 7 z) w s
          else foundState a (BitVec.ofNat 7 z) w s)

/-- On a reference bus where some device answers and every answering address has a non-zero family byte, a search with
LAST_DEV = 0 finds one of the answering addresses, from any cursor (R59, R60, R124 to R128). That the hidden
`cmd_latch` keeps its word is the model's choice (log 12). -/
def Obligations.SearchFindsAnAnsweringDevice : Prop :=
  ∀ (i : Instr) (s : State) (ds : List Device), IsSearch i → s.timing.Valid → (passStart i s).lastDev = false →
    s.wire.env = .bus ⟨ds, false⟩ → answering i ds ≠ [] → (∀ a ∈ answering i ds, familyByte a ≠ 0) →
      ∃ a z w, a ∈ answering i ds ∧ exec i s = .next (foundState a z w s)

/-- Where no device answers: SEARCH_NO_RESPONSE at position 1 on a bus with devices (12 events), NO_PRESENCE on an
empty bus, BUS_STUCK on a stuck line; each clears the cursor and keeps DATA (R122, R124, R130). The model's choices:
`T_INTERNAL` is added once, at completion (log 9), a completion that comes later keeps its instant (log 28), and the
hidden `cmd_latch` keeps its word (log 12); the hidden `last_zero` keeps its value where the pass ends before its bit
loop (log 13, deduced). -/
def Obligations.SearchWithoutAnAnswer : Prop :=
  ∀ (i : Instr) (s : State) (ds : List Device), IsSearch i → s.timing.Valid → (passStart i s).lastDev = false →
    (s.wire.env = .bus ⟨ds, false⟩ → ds ≠ [] → answering i ds = [] →
      ∃ w, exec i s = .next (noAddressState .searchNoResponse true 0 w s) ∧
        WireAfter s
          (resetEvents 0 false ++ writeEvents (lsbBits (searchByte i)) ++ [.read true, .read true]) w) ∧
    (s.wire.env = .bus ⟨[], false⟩ →
      ∃ w, exec i s = .next (noAddressState .noPresence false s.lastZero w s) ∧
        WireAfter s (resetEvents 0 true) w) ∧
    (s.wire.env = .bus ⟨ds, true⟩ →
      ∃ w, exec i s = .next (noAddressState .busStuck false s.lastZero w s) ∧
        WireAfter s (stuckEvents s.timing) w)

/-- From a clear cursor a search finds the first answering address in wire order: branch 0 is always preferred over
branch 1 (R132). That the hidden `cmd_latch` keeps its word is the model's choice (log 12). -/
def Obligations.ClearCursorFindsTheFirstInWireOrder : Prop :=
  ∀ (i : Instr) (s : State) (ds : List Device), i = .srch ∨ i = .srchA → s.timing.Valid → s.lastDev = false →
    s.lastDisc = 0 → s.wire.env = .bus ⟨ds, false⟩ → answering i ds ≠ [] → (∀ a ∈ answering i ds, familyByte a ≠ 0) →
      ∃ a z w, a ∈ answering i ds ∧ exec i s = .next (foundState a z w s) ∧
        ∀ b ∈ answering i ds, b ≠ a → WireOrder a b

/-- Enumeration on an unchanged reference bus of N answering devices with distinct addresses and non-zero family bytes:
`SRST` and N passes report each address exactly once, in wire order; the N-th leaves LAST_DISC = 0 and LAST_DEV = 1; the
next reports SEARCH_END and clears the cursor; and N more report the same list again. With devices but none alerting the
first alarm pass reports SEARCH_NO_RESPONSE (R132, R133). -/
def Obligations.EnumerationFindsEachDeviceOnce : Prop :=
  (∀ (s : State) (ds : List Device), s.timing.Valid → s.wire.env = .bus ⟨ds, false⟩ → ds ≠ [] →
    answering .srchA ds = [] →
    ∃ s1 t, exec .srst s = .next s1 ∧ exec .srchA s1 = .next t ∧ t.result = .searchNoResponse ∧ t.found = false) ∧
  ∀ (i : Instr) (s : State) (ds : List Device), i = .srch ∨ i = .srchA → s.timing.Valid →
    s.wire.env = .bus ⟨ds, false⟩ → answering i ds ≠ [] → (answering i ds).Nodup →
    (∀ a ∈ answering i ds, familyByte a ≠ 0) →
      ∃ s1 l t u, exec .srst s = .next s1 ∧ enumerate i (answering i ds).length s1 = (l, t) ∧
        l.Perm (answering i ds) ∧ l.Pairwise WireOrder ∧ t.lastDisc = 0 ∧ t.lastDev = true ∧
        exec i t = .next u ∧ u.result = .searchEnd ∧ u.found = false ∧ u.lastDisc = 0 ∧ u.lastDev = false ∧
        u.rom = 0 ∧ (enumerate i (answering i ds).length u).1 = l

/-- `SSEL` returns the address in DATA if and only if a device with it is on the bus and alerting, where no alerting
address differs from it in bit 63 alone (two valid addresses never do, R70) and its family byte is not 0 (R131). -/
def Obligations.SselReturnsThePresentAlertingDevice : Prop :=
  ∀ (s : State) (ds : List Device), s.timing.Valid → s.wire.env = .bus ⟨ds, false⟩ → familyByte s.data ≠ 0 →
    (∀ a ∈ answering .ssel ds, (∀ j, j < 63 → a.getLsbD j = s.data.getLsbD j) → a = s.data) →
      ∃ t, exec .ssel s = .next t ∧ ((t.found = true ∧ t.data = s.data) ↔ s.data ∈ answering .ssel ds)

/-! ### All commands -/

/-- Which command writes which register: no command writes CRC16_POLY, the timing parameters, the error flags or
`cmd_latch`; PRESENCE is written only by the commands that run a bus reset, FOUND, SSTATE and the cursor only by the
search commands and `SRST`, DATA only by reads and searches, the CRC registers only by their commands, and the CRC
commands and `SRST` use no wire (R16, R17, R22, R23, R24, R27, R30, R96, R119). The model's choices: `T_INTERNAL` is
added once, at completion (log 9), a completion that comes later keeps its instant (log 28), and the hidden
`cmd_latch` keeps its word (log 12); a command that is no search leaves the hidden `last_zero` (log 13, deduced). -/
def Obligations.WhichCommandWritesWhat : Prop :=
  ∀ (i : Instr) (s t : State), exec i s = .next t →
    t.crc16Poly = s.crc16Poly ∧ t.errIllegal = s.errIllegal ∧ t.errOverrun = s.errOverrun ∧
    t.cmdLatch = s.cmdLatch ∧ t.agenda = s.agenda ∧ t.hostReads = s.hostReads ∧ t.timing = s.timing ∧
    (¬ (i = .reset ∨ IsSearch i) → t.presence = s.presence) ∧
    (¬ (i = .srst ∨ IsSearch i) → t.found = s.found ∧ t.sstate = s.sstate ∧ t.rom = s.rom ∧
      t.lastDisc = s.lastDisc ∧ t.lastDev = s.lastDev) ∧
    (¬ IsSearch i → t.lastZero = s.lastZero) ∧
    (¬ (i = .rbit ∨ i = .r8 ∨ i = .r64 ∨ IsSearch i) → t.data = s.data) ∧
    (¬ (i = .c8i ∨ i = .c8d ∨ ∃ b, i = .c8b b) → t.crc8 = s.crc8) ∧
    (¬ (i = .c16iRefin ∨ i = .c16d ∨ (∃ x, i = .c16i x) ∨ ∃ b, i = .c16b b) → t.crc16 = s.crc16) ∧
    (¬ (i = .c16f ∨ i = .c16fRefout) → t.crc16Out = s.crc16Out) ∧
    ((i = .srst ∨ i = .c8i ∨ i = .c8d ∨ i = .c16iRefin ∨ i = .c16d ∨ i = .c16f ∨ i = .c16fRefout ∨
        (∃ b, i = .c8b b ∨ i = .c16b b) ∨ ∃ x, i = .c16i x) → t.wire = quietWire s)

/-- Every command completes, clears BUSY, releases the line, and is bounded: at most `N_IDLE_POLLS` polls, one pulse
and 200 slots, each answered by the environment in order, with no gap between them: `T_IDLE_POLL` a poll, `T_RSTL +
T_PDS + T_RSTREC` a pulse, `T_SLOT + T_REC` a slot (R3, R9, R51, R52, R93, R148, R162; `T_INTERNAL` once, at the end:
log 9; a completion that comes later still keeps its instant: log 28). These two are the model's choices. -/
def Obligations.EveryCommandIsBoundedAndGapless : Prop :=
  ∀ (i : Instr) (s : State), ∃ t evs, exec i s = .next t ∧ t.busy = false ∧ t.seq = .idle ∧
    pollCount evs ≤ s.timing.nIdlePolls ∧ slotCount evs ≤ 200 ∧
    evs.length ≤ pollCount evs + slotCount evs + 1 ∧ WireAfter s evs t.wire ∧
    (s.timing.Valid → t.wire.now = max (s.wire.now + s.timing.tIdlePoll * pollCount evs +
      (s.timing.tRstl + s.timing.tPds + s.timing.tRstrec) * (evs.length - pollCount evs - slotCount evs) +
      (s.timing.tSlot + s.timing.tRec) * slotCount evs + Config.tInternal) s.seq.reading)

/-- A command's effect is a function of the state, the word and the draws: run in two environments, a command that
leaves the same trace leaves the same block, so a device reaches the block through the samples alone (R12, R52). -/
def Obligations.DrawsAloneDecideTheEffect : Prop :=
  ∀ (i : Instr) (s t u : State) (e : Env), exec i s = .next t →
    exec i { s with wire := { s.wire with env := e } } = .next u → u.wire.trace = t.wire.trace →
      u = { t with wire := { t.wire with env := u.wire.env } }

/-! ### The CRC steps, the durations, the reference devices -/

/-- The CRC steps told from R105 and R108 without their loops. CRC-8 (polynomial 0x8C, R6): the step depends on the XOR
of its operands, is linear in it, and has the value of the bit loop on each one-bit byte. CRC-16 with any polynomial: the
high byte of the CRC is shifted down, the low byte is folded with the data byte, the folding is linear, the top bit of
a byte leaves the polynomial itself, and each bit below it leaves one more round of the loop. -/
def Obligations.CrcStepsAreTheBitLoops : Prop :=
  ((∀ c b : Byte, crc8Step c b = crc8Step 0 (c ^^^ b)) ∧
    (∀ x y : Byte, crc8Step 0 (x ^^^ y) = crc8Step 0 x ^^^ crc8Step 0 y) ∧
    crc8Step 0 0x80 = 0x8C ∧ crc8Step 0 0x40 = 0x46 ∧ crc8Step 0 0x20 = 0x23 ∧ crc8Step 0 0x10 = 0x9D ∧
    crc8Step 0 0x08 = 0xC2 ∧ crc8Step 0 0x04 = 0x61 ∧ crc8Step 0 0x02 = 0xBC ∧ crc8Step 0 0x01 = 0x5E) ∧
  ∀ p : Half,
    (∀ (c : Half) (b : Byte), crc16Step p c b = (c >>> 8) ^^^ crc16Step p 0 (c.setWidth 8 ^^^ b)) ∧
    (∀ x y : Byte, crc16Step p 0 (x ^^^ y) = crc16Step p 0 x ^^^ crc16Step p 0 y) ∧
    crc16Step p 0 0x80 = p ∧
    ∀ k, k < 7 → ∀ x, crc16Step p 0 (1 <<< (k + 1)) = x →
      crc16Step p 0 (1 <<< k) = if x.getLsbD 0 then (x >>> 1) ^^^ p else x >>> 1

/-- The durations of the commands with the default parameters, `k` the number of polls made and `T_INTERNAL` added once
(R162; that it comes last is log 9, that a completion which comes later still keeps its instant is log 28, and the
default parameters are R3's). -/
def Obligations.CommandDurations : Prop :=
  ∀ (i : Instr) (s t : State), s.timing = Timing.nominal → exec i s = .next t →
    ∃ us, t.wire.now = max (s.wire.now + us + Config.tInternal) s.seq.reading ∧
      ((∃ b, i = .wbit b) ∨ i = .rbit → us = 70) ∧
      ((∃ b, i = .w8 b) ∨ i = .r8 ∨ i = .skip → us = 560) ∧
      (i = .w64 ∨ i = .r64 → us = 4480) ∧ (i = .select → us = 5040) ∧
      (i = .srst ∨ i = .c8i ∨ i = .c8d ∨ i = .c16iRefin ∨ i = .c16d ∨ i = .c16f ∨ i = .c16fRefout ∨
        (∃ b, i = .c8b b ∨ i = .c16b b) ∨ (∃ x, i = .c16i x) → us = 0) ∧
      ∀ k, k = pollCount (t.wire.trace.drop s.wire.trace.length) → i = .reset ∨ IsSearch i →
        (t.result ≠ .searchEnd → 1 ≤ k ∧ k ≤ 125) ∧
        (t.result = .searchEnd → us = 0) ∧
        (t.result = .busStuck → us = 250) ∧
        (t.result = .noPresence → us = 2 * k + 960) ∧
        (t.result = .ok ∧ i = .reset → us = 2 * k + 960) ∧
        ((t.result = .ok ∧ IsSearch i) ∨ t.result = .searchZeroFamily → us = 2 * k + 960 + 14000) ∧
        (t.result = .searchNoResponse → ∃ p, 1 ≤ p ∧ p ≤ 64 ∧ us = 2 * k + 960 + 70 * (3 * p + 7))

/-- A fixture of the reference bus starts with every device in `Idle` and an empty log, whatever its addresses, alerts
and responses, and no command without a bus reset moves a device of it: each drives 1, so what is read is all ones (R55,
R58, R65). -/
def Obligations.AFixtureIsIdleUntilTheFirstBusReset : Prop :=
  ∀ (devs : List (DWord × Bool × List Bool)) (stuck : Bool),
    (Bus.fixture devs stuck).stuckLow = stuck ∧ (Bus.fixture devs stuck).devices.length = devs.length ∧
    (∀ (k : Nat) (d : Device), (Bus.fixture devs stuck).devices[k]? = some d →
      d.st = .idle ∧ d.log = [] ∧ devs[k]? = some (d.rom, d.alerting, d.resp)) ∧
    ∀ (s : State), s.wire.env = .bus (Bus.fixture devs false) →
      (∀ i, i ≠ .reset → ¬ IsSearch i → ∃ t, exec i s = .next t ∧ t.wire.env = s.wire.env) ∧
      ∃ t, exec .r64 s = .next t ∧ t.data = 0xFFFFFFFFFFFFFFFF

/-- The function phase of a reference device: after a bus reset and `SKIP` it takes 8 bits as its function byte into its
log, then plays back its response bit by bit, and drives 1 and logs the master's bits once the response is used up (R59,
R63). -/
def Obligations.ADeviceLogsAndPlaysBack : Prop :=
  ∀ (s : State) (d : Device) (b : Byte), s.timing.Valid → s.wire.env = .bus ⟨[d], false⟩ →
    ∃ t, execAll [.reset, .skip, .w8 b, .r8] s = .next t ∧
      (∀ k, k < 8 → t.data.getLsbD k = d.resp.getD k true) ∧
      t.wire.env = .bus ⟨[{ d with
        resp := d.resp.drop 8
        log := d.log ++ lsbBits b ++ List.replicate (8 - d.resp.length) true
        st := .respond }], false⟩

/-- The line is live while a command runs, whatever the command: after `n` more microseconds it is low exactly where the
block drives it low in the event then under way: for `T_LOW1` or `T_LOW0` from the start of each write slot, `T_RDLOW`
from the start of each read slot, `T_RSTL` from the start of a reset pulse, never in a poll, and never in an illegal word
(R8, R33, R47, R84, R85, R87, R88, R93). That the time is counted from the issue in `seq` is log 1, that all of `T_INTERNAL` comes after the wire activity
is log 9, that a level holds at the instant of its mark is log 14: the model's choices. -/
def Obligations.TheLineIsLiveDuringACommand : Prop :=
  ∀ (s : State) (e n : Nat) (rest : List Turn), s.timing.Valid → s.busy = true → s.seq = .running (s.wire.now + e) →
    s.agenda = .elapse n :: rest →
      ∃ t, step s = .next t ∧ t.busy = true ∧ t.seq = .running (s.wire.now + e + n) ∧ SameResults s t ∧
        (∀ i u, decodeWord s.cmdLatch = .ok i → exec i s = .next u →
          t.wire.dqLow = drivenLow s.timing (u.wire.trace.drop s.wire.trace.length) (e + n)) ∧
        ∀ r, decodeWord s.cmdLatch = .error r → t.wire.dqLow = false

/-- The timebase is monotonic: no step takes `Now()` back, whether time passes, a command completes early or late, or a
block reset abandons it (R10, R143; that a completion may come after the command's own duration is the model's choice,
log 28). -/
def Obligations.TheTimebaseIsMonotonic : Prop :=
  ∀ s t : State, GoodState s → step s = .next t → s.instant ≤ t.instant
end

