-- ==== Sys2Proof/Laws/State.lean ====
section
/-! SUPPORT. One lemma per field per named update of the wire and of the state, each true by unfolding, so that no later
proof unfolds a record update. -/

namespace Sys2Proof.Machine

/-! The reading of the timebase in the sequencer -/

@[simp] theorem Seq.reading_idle : Seq.reading .idle = 0 := rfl
@[simp] theorem Seq.reading_running (t : Nat) : Seq.reading (.running t) = t := rfl

/-! `DriveLow()` -/

@[simp] theorem Wire.driveLow_dqLow (w : Wire) : (w.driveLow).dqLow = true := rfl
@[simp] theorem Wire.driveLow_now (w : Wire) : (w.driveLow).now = w.now := rfl
@[simp] theorem Wire.driveLow_trace (w : Wire) : (w.driveLow).trace = w.trace := rfl
@[simp] theorem Wire.driveLow_wave (w : Wire) : (w.driveLow).wave = w.wave ++ [.low w.now] := rfl
@[simp] theorem Wire.driveLow_env (w : Wire) : (w.driveLow).env = w.env := rfl

/-! `Release()` -/

@[simp] theorem Wire.release_dqLow (w : Wire) : (w.release).dqLow = false := rfl
@[simp] theorem Wire.release_now (w : Wire) : (w.release).now = w.now := rfl
@[simp] theorem Wire.release_trace (w : Wire) : (w.release).trace = w.trace := rfl
@[simp] theorem Wire.release_wave (w : Wire) : (w.release).wave = w.wave ++ [.release w.now] := rfl
@[simp] theorem Wire.release_env (w : Wire) : (w.release).env = w.env := rfl

/-! `Wait(t)` -/

@[simp] theorem Wire.wait_dqLow (t : Nat) (w : Wire) : (w.wait t).dqLow = w.dqLow := rfl
@[simp] theorem Wire.wait_now (t : Nat) (w : Wire) : (w.wait t).now = w.now + t := rfl
@[simp] theorem Wire.wait_trace (t : Nat) (w : Wire) : (w.wait t).trace = w.trace := rfl
@[simp] theorem Wire.wait_wave (t : Nat) (w : Wire) : (w.wait t).wave = w.wave := rfl
@[simp] theorem Wire.wait_env (t : Nat) (w : Wire) : (w.wait t).env = w.env := rfl

/-! `WaitUntil(t)` -/

@[simp] theorem Wire.waitUntil_dqLow (t : Nat) (w : Wire) : (w.waitUntil t).dqLow = w.dqLow := rfl
@[simp] theorem Wire.waitUntil_now (t : Nat) (w : Wire) : (w.waitUntil t).now = max w.now t := rfl
@[simp] theorem Wire.waitUntil_trace (t : Nat) (w : Wire) : (w.waitUntil t).trace = w.trace := rfl
@[simp] theorem Wire.waitUntil_wave (t : Nat) (w : Wire) : (w.waitUntil t).wave = w.wave := rfl
@[simp] theorem Wire.waitUntil_env (t : Nat) (w : Wire) : (w.waitUntil t).env = w.env := rfl

/-! A sample marked in the waveform -/

@[simp] theorem Wire.sampled_dqLow (v : Bool) (w : Wire) : (w.sampled v).dqLow = w.dqLow := rfl
@[simp] theorem Wire.sampled_now (v : Bool) (w : Wire) : (w.sampled v).now = w.now := rfl
@[simp] theorem Wire.sampled_trace (v : Bool) (w : Wire) : (w.sampled v).trace = w.trace := rfl
@[simp] theorem Wire.sampled_wave (v : Bool) (w : Wire) : (w.sampled v).wave = w.wave ++ [.sample w.now v] := rfl
@[simp] theorem Wire.sampled_env (v : Bool) (w : Wire) : (w.sampled v).env = w.env := rfl

/-! An event on the trace -/

@[simp] theorem Wire.emit_dqLow (ev : WireEvent) (w : Wire) : (w.emit ev).dqLow = w.dqLow := rfl
@[simp] theorem Wire.emit_now (ev : WireEvent) (w : Wire) : (w.emit ev).now = w.now := rfl
@[simp] theorem Wire.emit_trace (ev : WireEvent) (w : Wire) : (w.emit ev).trace = w.trace ++ [ev] := rfl
@[simp] theorem Wire.emit_wave (ev : WireEvent) (w : Wire) : (w.emit ev).wave = w.wave := rfl
@[simp] theorem Wire.emit_env (ev : WireEvent) (w : Wire) : (w.emit ev).env = w.env.after ev := rfl

/-! The line when a command is complete -/

@[simp] theorem Wire.settle_dqLow (t : Nat) (w : Wire) : (w.settle t).dqLow = false := rfl
@[simp] theorem Wire.settle_now (t : Nat) (w : Wire) :
    (w.settle t).now = max (w.now + Config.tInternal) t := rfl
@[simp] theorem Wire.settle_trace (t : Nat) (w : Wire) : (w.settle t).trace = w.trace := rfl
@[simp] theorem Wire.settle_wave (t : Nat) (w : Wire) : (w.settle t).wave = w.wave := rfl
@[simp] theorem Wire.settle_env (t : Nat) (w : Wire) : (w.settle t).env = w.env := rfl

/-! `quietWire` -/

@[simp] theorem quietWire_dqLow (s : State) : (quietWire s).dqLow = false := rfl
@[simp] theorem quietWire_now (s : State) :
    (quietWire s).now = max (s.wire.now + Config.tInternal) s.seq.reading := rfl
@[simp] theorem quietWire_trace (s : State) : (quietWire s).trace = s.wire.trace := rfl
@[simp] theorem quietWire_wave (s : State) : (quietWire s).wave = s.wire.wave := rfl
@[simp] theorem quietWire_env (s : State) : (quietWire s).env = s.wire.env := rfl

/-! Completion -/

@[simp] theorem finish_busy (r : ResultCode) (s : State) : (finish r s).busy = false := rfl
@[simp] theorem finish_presence (r : ResultCode) (s : State) : (finish r s).presence = s.presence := rfl
@[simp] theorem finish_found (r : ResultCode) (s : State) : (finish r s).found = s.found := rfl
@[simp] theorem finish_result (r : ResultCode) (s : State) : (finish r s).result = r := rfl
@[simp] theorem finish_errIllegal (r : ResultCode) (s : State) : (finish r s).errIllegal = s.errIllegal := rfl
@[simp] theorem finish_errOverrun (r : ResultCode) (s : State) : (finish r s).errOverrun = s.errOverrun := rfl
@[simp] theorem finish_data (r : ResultCode) (s : State) : (finish r s).data = s.data := rfl
@[simp] theorem finish_rom (r : ResultCode) (s : State) : (finish r s).rom = s.rom := rfl
@[simp] theorem finish_lastDisc (r : ResultCode) (s : State) : (finish r s).lastDisc = s.lastDisc := rfl
@[simp] theorem finish_lastDev (r : ResultCode) (s : State) : (finish r s).lastDev = s.lastDev := rfl
@[simp] theorem finish_sstate (r : ResultCode) (s : State) : (finish r s).sstate = s.sstate := rfl
@[simp] theorem finish_crc8 (r : ResultCode) (s : State) : (finish r s).crc8 = s.crc8 := rfl
@[simp] theorem finish_crc16 (r : ResultCode) (s : State) : (finish r s).crc16 = s.crc16 := rfl
@[simp] theorem finish_crc16Poly (r : ResultCode) (s : State) : (finish r s).crc16Poly = s.crc16Poly := rfl
@[simp] theorem finish_crc16Out (r : ResultCode) (s : State) : (finish r s).crc16Out = s.crc16Out := rfl
@[simp] theorem finish_lastZero (r : ResultCode) (s : State) : (finish r s).lastZero = s.lastZero := rfl
@[simp] theorem finish_seq (r : ResultCode) (s : State) : (finish r s).seq = .idle := rfl
@[simp] theorem finish_cmdLatch (r : ResultCode) (s : State) : (finish r s).cmdLatch = s.cmdLatch := rfl
@[simp] theorem finish_wire (r : ResultCode) (s : State) : (finish r s).wire = s.wire.settle s.seq.reading := rfl
@[simp] theorem finish_agenda (r : ResultCode) (s : State) : (finish r s).agenda = s.agenda := rfl
@[simp] theorem finish_hostReads (r : ResultCode) (s : State) : (finish r s).hostReads = s.hostReads := rfl
@[simp] theorem finish_timing (r : ResultCode) (s : State) : (finish r s).timing = s.timing := rfl

/-! A completed command -/

@[simp] theorem completed_busy (r : ResultCode) (w : Wire) (s : State) : (completed r w s).busy = false := rfl
@[simp] theorem completed_presence (r : ResultCode) (w : Wire) (s : State) : (completed r w s).presence = s.presence := rfl
@[simp] theorem completed_found (r : ResultCode) (w : Wire) (s : State) : (completed r w s).found = s.found := rfl
@[simp] theorem completed_result (r : ResultCode) (w : Wire) (s : State) : (completed r w s).result = r := rfl
@[simp] theorem completed_errIllegal (r : ResultCode) (w : Wire) (s : State) : (completed r w s).errIllegal = s.errIllegal := rfl
@[simp] theorem completed_errOverrun (r : ResultCode) (w : Wire) (s : State) : (completed r w s).errOverrun = s.errOverrun := rfl
@[simp] theorem completed_data (r : ResultCode) (w : Wire) (s : State) : (completed r w s).data = s.data := rfl
@[simp] theorem completed_rom (r : ResultCode) (w : Wire) (s : State) : (completed r w s).rom = s.rom := rfl
@[simp] theorem completed_lastDisc (r : ResultCode) (w : Wire) (s : State) : (completed r w s).lastDisc = s.lastDisc := rfl
@[simp] theorem completed_lastDev (r : ResultCode) (w : Wire) (s : State) : (completed r w s).lastDev = s.lastDev := rfl
@[simp] theorem completed_sstate (r : ResultCode) (w : Wire) (s : State) : (completed r w s).sstate = s.sstate := rfl
@[simp] theorem completed_crc8 (r : ResultCode) (w : Wire) (s : State) : (completed r w s).crc8 = s.crc8 := rfl
@[simp] theorem completed_crc16 (r : ResultCode) (w : Wire) (s : State) : (completed r w s).crc16 = s.crc16 := rfl
@[simp] theorem completed_crc16Poly (r : ResultCode) (w : Wire) (s : State) : (completed r w s).crc16Poly = s.crc16Poly := rfl
@[simp] theorem completed_crc16Out (r : ResultCode) (w : Wire) (s : State) : (completed r w s).crc16Out = s.crc16Out := rfl
@[simp] theorem completed_lastZero (r : ResultCode) (w : Wire) (s : State) : (completed r w s).lastZero = s.lastZero := rfl
@[simp] theorem completed_seq (r : ResultCode) (w : Wire) (s : State) : (completed r w s).seq = .idle := rfl
@[simp] theorem completed_cmdLatch (r : ResultCode) (w : Wire) (s : State) : (completed r w s).cmdLatch = s.cmdLatch := rfl
@[simp] theorem completed_wire (r : ResultCode) (w : Wire) (s : State) : (completed r w s).wire = w := rfl
@[simp] theorem completed_agenda (r : ResultCode) (w : Wire) (s : State) : (completed r w s).agenda = s.agenda := rfl
@[simp] theorem completed_hostReads (r : ResultCode) (w : Wire) (s : State) : (completed r w s).hostReads = s.hostReads := rfl
@[simp] theorem completed_timing (r : ResultCode) (w : Wire) (s : State) : (completed r w s).timing = s.timing := rfl

/-! `CursorClear()` -/

@[simp] theorem cursorClear_busy (s : State) : (cursorClear s).busy = s.busy := rfl
@[simp] theorem cursorClear_presence (s : State) : (cursorClear s).presence = s.presence := rfl
@[simp] theorem cursorClear_found (s : State) : (cursorClear s).found = s.found := rfl
@[simp] theorem cursorClear_result (s : State) : (cursorClear s).result = s.result := rfl
@[simp] theorem cursorClear_errIllegal (s : State) : (cursorClear s).errIllegal = s.errIllegal := rfl
@[simp] theorem cursorClear_errOverrun (s : State) : (cursorClear s).errOverrun = s.errOverrun := rfl
@[simp] theorem cursorClear_data (s : State) : (cursorClear s).data = s.data := rfl
@[simp] theorem cursorClear_rom (s : State) : (cursorClear s).rom = 0 := rfl
@[simp] theorem cursorClear_lastDisc (s : State) : (cursorClear s).lastDisc = 0 := rfl
@[simp] theorem cursorClear_lastDev (s : State) : (cursorClear s).lastDev = false := rfl
@[simp] theorem cursorClear_sstate (s : State) : (cursorClear s).sstate = s.sstate := rfl
@[simp] theorem cursorClear_crc8 (s : State) : (cursorClear s).crc8 = s.crc8 := rfl
@[simp] theorem cursorClear_crc16 (s : State) : (cursorClear s).crc16 = s.crc16 := rfl
@[simp] theorem cursorClear_crc16Poly (s : State) : (cursorClear s).crc16Poly = s.crc16Poly := rfl
@[simp] theorem cursorClear_crc16Out (s : State) : (cursorClear s).crc16Out = s.crc16Out := rfl
@[simp] theorem cursorClear_lastZero (s : State) : (cursorClear s).lastZero = s.lastZero := rfl
@[simp] theorem cursorClear_seq (s : State) : (cursorClear s).seq = s.seq := rfl
@[simp] theorem cursorClear_cmdLatch (s : State) : (cursorClear s).cmdLatch = s.cmdLatch := rfl
@[simp] theorem cursorClear_wire (s : State) : (cursorClear s).wire = s.wire := rfl
@[simp] theorem cursorClear_agenda (s : State) : (cursorClear s).agenda = s.agenda := rfl
@[simp] theorem cursorClear_hostReads (s : State) : (cursorClear s).hostReads = s.hostReads := rfl
@[simp] theorem cursorClear_timing (s : State) : (cursorClear s).timing = s.timing := rfl

/-! A pass without an address -/

@[simp] theorem noAddress_busy (c : ResultCode) (s : State) : (noAddress c s).busy = false := rfl
@[simp] theorem noAddress_presence (c : ResultCode) (s : State) : (noAddress c s).presence = s.presence := rfl
@[simp] theorem noAddress_found (c : ResultCode) (s : State) : (noAddress c s).found = false := rfl
@[simp] theorem noAddress_result (c : ResultCode) (s : State) : (noAddress c s).result = c := rfl
@[simp] theorem noAddress_errIllegal (c : ResultCode) (s : State) : (noAddress c s).errIllegal = s.errIllegal := rfl
@[simp] theorem noAddress_errOverrun (c : ResultCode) (s : State) : (noAddress c s).errOverrun = s.errOverrun := rfl
@[simp] theorem noAddress_data (c : ResultCode) (s : State) : (noAddress c s).data = s.data := rfl
@[simp] theorem noAddress_rom (c : ResultCode) (s : State) : (noAddress c s).rom = 0 := rfl
@[simp] theorem noAddress_lastDisc (c : ResultCode) (s : State) : (noAddress c s).lastDisc = 0 := rfl
@[simp] theorem noAddress_lastDev (c : ResultCode) (s : State) : (noAddress c s).lastDev = false := rfl
@[simp] theorem noAddress_sstate (c : ResultCode) (s : State) : (noAddress c s).sstate = .exhausted := rfl
@[simp] theorem noAddress_crc8 (c : ResultCode) (s : State) : (noAddress c s).crc8 = s.crc8 := rfl
@[simp] theorem noAddress_crc16 (c : ResultCode) (s : State) : (noAddress c s).crc16 = s.crc16 := rfl
@[simp] theorem noAddress_crc16Poly (c : ResultCode) (s : State) : (noAddress c s).crc16Poly = s.crc16Poly := rfl
@[simp] theorem noAddress_crc16Out (c : ResultCode) (s : State) : (noAddress c s).crc16Out = s.crc16Out := rfl
@[simp] theorem noAddress_lastZero (c : ResultCode) (s : State) : (noAddress c s).lastZero = s.lastZero := rfl
@[simp] theorem noAddress_seq (c : ResultCode) (s : State) : (noAddress c s).seq = .idle := rfl
@[simp] theorem noAddress_cmdLatch (c : ResultCode) (s : State) : (noAddress c s).cmdLatch = s.cmdLatch := rfl
@[simp] theorem noAddress_wire (c : ResultCode) (s : State) : (noAddress c s).wire = s.wire.settle s.seq.reading := rfl
@[simp] theorem noAddress_agenda (c : ResultCode) (s : State) : (noAddress c s).agenda = s.agenda := rfl
@[simp] theorem noAddress_hostReads (c : ResultCode) (s : State) : (noAddress c s).hostReads = s.hostReads := rfl
@[simp] theorem noAddress_timing (c : ResultCode) (s : State) : (noAddress c s).timing = s.timing := rfl

/-! Issue -/

@[simp] theorem issue_busy (w : Word) (s : State) : (issue w s).busy = true := rfl
@[simp] theorem issue_presence (w : Word) (s : State) : (issue w s).presence = s.presence := rfl
@[simp] theorem issue_found (w : Word) (s : State) : (issue w s).found = s.found := rfl
@[simp] theorem issue_result (w : Word) (s : State) : (issue w s).result = s.result := rfl
@[simp] theorem issue_errIllegal (w : Word) (s : State) : (issue w s).errIllegal = s.errIllegal := rfl
@[simp] theorem issue_errOverrun (w : Word) (s : State) : (issue w s).errOverrun = s.errOverrun := rfl
@[simp] theorem issue_data (w : Word) (s : State) : (issue w s).data = s.data := rfl
@[simp] theorem issue_rom (w : Word) (s : State) : (issue w s).rom = s.rom := rfl
@[simp] theorem issue_lastDisc (w : Word) (s : State) : (issue w s).lastDisc = s.lastDisc := rfl
@[simp] theorem issue_lastDev (w : Word) (s : State) : (issue w s).lastDev = s.lastDev := rfl
@[simp] theorem issue_sstate (w : Word) (s : State) : (issue w s).sstate = if isSearchWord w then .searching else s.sstate := rfl
@[simp] theorem issue_crc8 (w : Word) (s : State) : (issue w s).crc8 = s.crc8 := rfl
@[simp] theorem issue_crc16 (w : Word) (s : State) : (issue w s).crc16 = s.crc16 := rfl
@[simp] theorem issue_crc16Poly (w : Word) (s : State) : (issue w s).crc16Poly = s.crc16Poly := rfl
@[simp] theorem issue_crc16Out (w : Word) (s : State) : (issue w s).crc16Out = s.crc16Out := rfl
@[simp] theorem issue_lastZero (w : Word) (s : State) : (issue w s).lastZero = s.lastZero := rfl
@[simp] theorem issue_seq (w : Word) (s : State) : (issue w s).seq = .running s.wire.now := rfl
@[simp] theorem issue_cmdLatch (w : Word) (s : State) : (issue w s).cmdLatch = w := rfl
@[simp] theorem issue_wire (w : Word) (s : State) : (issue w s).wire = s.wire := rfl
@[simp] theorem issue_agenda (w : Word) (s : State) : (issue w s).agenda = s.agenda := rfl
@[simp] theorem issue_hostReads (w : Word) (s : State) : (issue w s).hostReads = s.hostReads := rfl
@[simp] theorem issue_timing (w : Word) (s : State) : (issue w s).timing = s.timing := rfl

/-! A write to STATUS -/

@[simp] theorem writeStatus_busy (v : Word) (s : State) : (writeStatus v s).busy = s.busy := rfl
@[simp] theorem writeStatus_presence (v : Word) (s : State) : (writeStatus v s).presence = s.presence := rfl
@[simp] theorem writeStatus_found (v : Word) (s : State) : (writeStatus v s).found = s.found := rfl
@[simp] theorem writeStatus_result (v : Word) (s : State) : (writeStatus v s).result = s.result := rfl
@[simp] theorem writeStatus_errIllegal (v : Word) (s : State) : (writeStatus v s).errIllegal = (s.errIllegal && !v.getLsbD 8) := rfl
@[simp] theorem writeStatus_errOverrun (v : Word) (s : State) : (writeStatus v s).errOverrun = (s.errOverrun && !v.getLsbD 9) := rfl
@[simp] theorem writeStatus_data (v : Word) (s : State) : (writeStatus v s).data = s.data := rfl
@[simp] theorem writeStatus_rom (v : Word) (s : State) : (writeStatus v s).rom = s.rom := rfl
@[simp] theorem writeStatus_lastDisc (v : Word) (s : State) : (writeStatus v s).lastDisc = s.lastDisc := rfl
@[simp] theorem writeStatus_lastDev (v : Word) (s : State) : (writeStatus v s).lastDev = s.lastDev := rfl
@[simp] theorem writeStatus_sstate (v : Word) (s : State) : (writeStatus v s).sstate = s.sstate := rfl
@[simp] theorem writeStatus_crc8 (v : Word) (s : State) : (writeStatus v s).crc8 = s.crc8 := rfl
@[simp] theorem writeStatus_crc16 (v : Word) (s : State) : (writeStatus v s).crc16 = s.crc16 := rfl
@[simp] theorem writeStatus_crc16Poly (v : Word) (s : State) : (writeStatus v s).crc16Poly = s.crc16Poly := rfl
@[simp] theorem writeStatus_crc16Out (v : Word) (s : State) : (writeStatus v s).crc16Out = s.crc16Out := rfl
@[simp] theorem writeStatus_lastZero (v : Word) (s : State) : (writeStatus v s).lastZero = s.lastZero := rfl
@[simp] theorem writeStatus_seq (v : Word) (s : State) : (writeStatus v s).seq = s.seq := rfl
@[simp] theorem writeStatus_cmdLatch (v : Word) (s : State) : (writeStatus v s).cmdLatch = s.cmdLatch := rfl
@[simp] theorem writeStatus_wire (v : Word) (s : State) : (writeStatus v s).wire = s.wire := rfl
@[simp] theorem writeStatus_agenda (v : Word) (s : State) : (writeStatus v s).agenda = s.agenda := rfl
@[simp] theorem writeStatus_hostReads (v : Word) (s : State) : (writeStatus v s).hostReads = s.hostReads := rfl
@[simp] theorem writeStatus_timing (v : Word) (s : State) : (writeStatus v s).timing = s.timing := rfl

/-! The pin of a running command -/

@[simp] theorem drivePin_busy (s : State) : (drivePin s).busy = s.busy := rfl
@[simp] theorem drivePin_presence (s : State) : (drivePin s).presence = s.presence := rfl
@[simp] theorem drivePin_found (s : State) : (drivePin s).found = s.found := rfl
@[simp] theorem drivePin_result (s : State) : (drivePin s).result = s.result := rfl
@[simp] theorem drivePin_errIllegal (s : State) : (drivePin s).errIllegal = s.errIllegal := rfl
@[simp] theorem drivePin_errOverrun (s : State) : (drivePin s).errOverrun = s.errOverrun := rfl
@[simp] theorem drivePin_data (s : State) : (drivePin s).data = s.data := rfl
@[simp] theorem drivePin_rom (s : State) : (drivePin s).rom = s.rom := rfl
@[simp] theorem drivePin_lastDisc (s : State) : (drivePin s).lastDisc = s.lastDisc := rfl
@[simp] theorem drivePin_lastDev (s : State) : (drivePin s).lastDev = s.lastDev := rfl
@[simp] theorem drivePin_sstate (s : State) : (drivePin s).sstate = s.sstate := rfl
@[simp] theorem drivePin_crc8 (s : State) : (drivePin s).crc8 = s.crc8 := rfl
@[simp] theorem drivePin_crc16 (s : State) : (drivePin s).crc16 = s.crc16 := rfl
@[simp] theorem drivePin_crc16Poly (s : State) : (drivePin s).crc16Poly = s.crc16Poly := rfl
@[simp] theorem drivePin_crc16Out (s : State) : (drivePin s).crc16Out = s.crc16Out := rfl
@[simp] theorem drivePin_lastZero (s : State) : (drivePin s).lastZero = s.lastZero := rfl
@[simp] theorem drivePin_seq (s : State) : (drivePin s).seq = s.seq := rfl
@[simp] theorem drivePin_cmdLatch (s : State) : (drivePin s).cmdLatch = s.cmdLatch := rfl
@[simp] theorem drivePin_agenda (s : State) : (drivePin s).agenda = s.agenda := rfl
@[simp] theorem drivePin_hostReads (s : State) : (drivePin s).hostReads = s.hostReads := rfl
@[simp] theorem drivePin_timing (s : State) : (drivePin s).timing = s.timing := rfl
@[simp] theorem drivePin_dqLow (s : State) : (drivePin s).wire.dqLow = lineLow s := rfl
@[simp] theorem drivePin_now (s : State) : (drivePin s).wire.now = s.wire.now := rfl
@[simp] theorem drivePin_trace (s : State) : (drivePin s).wire.trace = s.wire.trace := rfl
@[simp] theorem drivePin_wave (s : State) : (drivePin s).wire.wave = s.wire.wave := rfl
@[simp] theorem drivePin_env (s : State) : (drivePin s).wire.env = s.wire.env := rfl

end Sys2Proof.Machine
end

