-- ==== Sys2Proof/Laws/Wire.lean ====
section
/-! SUPPORT. What the wire procedures can do, each said once: the events they append, the samples they take, the time
they take, the line released. -/

namespace Sys2Proof.Machine

theorem Env.afterAll_nil (e : Env) : e.afterAll [] = e := rfl

theorem Env.afterAll_cons (e : Env) (ev : WireEvent) (evs : List WireEvent) :
    e.afterAll (ev :: evs) = (e.after ev).afterAll evs := rfl

theorem Env.afterAll_append (e : Env) (xs ys : List WireEvent) :
    e.afterAll (xs ++ ys) = (e.afterAll xs).afterAll ys := by
  simp [Env.afterAll, List.foldl_append]

theorem answeredBy_append (e : Env) (xs ys : List WireEvent) :
    AnsweredBy e (xs ++ ys) ↔ AnsweredBy e xs ∧ AnsweredBy (e.afterAll xs) ys := by
  induction xs generalizing e with
  | nil => simp [AnsweredBy, Env.afterAll_nil]
  | cons ev xs ih => cases ev <;> simp [AnsweredBy, Env.afterAll_cons, ih, and_assoc]

theorem wireTime_append (p : Timing) (xs ys : List WireEvent) :
    wireTime p (xs ++ ys) = wireTime p xs + wireTime p ys := by
  simp [wireTime]

theorem wireTime_cons (p : Timing) (ev : WireEvent) (evs : List WireEvent) :
    wireTime p (ev :: evs) = eventTime p ev + wireTime p evs := by
  simp [wireTime]

/-- The line `w'` is `w` after the events `evs`, released, and with valid parameters their time later. -/
def Moves (p : Timing) (w : Wire) (evs : List WireEvent) (w' : Wire) : Prop :=
  w'.dqLow = false ∧ w'.trace = w.trace ++ evs ∧ AnsweredBy w.env evs ∧ w'.env = w.env.afterAll evs ∧
    (p.Valid → w'.now = w.now + wireTime p evs)

theorem Moves.trans {p : Timing} {w w1 w2 : Wire} {xs ys : List WireEvent} (h1 : Moves p w xs w1)
    (h2 : Moves p w1 ys w2) : Moves p w (xs ++ ys) w2 := by
  obtain ⟨-, ht, ha, he, hn⟩ := h1
  obtain ⟨hd', ht', ha', he', hn'⟩ := h2
  refine ⟨hd', by rw [ht', ht, List.append_assoc], ?_, by rw [he', he, Env.afterAll_append], fun hp => ?_⟩
  · exact (answeredBy_append _ _ _).2 ⟨ha, he ▸ ha'⟩
  · rw [hn' hp, hn hp, wireTime_append, Nat.add_assoc]

/-- A procedure's moves, settled, are what a completed command makes of the line. -/
theorem Moves.settle {s : State} {w' : Wire} {evs : List WireEvent} (h : Moves s.timing s.wire evs w') :
    WireAfter s evs (w'.settle s.seq.reading) := by
  obtain ⟨-, ht, ha, he, hn⟩ := h
  exact ⟨rfl, ht, ha, he, fun hp => by simp [hn hp]⟩

/-- Released already, nothing on the wire. -/
theorem Moves.refl (p : Timing) {w : Wire} (h : w.dqLow = false) : Moves p w [] w :=
  ⟨h, by simp, trivial, rfl, fun _ => rfl⟩

theorem level_released (k : SampleKind) {w : Wire} (h : w.dqLow = false) : w.level k = w.env.answer k := by
  simp [Wire.level, h]

/-- `WriteSlot(b)` (R84). -/
theorem writeSlot_moves (p : Timing) (b : Bool) (w : Wire) : Moves p w [.write b] (writeSlot p b w) := by
  refine ⟨rfl, rfl, trivial, rfl, fun hp => ?_⟩
  obtain ⟨-, h1, -, -, h2, h3, h4, -⟩ := hp
  cases b <;> simp [writeSlot, wireTime, eventTime, Timing.slotTime] <;> omega

/-- `ReadSlot()` (R85): the bit is the environment's answer. -/
theorem readSlot_fst (p : Timing) (w : Wire) : (readSlot p w).1 = w.env.answer .slot := by
  simp [readSlot, Wire.level]

theorem readSlot_moves (p : Timing) (w : Wire) : Moves p w [.read (readSlot p w).1] (readSlot p w).2 := by
  refine ⟨rfl, rfl, ⟨(readSlot_fst _ _).symm, trivial⟩, rfl, fun hp => ?_⟩
  obtain ⟨-, -, -, h1, h2, -, -, -⟩ := hp
  simp [readSlot, wireTime, eventTime, Timing.slotTime]
  omega

/-- The write slots of a list of bits. -/
theorem writeBits_moves (p : Timing) (bs : List Bool) (w : Wire) (h : w.dqLow = false) :
    Moves p w (writeEvents bs) (writeBits p bs w) := by
  induction bs generalizing w with
  | nil => exact Moves.refl p h
  | cons b bs ih => exact (writeSlot_moves p b w).trans (ih _ rfl)

/-- A list of read slots: as many bits as slots, each the sample of its slot (R98). -/
theorem readBits_length (p : Timing) (n : Nat) (w : Wire) : (readBits p n w).1.length = n := by
  induction n generalizing w with
  | zero => rfl
  | succ n ih => simp [readBits, ih]

theorem readBits_moves (p : Timing) (n : Nat) (w : Wire) (h : w.dqLow = false) :
    Moves p w (readEvents (readBits p n w).1) (readBits p n w).2 := by
  induction n generalizing w with
  | zero => exact Moves.refl p h
  | succ n ih => exact (readSlot_moves p w).trans (ih (readSlot p w).2 rfl)

/-- The idle wait (R87): every poll reads 0, or the first that reads 1 ends it. -/
theorem idleWait_cases (p : Timing) (n : Nat) (w : Wire) (h : w.dqLow = false) :
    ((idleWait p n w).1 = false ∧ Moves p w (List.replicate n (.poll false)) (idleWait p n w).2) ∨
      ((idleWait p n w).1 = true ∧ ∃ k, k < n ∧
        Moves p w (List.replicate k (.poll false) ++ [.poll true]) (idleWait p n w).2) := by
  induction n generalizing w with
  | zero => exact .inl ⟨rfl, Moves.refl p h⟩
  | succ n ih =>
    have hv : (w.wait p.tIdlePoll).level .poll = w.env.answer .poll := by
      simp [Wire.level, h]
    have hstep : ∀ v, w.env.answer .poll = v →
        Moves p w [.poll v] (((w.wait p.tIdlePoll).sampled v).emit (.poll v)) :=
      fun v hp => ⟨h, rfl, ⟨hp, trivial⟩, rfl, fun _ => by simp [wireTime, eventTime]⟩
    cases hp : w.env.answer .poll with
    | true =>
      refine .inr ⟨by simp [idleWait, hv, hp], 0, by omega, ?_⟩
      simp only [idleWait, hv, hp]
      exact hstep true hp
    | false =>
      have hrun : idleWait p (n + 1) w =
          idleWait p n (((w.wait p.tIdlePoll).sampled false).emit (.poll false)) := by
        simp [idleWait, hv, hp]
      rw [hrun]
      rcases ih (((w.wait p.tIdlePoll).sampled false).emit (.poll false)) h with ⟨h1, h2⟩ | ⟨h1, k, hk, h2⟩
      · exact .inl ⟨h1, (hstep false hp).trans h2⟩
      · exact .inr ⟨h1, k + 1, by omega, (hstep false hp).trans h2⟩

/-- The reset pulse (R88): the sample is the environment's answer. -/
theorem resetPulse_fst (p : Timing) (w : Wire) : (resetPulse p w).1 = w.env.answer .presence := by
  simp [resetPulse, Wire.level]

theorem resetPulse_moves (p : Timing) (w : Wire) : Moves p w [.rst (resetPulse p w).1] (resetPulse p w).2 := by
  refine ⟨rfl, rfl, ⟨(resetPulse_fst _ _).symm, trivial⟩, rfl, fun _ => ?_⟩
  simp [resetPulse, wireTime, eventTime, Timing.pulseTime]
  omega

/-- `BusReset()` (R87, R88, R89): a stuck line, or some polls, the pulse and the presence sample. -/
theorem busReset_cases (p : Timing) (w : Wire) :
    ((busReset p w).1 = .stuck ∧ Moves p w (stuckEvents p) (busReset p w).2) ∨
      ∃ k v, k < p.nIdlePolls ∧ (busReset p w).1 = (if v then .absent else .present) ∧
        Moves p w (resetEvents k v) (busReset p w).2 := by
  have hrel : ∀ evs w', Moves p w.release evs w' → Moves p w evs w' := fun evs w' h => h
  rcases idleWait_cases p p.nIdlePolls w.release rfl with ⟨h1, h2⟩ | ⟨h1, k, hk, h2⟩
  · have hr : busReset p w = (.stuck, (idleWait p p.nIdlePolls w.release).2) := by
      unfold busReset
      split
      · next heq => simp [heq]
      · next heq => simp [heq] at h1
    rw [hr]
    exact .inl ⟨rfl, hrel _ _ h2⟩
  · have hr : busReset p w =
        (if (resetPulse p (idleWait p p.nIdlePolls w.release).2).1 then .absent else .present,
          (resetPulse p (idleWait p p.nIdlePolls w.release).2).2) := by
      unfold busReset
      split
      · next heq => simp [heq] at h1
      · next heq => simp [heq]
    rw [hr]
    refine .inr ⟨k, _, hk, rfl, ?_⟩
    have := (hrel _ _ h2).trans (resetPulse_moves p (idleWait p p.nIdlePolls w.release).2)
    simpa [resetEvents] using this

end Sys2Proof.Machine
end

