-- ==== Sys2Proof/Laws/Command.lean ====
section
/-! SUPPORT. What the shared command operations can do, each said once: `finish`, a writing command, a reading command,
the parts of a search pass, and the value of bits read from the line. -/

namespace Sys2Proof.Machine

/-- Completion changes RESULT, BUSY, `seq` and the line alone (R46). -/
theorem finish_eq_completed (r : ResultCode) (s : State) : finish r s = completed r (s.wire.settle s.seq.reading) s := rfl

/-- A pass without an address leaves the cursor clear, with PRESENCE, `last_zero` and the line of the pass (R120). -/
theorem noAddress_eq (code : ResultCode) (s : State) :
    noAddress code s = noAddressState code s.presence s.lastZero (s.wire.settle s.seq.reading) s := rfl

/-- A writing command only moves the line and reports OK. -/
theorem writeCommand_eq (f : Wire → Wire) (s : State) :
    writeCommand f s = completed .ok ((f s.wire).settle s.seq.reading) s := rfl

/-- A reading command moves the line, fills DATA and reports OK. -/
theorem readCommand_eq (n : Nat) (s : State) :
    readCommand n s = { completed .ok ((readBits s.timing n s.wire).2.settle s.seq.reading) s with
      data := dataOfBits (readBits s.timing n s.wire).1 } := rfl

theorem lsbBits_length {n : Nat} (v : BitVec n) : (lsbBits v).length = n := by simp [lsbBits]

theorem natOfBits_lt (bs : List Bool) : natOfBits bs < 2 ^ bs.length := by
  induction bs with
  | nil => simp [natOfBits]
  | cons b bs ih =>
    have hb : b.toNat ≤ 1 := by cases b <;> decide
    simp only [natOfBits, List.length_cons, Nat.pow_succ]
    omega

/-- Bit `k` of the number is bit `k` of the list (R49, R98). -/
theorem testBit_natOfBits (bs : List Bool) (k : Nat) : (natOfBits bs).testBit k = bs.getD k false := by
  induction bs generalizing k with
  | nil => simp [natOfBits]
  | cons b bs ih =>
    cases k with
    | zero => cases b <;> simp [natOfBits, Nat.testBit_zero]
    | succ k =>
      have h2 : (b.toNat + 2 * natOfBits bs) / 2 = natOfBits bs := by
        have hb : b.toNat ≤ 1 := by cases b <;> decide
        omega
      simp [natOfBits, Nat.testBit_succ, h2, ih]

/-- Bits read into DATA: bit `k` is the `k`-th bit read, the bits above are 0 (R92, R98, R100, R102). -/
theorem getLsbD_dataOfBits (bs : List Bool) (h : bs.length ≤ 64) (k : Nat) :
    (dataOfBits bs).getLsbD k = bs.getD k false := by
  simp only [dataOfBits, BitVec.getLsbD_ofNat, testBit_natOfBits]
  by_cases hk : k < 64
  · simp [hk]
  · have : bs.length ≤ k := by omega
    simp [hk, this]

/-- Bit `j` of a value with bit `i` replaced (R126). -/
theorem getLsbD_withBit (v : DWord) (i j : Nat) (b : Bool) (hi : i < 64) :
    (withBit v i b).getLsbD j = if j = i then b else v.getLsbD j := by
  have h1 : ((1#64 <<< i) : DWord).getLsbD j = (decide (j < 64) && decide (j = i)) := by
    simp only [BitVec.getLsbD_shiftLeft, BitVec.getLsbD_one]
    by_cases hj : j < 64 <;> by_cases hji : j = i <;> (simp [hj, hji]; try omega)
  unfold withBit
  cases b
  · simp only [Bool.false_eq_true, if_false, BitVec.getLsbD_and, BitVec.getLsbD_not, h1]
    by_cases hj : j < 64
    · by_cases hji : j = i <;> simp [hj, hji]
    · rw [BitVec.getLsbD_of_ge _ _ (by omega)]
      simp
  · simp only [if_true, BitVec.getLsbD_or, h1]
    by_cases hji : j = i
    · simp [hji, hi]
    · simp [hji]

/-- The chosen branch is the rule's, for the ROM and LAST_DISC the position sees (R125). -/
theorem branchAt_eq (pos : Nat) (idb cmp : Bool) (s : State) :
    branchAt pos idb cmp s = ruleBranch s.lastDisc s.rom pos idb cmp := by
  cases idb <;> cases cmp <;> simp [branchAt, ruleBranch]

/-- A position changes `last_zero`, ROM and the line alone (R125, R126). -/
theorem takeBranch_eq (pos : Nat) (idb cmp : Bool) (s : State) :
    takeBranch pos idb cmp s = { s with
      lastZero := (takeBranch pos idb cmp s).lastZero
      rom := (takeBranch pos idb cmp s).rom
      wire := (takeBranch pos idb cmp s).wire } := rfl

/-- The bit loop changes `last_zero`, ROM and the line alone (R124 to R126). -/
theorem searchBits_eq (n pos : Nat) (s : State) :
    (searchBits n pos s).2 = { s with
      lastZero := (searchBits n pos s).2.lastZero
      rom := (searchBits n pos s).2.rom
      wire := (searchBits n pos s).2.wire } := by
  induction n generalizing pos s with
  | zero => rfl
  | succ n ih =>
    unfold searchBits
    dsimp only
    split
    · rfl
    · rw [ih]
      rfl

/-- A pass changes RESULT, BUSY, `seq`, PRESENCE, FOUND, SSTATE, the cursor, `last_zero`, the line and, on success, DATA:
nothing else (R130). -/
theorem searchPass_frame (c : Byte) (s : State) :
    (searchPass c s).errIllegal = s.errIllegal ∧ (searchPass c s).errOverrun = s.errOverrun ∧
      (searchPass c s).crc8 = s.crc8 ∧ (searchPass c s).crc16 = s.crc16 ∧
      (searchPass c s).crc16Poly = s.crc16Poly ∧ (searchPass c s).crc16Out = s.crc16Out ∧
      (searchPass c s).cmdLatch = s.cmdLatch ∧ (searchPass c s).agenda = s.agenda ∧
      (searchPass c s).hostReads = s.hostReads ∧ (searchPass c s).busy = false ∧ (searchPass c s).seq = .idle ∧
      (searchPass c s).wire.dqLow = false ∧ (searchPass c s).timing = s.timing := by
  unfold searchPass searchRest validateCandidate completePass
  dsimp only
  split
  · simp
  · split
    · simp
    · simp
    · split
      · next heq =>
        have h := congrArg Prod.snd heq
        rw [searchBits_eq] at h
        dsimp only at h
        rw [← h]
        simp
      · next heq =>
        have h := congrArg Prod.snd heq
        rw [searchBits_eq] at h
        dsimp only at h
        rw [← h]
        split <;> simp

/-- The alarm search differs from the normal one by its ROM command byte (R78, R130). -/
theorem exec_search_eq (s : State) :
    exec .srch s = .next (searchPass (searchByte .srch) { s with sstate := .searching }) ∧
      exec .srchA s = .next (searchPass (searchByte .srchA) { s with sstate := .searching }) ∧
      exec .ssel s = .next (searchPass (searchByte .ssel) { passStart .ssel s with sstate := .searching }) :=
  ⟨rfl, rfl, rfl⟩

end Sys2Proof.Machine
end

