-- ==== Sys2Proof/Laws/Agents.lean ====
section
/-! SUPPORT. What an instruction, a completion, a turn and a step can do, said once. -/

namespace Sys2Proof.Machine

/-- No instruction stops: each answers a next state (R134). -/
theorem exec_answers_next (i : Instr) (s : State) : ∃ t, exec i s = .next t := by
  cases i <;> exact ⟨_, rfl⟩

/-- A completion answers a next state: the latched instruction's, or the illegal word's (R137, R148). -/
theorem complete_cases (s : State) :
    (∃ i t, decodeWord s.cmdLatch = .ok i ∧ complete s = exec i s ∧ exec i s = .next t) ∨
      ∃ r, decodeWord s.cmdLatch = .error r ∧ complete s = .next (completeIllegal s) := by
  unfold complete
  cases h : decodeWord s.cmdLatch with
  | ok i =>
    obtain ⟨t, ht⟩ := exec_answers_next i s
    exact .inl ⟨i, t, rfl, rfl, ht⟩
  | error r => exact .inr ⟨r, rfl, rfl⟩

/-- What a turn that answers a next state did (R44, R45, R43, R148, R94, R151). -/
theorem takeTurn_cases {t : Turn} {s s' : State} (h : takeTurn t s = .next s') :
    (∃ off v, t = .hostWrite off .four v ∧ off.toNat % 4 = 0 ∧ s' = writeReg (regAt off) v s) ∨
    (∃ off, t = .hostRead off .four ∧ off.toNat % 4 = 0 ∧
      s' = { s with hostReads := s.hostReads ++ [readReg (regAt off) s] }) ∨
    (t = .complete ∧ s.busy = true ∧ complete s = .next s') ∨
    (t = .complete ∧ s.busy = false ∧ s' = s) ∨
    (∃ n, t = .elapse n ∧ s' = elapse n s) ∨
    (t = .blockReset ∧ s' = blockReset s) := by
  cases t with
  | hostWrite off width v =>
    simp only [takeTurn] at h
    split at h
    · next hg =>
      simp only [goodAccess, Bool.and_eq_true, decide_eq_true_eq, beq_iff_eq] at hg
      obtain ⟨rfl, ha⟩ := hg
      exact .inl ⟨off, v, rfl, ha, by simpa using h.symm⟩
    · cases h
  | hostRead off width =>
    simp only [takeTurn] at h
    split at h
    · next hg =>
      simp only [goodAccess, Bool.and_eq_true, decide_eq_true_eq, beq_iff_eq] at hg
      obtain ⟨rfl, ha⟩ := hg
      exact .inr (.inl ⟨off, rfl, ha, by simpa using h.symm⟩)
    · cases h
  | complete =>
    simp only [takeTurn] at h
    split at h
    · next hb => exact .inr (.inr (.inl ⟨rfl, hb, h⟩))
    · next hb => exact .inr (.inr (.inr (.inl ⟨rfl, by simpa using hb, by simpa using h.symm⟩)))
  | elapse n => exact .inr (.inr (.inr (.inr (.inl ⟨n, rfl, by simpa [takeTurn] using h.symm⟩))))
  | blockReset => exact .inr (.inr (.inr (.inr (.inr ⟨rfl, by simpa [takeTurn] using h.symm⟩))))

/-- What a step that answers a next state did: a turn, the completion of the running command, or nothing (R148). -/
theorem step_cases {s s' : State} (h : step s = .next s') :
    (∃ t rest, s.agenda = t :: rest ∧ takeTurn t { s with agenda := rest } = .next s') ∨
    (s.agenda = [] ∧ s.busy = true ∧ complete s = .next s') ∨
    (s.agenda = [] ∧ s.busy = false ∧ s' = s) := by
  unfold step at h
  split at h
  · next hn =>
    split at h
    · next hb => exact .inr (.inl ⟨hn, hb, h⟩)
    · next hb => exact .inr (.inr ⟨hn, by simpa using hb, by simpa using h.symm⟩)
  · next t rest hc => exact .inl ⟨t, rest, hc, h⟩

/-- What a host write can change (R44, R45). -/
theorem writeReg_cases (r : Reg) (v : Word) (s : State) :
    (s.busy = false ∧ r = .cmd ∧ writeReg r v s = drivePin (issue v s)) ∨
    (r = .status ∧ writeReg r v s = writeStatus v s) ∨
    (s.busy = false ∧ (r = .dataLo ∨ r = .dataHi) ∧ ∃ d, writeReg r v s = { s with data := d }) ∨
    (s.busy = false ∧ r = .crc16Poly ∧ writeReg r v s = { s with crc16Poly := v.extractLsb' 0 16 }) ∨
    (s.busy = true ∧ (r = .cmd ∨ r = .dataLo ∨ r = .dataHi ∨ r = .crc16Poly) ∧
      writeReg r v s = { s with errOverrun := true }) ∨
    ((r = .romLo ∨ r = .romHi ∨ r = .cursor ∨ r = .crc ∨ r = .crc16Out ∨ r = .reserved) ∧ writeReg r v s = s) := by
  cases hb : s.busy <;> cases r <;> simp [writeReg, writeRegIdle, writeRegBusy, hb]

/-- The timebase never goes back in a completion (R10). -/
theorem finish_instant (r : ResultCode) (s : State) : s.seq.reading ≤ (finish r s).instant := by
  simp only [State.instant, finish_wire, Wire.settle_now]
  omega

/-- Time on the line changes `seq`, `dq_low` and the timebase alone (R94, R95). -/
theorem elapse_cases (n : Nat) (s : State) :
    (s.seq = .idle ∧ elapse n s = { s with wire := s.wire.wait n }) ∨
      ∃ e b, s.seq = .running e ∧
        elapse n s = { s with seq := .running (e + n), wire := { s.wire with dqLow := b } } := by
  unfold elapse
  cases h : s.seq with
  | idle => exact .inl ⟨rfl, rfl⟩
  | running e => exact .inr ⟨e, _, rfl, rfl⟩

/-- A block reset keeps the line's history and environment, the turns to come and the host's reads alone (R38, R151). -/
theorem blockReset_eq (s : State) :
    blockReset s = { State.reset with
      wire := wireAfterReset s, timing := s.timing, agenda := s.agenda, hostReads := s.hostReads } := rfl

end Sys2Proof.Machine
end

