-- ==== Sys2Proof/Laws/Codes.lean ====
section
/-! SUPPORT. The fields of a command word, and the CRC functions over lists. -/

namespace Sys2Proof

/-- A command word bit by bit (R71). -/
theorem getLsbD_commandWord (s : Half) (b : Byte) (f : Bool) (op : BitVec 5) (i : Nat) :
    (commandWord s b f op).getLsbD i =
      if i < 5 then op.getLsbD i else if i = 5 then f else if i < 8 then false
      else if i < 16 then b.getLsbD (i - 8) else s.getLsbD (i - 16) := by
  change BitVec.getLsbD (w := 16 + 8 + 2 + 1 + 5) (s ++ b ++ 0#2 ++ BitVec.ofBool f ++ op) i = _
  rw [BitVec.getLsbD_append, BitVec.getLsbD_append, BitVec.getLsbD_append, BitVec.getLsbD_append]
  by_cases h1 : i < 5
  · simp [h1]
  by_cases h2 : i = 5
  · subst h2; cases f <;> simp
  have h3 : ¬ i - 5 < 1 := by omega
  by_cases h4 : i < 8
  · have h5 : i - 5 - 1 < 2 := by omega
    simp [h1, h2, h3, h4, h5]
  have h5 : ¬ i - 5 - 1 < 2 := by omega
  have h7 : i - 5 - 1 - 2 = i - 8 := by omega
  have h9 : i - 8 - 8 = i - 16 := by omega
  by_cases h6 : i < 16
  · have h8 : i - 8 < 8 := by omega
    simp [h1, h2, h3, h4, h5, h6, h7, h8]
  have h8 : ¬ i - 8 < 8 := by omega
  simp [h1, h2, h3, h4, h5, h6, h7, h8, h9]

theorem opField_commandWord (s : Half) (b : Byte) (f : Bool) (op : BitVec 5) : opField (commandWord s b f op) = op := by
  apply BitVec.eq_of_getLsbD_eq
  intro i hi
  rw [opField, BitVec.getLsbD_extractLsb', getLsbD_commandWord]
  simp [hi]

theorem f0Field_commandWord (s : Half) (b : Byte) (f : Bool) (op : BitVec 5) : f0Field (commandWord s b f op) = f := by
  rw [f0Field, getLsbD_commandWord]
  simp

theorem reservedField_commandWord (s : Half) (b : Byte) (f : Bool) (op : BitVec 5) :
    reservedField (commandWord s b f op) = 0 := by
  apply BitVec.eq_of_getLsbD_eq
  intro i hi
  rw [reservedField, BitVec.getLsbD_extractLsb', getLsbD_commandWord]
  obtain rfl | rfl : i = 0 ∨ i = 1 := by omega
  all_goals simp

theorem imm8Field_commandWord (s : Half) (b : Byte) (f : Bool) (op : BitVec 5) : imm8Field (commandWord s b f op) = b := by
  apply BitVec.eq_of_getLsbD_eq
  intro i hi
  have h1 : ¬ 8 + i < 5 := by omega
  have h2 : ¬ 8 + i = 5 := by omega
  have h3 : 8 + i < 16 := by omega
  rw [imm8Field, BitVec.getLsbD_extractLsb', getLsbD_commandWord]
  simp [hi, h1, h2, h3]

theorem imm16Field_commandWord (s : Half) (b : Byte) (f : Bool) (op : BitVec 5) :
    imm16Field (commandWord s b f op) = s := by
  apply BitVec.eq_of_getLsbD_eq
  intro i hi
  have h1 : ¬ 16 + i < 5 := by omega
  have h2 : ¬ 16 + i = 5 := by omega
  have h3 : ¬ 16 + i < 8 := by omega
  rw [imm16Field, BitVec.getLsbD_extractLsb', getLsbD_commandWord]
  simp [hi, h1, h2, h3]

end Sys2Proof

namespace Sys2Proof.Machine

/-- One more byte is one more step (R106). -/
theorem crc8_append (d : List Byte) (b : Byte) : crc8 (d ++ [b]) = crc8Step (crc8 d) b := by
  simp [crc8, List.foldl_append]

/-- One more byte is one more step (R109). -/
theorem crc16_append (d : List Byte) (b : Byte) (seed poly : Half) (ri : Bool) :
    crc16 (d ++ [b]) seed poly ri false = crc16Step poly (crc16 d seed poly ri false) b := by
  simp [crc16, crc16Final, List.foldl_append]

/-- `reflect_out` inverts the plain result (R109). -/
theorem crc16_reflect_out (d : List Byte) (seed poly : Half) (ri : Bool) :
    crc16 d seed poly ri true = crc16 d seed poly ri false ^^^ 0xFFFF := by
  simp [crc16, crc16Final]

end Sys2Proof.Machine
end

