-- ==== Sys2Proof/Laws/PerInstr.lean ====
section
/-! SUPPORT. A statement about every instruction as syntax, made per instruction: a command word has its reserved bits 7:6
zero (30_encoding.md R71), and a wire ROM command byte has no bit above its eight (R79). -/

namespace Sys2Proof.Laws.EncodedForm

/-- The encoded form of an instruction. -/
def Statement (i : Instr) : Prop :=
  if i.isCommand then reservedField (encode i) = 0 else (encode i).toNat < 2 ^ 8

theorem reset : Statement .reset := reservedField_commandWord _ _ _ _
theorem wbit (b : Bool) : Statement (.wbit b) := reservedField_commandWord _ _ _ _
theorem rbit : Statement .rbit := reservedField_commandWord _ _ _ _
theorem w8 (b : Byte) : Statement (.w8 b) := reservedField_commandWord _ _ _ _
theorem r8 : Statement .r8 := reservedField_commandWord _ _ _ _
theorem w64 : Statement .w64 := reservedField_commandWord _ _ _ _
theorem r64 : Statement .r64 := reservedField_commandWord _ _ _ _
theorem select : Statement .select := reservedField_commandWord _ _ _ _
theorem skip : Statement .skip := reservedField_commandWord _ _ _ _
theorem srst : Statement .srst := reservedField_commandWord _ _ _ _
theorem srch : Statement .srch := reservedField_commandWord _ _ _ _
theorem srchA : Statement .srchA := reservedField_commandWord _ _ _ _
theorem ssel : Statement .ssel := reservedField_commandWord _ _ _ _
theorem c8i : Statement .c8i := reservedField_commandWord _ _ _ _
theorem c8b (b : Byte) : Statement (.c8b b) := reservedField_commandWord _ _ _ _
theorem c16i (s : Half) : Statement (.c16i s) := reservedField_commandWord _ _ _ _
theorem c16iRefin : Statement .c16iRefin := reservedField_commandWord _ _ _ _
theorem c16b (b : Byte) : Statement (.c16b b) := reservedField_commandWord _ _ _ _
theorem c16f : Statement .c16f := reservedField_commandWord _ _ _ _
theorem c16fRefout : Statement .c16fRefout := reservedField_commandWord _ _ _ _
theorem c8d : Statement .c8d := reservedField_commandWord _ _ _ _
theorem c16d : Statement .c16d := reservedField_commandWord _ _ _ _
theorem romSearch : Statement .romSearch := by unfold Statement; decide
theorem romAlarmSearch : Statement .romAlarmSearch := by unfold Statement; decide
theorem romMatch : Statement .romMatch := by unfold Statement; decide
theorem romSkip : Statement .romSkip := by unfold Statement; decide
theorem romRead : Statement .romRead := by unfold Statement; decide

end Sys2Proof.Laws.EncodedForm
end

