-- ==== Sys2Proof/Tests/Slice0.lean ====
section
/-! SUPPORT. The model's own tests: well-formedness, decoding, one step each from the vectors of 95_test_vectors.md, and a
witness for the hypotheses of every statement that has some. Expected values are the spec's. -/

namespace Sys2Proof.Tests

open Sys2Proof Sys2Proof.Machine

-- One test after the other: many waiting at once take a thread each.
set_option Elab.async false

/-! ### Well-formedness: each check refuses an ill-formed term -/

/-- A wire ROM command byte is no CMD command (R78). -/
theorem test_wf_rom_byte_is_no_command : Instr.isCommand .romRead = false := by decide

/-- The check accepts a command. -/
theorem test_wf_command_accepted : Instr.WellFormed (.w8 0xCC) := by decide

/-- R81: b > 0xFF does not fit. -/
theorem test_wf_byte_too_wide : AsmLine.wellFormed ⟨.W8, some 0x100⟩ = false := by decide

/-- R81: s > 0xFFFF does not fit. -/
theorem test_wf_seed_too_wide : AsmLine.wellFormed ⟨.C16I, some 0x10000⟩ = false := by decide

/-- R81: `WBIT` takes 0 or 1. -/
theorem test_wf_bit_too_wide : AsmLine.wellFormed ⟨.WBIT, some 2⟩ = false := by decide

/-- R81: `W8` has an immediate. -/
theorem test_wf_missing_immediate : AsmLine.wellFormed ⟨.W8, none⟩ = false := by decide

/-- R81: `RESET` has none. -/
theorem test_wf_superfluous_immediate : AsmLine.wellFormed ⟨.RESET, some 0⟩ = false := by decide

/-! ### Decoding: words written out from R71, R72 and R81, every constructor once -/

/-- OP 0x01, no operand. -/
theorem test_decode_reset : decodeWord 0b0000000000000000_00000000_00_0_00001 = .ok .reset := by decide
/-- OP 0x02, F0 = 1. -/
theorem test_decode_wbit : decodeWord 0b0000000000000000_00000000_00_1_00010 = .ok (.wbit true) := by decide
/-- OP 0x03. -/
theorem test_decode_rbit : decodeWord 0b0000000000000000_00000000_00_0_00011 = .ok .rbit := by decide
/-- OP 0x04, IMM8 = 0x01 (V-E3). -/
theorem test_decode_w8 : decodeWord 0b0000000000000000_00000001_00_0_00100 = .ok (.w8 0x01) := by decide
/-- OP 0x05. -/
theorem test_decode_r8 : decodeWord 0b0000000000000000_00000000_00_0_00101 = .ok .r8 := by decide
/-- OP 0x06. -/
theorem test_decode_w64 : decodeWord 0b0000000000000000_00000000_00_0_00110 = .ok .w64 := by decide
/-- OP 0x07. -/
theorem test_decode_r64 : decodeWord 0b0000000000000000_00000000_00_0_00111 = .ok .r64 := by decide
/-- OP 0x08. -/
theorem test_decode_select : decodeWord 0b0000000000000000_00000000_00_0_01000 = .ok .select := by decide
/-- OP 0x09. -/
theorem test_decode_skip : decodeWord 0b0000000000000000_00000000_00_0_01001 = .ok .skip := by decide
/-- OP 0x10. -/
theorem test_decode_srst : decodeWord 0b0000000000000000_00000000_00_0_10000 = .ok .srst := by decide
/-- OP 0x11, F0 = 0. -/
theorem test_decode_srch : decodeWord 0b0000000000000000_00000000_00_0_10001 = .ok .srch := by decide
/-- OP 0x11, F0 = 1 (V-E8). -/
theorem test_decode_srchA : decodeWord 0b0000000000000000_00000000_00_1_10001 = .ok .srchA := by decide
/-- OP 0x12. -/
theorem test_decode_ssel : decodeWord 0b0000000000000000_00000000_00_0_10010 = .ok .ssel := by decide
/-- OP 0x18. -/
theorem test_decode_c8i : decodeWord 0b0000000000000000_00000000_00_0_11000 = .ok .c8i := by decide
/-- OP 0x19, IMM8 = 0xFF (V-E4). -/
theorem test_decode_c8b : decodeWord 0b0000000000000000_11111111_00_0_11001 = .ok (.c8b 0xFF) := by decide
/-- OP 0x1A, IMM16 = 0x1234 (V-E5). -/
theorem test_decode_c16i : decodeWord 0b0001001000110100_00000000_00_0_11010 = .ok (.c16i 0x1234) := by decide
/-- OP 0x1A, F0 = 1 (V-E6). -/
theorem test_decode_c16iRefin : decodeWord 0b0000000000000000_00000000_00_1_11010 = .ok .c16iRefin := by decide
/-- OP 0x1B, IMM8 = 0xA5 (P4). -/
theorem test_decode_c16b : decodeWord 0b0000000000000000_10100101_00_0_11011 = .ok (.c16b 0xA5) := by decide
/-- OP 0x1C, F0 = 0. -/
theorem test_decode_c16f : decodeWord 0b0000000000000000_00000000_00_0_11100 = .ok .c16f := by decide
/-- OP 0x1C, F0 = 1 (V-E7). -/
theorem test_decode_c16fRefout : decodeWord 0b0000000000000000_00000000_00_1_11100 = .ok .c16fRefout := by decide
/-- OP 0x1D. -/
theorem test_decode_c8d : decodeWord 0b0000000000000000_00000000_00_0_11101 = .ok .c8d := by decide
/-- OP 0x1E. -/
theorem test_decode_c16d : decodeWord 0b0000000000000000_00000000_00_0_11110 = .ok .c16d := by decide
/-- The five wire bytes of R79. -/
theorem test_decode_rom_bytes :
    [decodeTableWord 8 0b11110000, decodeTableWord 8 0b11101100, decodeTableWord 8 0b01010101,
      decodeTableWord 8 0b11001100, decodeTableWord 8 0b00110011] =
    [some .romSearch, some .romAlarmSearch, some .romMatch, some .romSkip, some .romRead] := by decide

/-- Unassigned OPs (V-E9 to V-E12). -/
theorem test_decode_unassigned :
    [0x00000000, 0x0000000A, 0x00000013, 0x0000001F, 0x000000FF].map illegalCase =
      List.replicate 5 (some .unassignedOp) := by decide

/-- Reserved bits (V-E13 to V-E15). -/
theorem test_decode_reserved :
    [0x00000042, 0x00000081, 0x0000005C].map illegalCase = List.replicate 3 (some .reservedBits) := by decide

/-- Unused fields (V-E16 to V-E21). -/
theorem test_decode_unused :
    [0x00000023, 0x00000032, 0x00000105, 0x0000013A, 0x00010019, 0x80000001].map illegalCase =
      List.replicate 6 (some .unusedField) := by decide

/-- A seed with reflect_in (V-E22). -/
theorem test_decode_seed_refin : decodeWord 0x0001003A = .error .seedWithReflectIn := by decide

/-- R81: the assembler's word of `W8 #0xCC` (R99). -/
theorem test_assemble_w8 : assemble ⟨.W8, some 0xCC⟩ = some 0x0000CC04 := by decide

/-! ### Small states -/

/-- The addresses A, B, C and Z of 95_test_vectors.md section 0. -/
def addrA : DWord := 0x5700000433221128
/-- Address B. -/
def addrB : DWord := 0x3500008433221128
/-- Address C. -/
def addrC : DWord := 0xF100018433221128
/-- Address Z, family byte 0. -/
def addrZ : DWord := 0x3700000000000100

/-- A fixture device (R55). -/
def dev (rom : DWord) (alerting : Bool := false) : Device := Device.fixture rom alerting []

/-- The reset state with an environment. -/
def withEnv (e : Env) : State := { State.reset with wire := { Wire.initial with env := e } }

/-- The reset state on a reference bus. -/
def onBus (ds : List Device) : State := withEnv (.bus ⟨ds, false⟩)

/-- The reset state with given draws. -/
def onDraws (tape : List Bool) : State := withEnv (.draws tape 0)

/-- The reset state with a word issued. -/
def issued (w : Word) : State := issue w State.reset

/-- Does the outcome give a next state with this property? -/
def nextIs (o : Outcome) (p : State → Bool) : Bool :=
  match o with
  | .next t => p t
  | .fault _ => false
  | .refused _ => false

/-! ### One step each -/

/-- V-R1: reset values as the host reads them. -/
theorem test_reset_words :
    [readReg .cmd .reset, readReg .status .reset, readReg .cursor .reset, readReg .crc .reset,
      readReg .crc16Poly .reset, readReg .crc16Out .reset] = [0, 0, 0, 0, 0x0000A001, 0] := by decide

/-- V-R2: DATA_HI keeps the low half. -/
theorem test_write_data_hi :
    (writeReg .dataHi 0x35000084 { State.reset with data := addrA }).data = addrB := by decide

/-- V-R3: CRC16_POLY is 16 bits wide. -/
theorem test_write_poly : readReg .crc16Poly (writeReg .crc16Poly 0xFFFF8408 State.reset) = 0x00008408 := by decide

/-- V-R5: STATUS 0x362, write 0x100. -/
theorem test_status_w1c :
    statusWord (writeReg .status 0x00000100
      { State.reset with presence := true, result := .illegal, errIllegal := true, errOverrun := true }) =
      0x00000262 := by decide

/-- V-R7: a busy write to CMD is dropped and sets ERR_OVERRUN. -/
theorem test_busy_write_dropped :
    writeReg .cmd 0x00000011 (issued 0x00000001) = { issued 0x00000001 with errOverrun := true } := by decide

/-- V-R9: BUSY and SSTATE are live, the other fields are from before the command. -/
theorem test_live_fields :
    cursorWord (issue 0x00000011 { State.reset with lastDisc := 40, sstate := .found }) = 0x00001028 ∧
      statusWord (issue 0x00000011 { State.reset with presence := true, found := true }) = 0x00000007 := by decide

/-- R41: a byte access is refused. -/
theorem test_byte_access_refused :
    takeTurn (.hostRead 0x04 .one) State.reset = .refused .badHostAccess := by rfl

/-- V-T1: one device, line idle. -/
theorem test_reset_present :
    nextIs (exec .reset (onBus [dev addrA])) (fun t => statusWord t == 0x00000002 &&
      t.wire.trace == [.poll true, .rst false]) = true := by decide +kernel

/-- V-T4: polls 0, 0, 0, 1, presence 0. -/
theorem test_reset_fourth_poll :
    nextIs (exec .reset (onDraws [false, false, false, true, false])) (fun t => statusWord t == 0x00000002 &&
      t.wire.trace == [.poll false, .poll false, .poll false, .poll true, .rst false]) = true := by decide +kernel

/-- V-T13: `WBIT 0` is low from 0 to 60. -/
theorem test_wbit_waveform :
    nextIs (exec (.wbit false) State.reset) (fun t => t.wire.wave == [.low 0, .release 60]) = true := by
  decide +kernel

/-- R3, R84: another valid set of timing parameters gives another waveform. -/
theorem test_wbit_other_timing :
    nextIs (exec (.wbit true) { State.reset with timing := ⟨500, 75, 405, 65, 5, 8, 60, 9, 14, 3, 10⟩ }) (fun t =>
      t.wire.wave == [.low 0, .release 8]) = true := by decide +kernel

/-- R3, R87: `N_IDLE_POLLS` = 3 is the whole budget of polls. -/
theorem test_reset_other_budget :
    nextIs (exec .reset { onDraws [false, false, false, true] with timing := { Timing.nominal with nIdlePolls := 3 } })
      (fun t => t.result == .busStuck && t.wire.trace == [.poll false, .poll false, .poll false]) = true := by
  decide +kernel

/-- R55: a fixture starts in `Idle` with empty logs. -/
theorem test_fixture :
    (State.onFixture [(addrA, true, [false])] false).wire.env =
      .bus ⟨[{ rom := addrA, alerting := true, resp := [false], log := [], st := .idle }], false⟩ := by decide +kernel

/-- R63: a device takes its function byte, then plays back 0, 1 and is used up. -/
theorem test_playback :
    nextIs (exec .r8 (onBus [{ dev addrA with st := .respond, resp := [false, true] }])) (fun t =>
      t.data == 0xFE && t.wire.env == .bus ⟨[{ dev addrA with
        st := .respond, log := [true, true, true, true, true, true] }], false⟩) = true := by decide +kernel

/-- V-T10: the whole of DATA is written. -/
theorem test_rbit_zero :
    nextIs (exec .rbit { onDraws [false] with data := 0xFFFFFFFFFFFFFFFF }) (fun t => t.data == 0) = true := by
  decide +kernel

/-- V-T13: `RBIT` is low from 0 to 6 and sampled at 15. -/
theorem test_rbit_waveform :
    nextIs (exec .rbit (onDraws [true])) (fun t => t.wire.wave == [.low 0, .release 6, .sample 15 true]) = true := by
  decide +kernel

/-- V-K1: `W8 #0xA5`. -/
theorem test_w8_order :
    nextIs (exec (.w8 0xA5) State.reset) (fun t => t.wire.trace ==
      [.write true, .write false, .write true, .write false, .write false, .write true, .write false,
        .write true]) = true := by decide +kernel

/-- V-K5: draws 0,0,0,0,1,0,1,0. -/
theorem test_r8_order :
    nextIs (exec .r8 { onDraws [false, false, false, false, true, false, true, false] with
      data := 0xFFFFFFFFFFFFFFFF }) (fun t => t.data == 0x50) = true := by decide +kernel

/-- V-K6: the first 16 slots of `W64` send the bytes EF, CD. -/
theorem test_w64_order :
    nextIs (exec .w64 { State.reset with data := 0x0123456789ABCDEF }) (fun t => t.wire.trace.take 16 ==
      [true, true, true, true, false, true, true, true, true, false, true, true, false, false, true, true].map
        .write && t.wire.trace.length == 64) = true := by decide +kernel

/-- V-K7: `R64` on an empty bus. -/
theorem test_r64_empty : nextIs (exec .r64 (onBus [])) (fun t => t.data == 0xFFFFFFFFFFFFFFFF) = true := by
  decide +kernel

/-- R103: `SELECT` sends 0x55, then the family code 0x28 of A, 72 slots in all. -/
theorem test_select_order :
    nextIs (exec .select { State.reset with data := addrA }) (fun t => t.wire.trace.take 16 ==
      [true, false, true, false, true, false, true, false, false, false, false, true, false, true, false, false].map
        .write && t.wire.trace.length == 72) = true := by decide +kernel

/-- V-K9: `SKIP` after a reset sends every device to its function phase. -/
theorem test_skip_devices :
    nextIs (exec .skip (onBus [{ dev addrA with st := .cmd 0 0 }])) (fun t =>
      t.wire.env == .bus ⟨[{ dev addrA with st := .func 0 0 }], false⟩) = true := by decide +kernel

/-- R59: each ROM command byte, on a device that is not alerting, just after a reset. -/
theorem test_rom_bytes_devices :
    (([(Instr.romSearch, DeviceState.search 0 .bit), (.romAlarmSearch, .off), (.romMatch, .matching 0),
      (.romSkip, .func 0 0), (.romRead, .readRom 0)] : List (Instr × DeviceState)).all fun x =>
      nextIs (exec x.1 (onBus [{ dev addrA with st := .cmd 0 0 }])) fun t =>
        t.wire.env == .bus ⟨[{ dev addrA with st := x.2 }], false⟩) = true := by decide +kernel

/-- V-C1: `C8I` keeps CRC16. -/
theorem test_c8i :
    nextIs (exec .c8i { State.reset with crc8 := 0x5E, crc16 := 0xBB3D }) (fun t => crcWord t == 0xBB3D0000) = true := by
  decide +kernel

/-- V-C2: `C8B #0x01`. -/
theorem test_c8b : nextIs (exec (.c8b 0x01) State.reset) (fun t => t.crc8 == 0x5E) = true := by decide +kernel

/-- V-C4: `C8D` uses DATA[7:0] alone. -/
theorem test_c8d :
    nextIs (exec .c8d { State.reset with data := 0x0000000000000123 }) (fun t => t.crc8 == 0xC1) = true := by
  decide +kernel

/-- V-C13: `C16I #0x1234`. -/
theorem test_c16i : nextIs (exec (.c16i 0x1234) State.reset) (fun t => t.crc16 == 0x1234) = true := by decide +kernel

/-- R114: `C16I.REFIN`. -/
theorem test_c16iRefin : nextIs (exec .c16iRefin State.reset) (fun t => t.crc16 == 0xFFFF) = true := by decide +kernel

/-- V-C13: `C16B #0x00` on 0x1234. -/
theorem test_c16b :
    nextIs (exec (.c16b 0x00) { State.reset with crc16 := 0x1234 }) (fun t => t.crc16 == 0xD713) = true := by
  decide +kernel

/-- V-C17: `C16D` uses byte 0x23. -/
theorem test_c16d :
    nextIs (exec .c16d { State.reset with data := 0x0000000000000123 }) (fun t => t.crc16 == 0xD941) = true := by
  decide +kernel

/-- V-C12: `C16F` and `C16F.REFOUT` on 0xBB3D. -/
theorem test_c16f :
    nextIs (exec .c16f { State.reset with crc16 := 0xBB3D }) (fun t => t.crc16Out == 0xBB3D) = true ∧
      nextIs (exec .c16fRefout { State.reset with crc16 := 0xBB3D }) (fun t => t.crc16Out == 0x44C2) = true := by
  decide +kernel

/-- V-C7, V-C14: the check values over "123456789". -/
theorem test_crc_check_values :
    crc8 [0x31, 0x32, 0x33, 0x34, 0x35, 0x36, 0x37, 0x38, 0x39] = 0xA1 ∧
      crc16 [0x31, 0x32, 0x33, 0x34, 0x35, 0x36, 0x37, 0x38, 0x39] 0 0x8408 false false = 0x2189 := by decide +kernel

/-- V-S20: `SRST` after V-S3. -/
theorem test_srst :
    nextIs (exec .srst { State.reset with lastDev := true, rom := addrC, sstate := .found, found := true }) (fun t =>
      cursorWord t == 0 && t.rom == 0 && statusWord t == 0) = true := by decide +kernel

/-- V-S1: the first pass on {A, B, C}. -/
theorem test_srch_first_pass :
    nextIs (exec .srch (onBus [dev addrA, dev addrB, dev addrC])) (fun t => statusWord t == 0x00000006 &&
      t.data == addrA && t.rom == addrA && cursorWord t == 0x00002028) = true := by decide +kernel

/-- V-S2: the second pass takes branch 1 at position 40 and leaves 41. -/
theorem test_srch_second_pass :
    nextIs (exec .srch { onBus [dev addrA, dev addrB, dev addrC] with rom := addrA, lastDisc := 40 }) (fun t =>
      t.data == addrB && cursorWord t == 0x00002029) = true := by decide +kernel

/-- V-S6: the alarm search finds the one alerting device. -/
theorem test_srchA :
    nextIs (exec .srchA (onBus [dev addrA, dev addrB true, dev addrC])) (fun t =>
      t.data == addrB && cursorWord t == 0x00002100) = true := by decide +kernel

/-- V-S7: no alerting device. -/
theorem test_srchA_none :
    nextIs (exec .srchA (onBus [dev addrA, dev addrB])) (fun t => statusWord t == 0x00000032 &&
      cursorWord t == 0x00003000 && t.wire.trace.length == 12) = true := by decide +kernel

/-- V-S8: `SSEL` follows the primed address past an alerting A. -/
theorem test_ssel :
    nextIs (exec .ssel { onBus [dev addrA true, dev addrB true, dev addrC] with data := addrB }) (fun t =>
      statusWord t == 0x00000006 && t.rom == addrB && cursorWord t == 0x00002100) = true := by decide +kernel

/-- V-S11: no alerting device, DATA keeps the address. -/
theorem test_ssel_none :
    nextIs (exec .ssel { onBus [dev addrA, dev addrB] with data := addrB }) (fun t =>
      statusWord t == 0x00000032 && t.data == addrB && t.rom == 0) = true := by decide +kernel

/-- V-S16: a zero family byte. -/
theorem test_srch_zero_family :
    nextIs (exec .srch (onBus [dev addrZ])) (fun t => statusWord t == 0x00000042 && t.data == 0 &&
      cursorWord t == 0x00003000) = true := by decide +kernel

/-- V-X1: an illegal word completes. -/
theorem test_illegal_word :
    nextIs (step { issue 0x00000042 { State.reset with presence := true } with agenda := [] }) (fun t =>
      statusWord t == 0x00000162 && t.wire.trace == []) = true := by decide +kernel

/-- V-X4: during position 10 of a search on {A, B, C} the trace shows 2 events of the bus reset and 35 slots, and the
devices are in their search, before and after the truncated read slot. -/
theorem test_block_reset_mid_search :
    (let s := { issue 0x00000011 (onBus [dev addrA, dev addrB, dev addrC]) with seq := .running (962 + 70 * 35 + 30) }
     (s.wire.env.afterAll (eventsDone s) == .bus ⟨[addrA, addrB, addrC].map fun a =>
         { dev a with st := .search 9 .bit }, false⟩ && (eventsDone s).length == 37 &&
       cutEvent s == some (.read, true) &&
       (({ dev addrA with st := .search 9 .bit } : Device).afterCut .read).st == .search 9 .cmp)) = true := by
  decide +kernel

/-- R10: a completion that comes after the command's own time does not take the timebase back. -/
theorem test_late_completion (s : State) :
    1000 ≤ (finish .ok { s with seq := .running 1000 }).wire.now := by
  simp only [finish_wire, Wire.settle_now, Seq.reading_running]
  omega

/-- V-X4: the trace ends with a truncated slot, the line is released, the registers have their reset values. -/
theorem test_block_reset_truncates :
    nextIs (takeTurn .blockReset { issue 0x00000003 (onDraws [true]) with data := 7, seq := .running 30 })
      (fun t => t.wire.trace == [.cut .read] && t.wire.env == .draws [] 1 && t.wire.dqLow == false && t.data == 0 &&
        statusWord t == 0) = true := by
  decide +kernel

/-- R64, R83: `R64` on two devices in their ReadRom state reads the AND (V-K11). -/
theorem test_r64_two_devices :
    nextIs (exec .r64 (onBus [{ dev addrA with st := .readRom 0 }, { dev addrB with st := .readRom 0 }])) (fun t =>
      t.data == 0x1500000433221128) = true := by decide +kernel

/-! ### Witnesses: each hypothesis of a statement is met by a concrete state -/

/-- EncodeOfDecodeIsTheWord. -/
theorem witness_legal_word : decodeWord 0x0000CC04 = .ok (.w8 0xCC) := by decide

/-- IllegalWordsAndTheirEffect. -/
theorem witness_illegal_latched : decodeWord (issued 0x0001003A).cmdLatch = .error .seedWithReflectIn := by decide

/-- AssemblerGivesTheWordOfTheLine: a line of each kind, at the boundary 0xFF. -/
theorem witness_lines :
    AsmLine.wellFormed ⟨.C8B, some 0xFF⟩ = true ∧ AsmLine.wellFormed ⟨.C8B, some 0x100⟩ = false := by decide

/-- StepRunsTheLatchedCommand: no turn left, a `complete` turn, and the words and wire bytes of the table. -/
theorem witness_step_runs :
    (issued 0x00000001).busy = true ∧ decodeWord (issued 0x00000001).cmdLatch = .ok .reset ∧
      (issued 0x00000001).agenda = [] ∧
      ({ issued 0x00000001 with agenda := [.complete] } : State).agenda = [.complete] ∧
      decodeRomByte 0x33 = some .romRead := by decide

/-- BlockResetSetsEveryRegister: both ways. -/
theorem witness_block_reset : takeTurn .blockReset (issued 0x00000001) = .next (blockReset (issued 0x00000001)) := rfl

/-- EveryStepKeepsTheInvariant: a busy search that meets the invariant and steps. -/
theorem witness_invariant_step :
    (let s := issued 0x00000011
     s.lastDisc.toNat ≤ 64 ∧ s.lastZero.toNat ≤ 64 ∧ s.busy = true ∧ s.seq = .running 0 ∧ s.sstate = .searching ∧
       isSearchWord s.cmdLatch = true) ∧ ∃ t, step (issued 0x00000011) = .next t := ⟨by decide, _, rfl⟩

/-- BlockResetAbandonsTheCommand: idle, and with a command running. -/
theorem witness_block_reset_turn :
    ({ State.reset with agenda := [.blockReset] } : State).seq = .idle ∧
      ({ issued 0x00000001 with agenda := [.blockReset] } : State).seq ≠ .idle ∧
      decodeWord (issued 0x00000001).cmdLatch = .ok .reset ∧
      ∃ u, exec .reset { issued 0x00000001 with agenda := [.blockReset] } = .next u := ⟨by decide, by decide, by decide, _, rfl⟩

/-- HostWritesWhileIdle, CmdWriteIssuesTheCommand: an idle state with each write next. -/
theorem witness_idle_writes (r : Reg) :
    ({ State.reset with agenda := [st r 0xFFFFFFFF] } : State).busy = false ∧
      ({ State.reset with agenda := [st r 0xFFFFFFFF] } : State).agenda = [st r 0xFFFFFFFF] := ⟨rfl, rfl⟩

/-- HostWritesWhileBusy: a busy state with each write next. -/
theorem witness_busy_writes (r : Reg) :
    ({ issued 0x00000001 with agenda := [st r 0x00000300] } : State).busy = true ∧
      ({ issued 0x00000001 with agenda := [st r 0x00000300] } : State).agenda = [st r 0x00000300] := ⟨rfl, rfl⟩

/-- HostReadsHaveNoSideEffect and ReservedOffsets: the offsets 0x00, 0x28 and 0x3C, read and written. -/
theorem witness_offsets :
    (0x00 : BitVec 6).toNat % 4 = 0 ∧ 0x28 ≤ (0x28 : BitVec 6).toNat ∧ (0x28 : BitVec 6).toNat % 4 = 0 ∧
      0x28 ≤ (0x3C : BitVec 6).toNat ∧ (0x3C : BitVec 6).toNat % 4 = 0 ∧
      ({ State.reset with agenda := [.hostRead 0x3C .four, .hostWrite 0x28 .four 1] } : State).agenda =
        .hostRead 0x3C .four :: [.hostWrite 0x28 .four 1] := by decide

/-- HostReadsHaveNoSideEffect: the first and the last offset of the register map. -/
theorem witness_register_map :
    ({ State.reset with agenda := [.hostRead 0x00 .four, .hostRead 0x24 .four] } : State).agenda =
        .hostRead 0x00 .four :: [.hostRead 0x24 .four] ∧
      ((0x24 : BitVec 6), Reg.crc16Out) ∈ [((0x00 : BitVec 6), Reg.cmd), (0x24, .crc16Out)] := by decide

/-- R40: `ld ROM_HI` reads the high half of ROM, from offset 0x14. -/
theorem test_load_rom_hi :
    nextIs (takeTurn (.hostRead 0x14 .four) { State.reset with rom := addrC }) (fun t => t.hostReads == [0xF1000184]) =
      true := by decide +kernel

/-- OnlyABadHostAccessIsRefused: a bad width and a bad offset. -/
theorem witness_bad_access :
    step { State.reset with agenda := [.hostWrite 0x08 .eight 0] } = .refused .badHostAccess ∧
      step { State.reset with agenda := [.hostRead 0x06 .four] } = .refused .badHostAccess := ⟨rfl, rfl⟩

/-- CmdWriteIssuesTheCommand: a search word, another legal word, an illegal word, and a read of CMD. -/
theorem witness_issue_words :
    decodeWord 0x00000012 = .ok .ssel ∧ IsSearch .ssel ∧ ¬ IsSearch .reset ∧
      decodeWord 0x00000042 = .error .reservedBits ∧
      ({ State.reset with agenda := [ld .cmd] } : State).agenda = ld .cmd :: [] :=
  ⟨by decide, .inr (.inr rfl), by simp [IsSearch], by decide, rfl⟩

/-- NothingIsVisibleBeforeCompletion: busy before and after a dropped write. -/
theorem witness_stays_busy :
    (issued 0x00000001).busy = true ∧
      step { issued 0x00000001 with agenda := [st .dataLo 1] } = .next { issued 0x00000001 with errOverrun := true } ∧
      ({ issued 0x00000001 with errOverrun := true } : State).busy = true := ⟨rfl, rfl, rfl⟩

/-- OnlyACmdWriteStartsACommand: idle before, busy after. -/
theorem witness_becomes_busy :
    State.reset.busy = false ∧
      step { State.reset with agenda := [st .cmd 1] } = .next (drivePin (issued 1)) ∧
      (drivePin (issued 1)).busy = true := ⟨rfl, rfl, rfl⟩

/-- ErrorFlagsAreSticky: set and cleared, ERR_ILLEGAL by an illegal word and bit 8, ERR_OVERRUN by a drop and bit 9. -/
theorem witness_error_flags :
    nextIs (step (issued 0x00000042)) (fun t => t.errIllegal && !t.busy) = true ∧
      nextIs (step { State.reset with errIllegal := true, errOverrun := true, agenda := [st .status 0x00000300] })
        (fun t => !t.errIllegal && !t.errOverrun) = true ∧
      nextIs (step { issued 0x00000001 with agenda := [st .crc16Poly 0] }) (fun t => t.errOverrun) = true := by
  decide +kernel

/-- V-R8: a busy write to STATUS clears a flag and nothing else. -/
theorem test_busy_status_write :
    writeReg .status 0x00000100 { issued 0x00000001 with errIllegal := true, errOverrun := true } =
      { issued 0x00000001 with errIllegal := false, errOverrun := true } := by decide

/-- HostWritesDoNotDisturbACommand: a legal word, and an illegal one that completes. -/
theorem witness_disturb_status :
    decodeWord (issued 0x00000001).cmdLatch = .ok .reset ∧ (issued 0x00000042).busy = true ∧
      decodeWord (issued 0x00000042).cmdLatch = .error .reservedBits ∧
      ∃ t, complete (issued 0x00000042) = .next t := ⟨by decide, rfl, by decide, _, rfl⟩

/-- BlockResetAbandonsTheCommand: in a read slot the trace shows no event yet, at its end it shows it; TheTimebaseIsMonotonic
has State.reset and any of its steps. -/
theorem witness_shown :
    ShownAt Timing.nominal [.read true] 69 0 ∧ ShownAt Timing.nominal [.read true] 70 1 ∧
      step State.reset = .next State.reset := by
  refine ⟨⟨by decide, by omega, ?_⟩, ⟨by decide, ?_, by simp⟩, rfl⟩
  · rintro ev ⟨⟩
    decide
  · rintro k ev hk h
    obtain rfl : k = 0 := by omega
    cases h
    decide

/-- HostWritesDoNotDisturbACommand. -/
theorem witness_disturb :
    (issued 0x00000001).busy = true ∧ Reg.cmd ≠ .status ∧ ∃ t, complete (issued 0x00000001) = .next t :=
  ⟨rfl, by decide, _, rfl⟩

/-- AnIdleBlockKeepsItsState. -/
theorem witness_idle :
    State.reset.busy = false ∧ State.reset.seq = .idle ∧ State.reset.agenda = [] ∧
      ({ State.reset with agenda := [.elapse 5] } : State).agenda = [.elapse 5] := by decide

/-- TheLineIsLiveDuringAWriteSlot: a write-0 slot is low at once and after 59 microseconds, after 60 it is not. -/
theorem witness_live_line :
    (issued 0x00000002).busy = true ∧ (issued 0x00000002).seq = .running 0 ∧
      decodeWord (issued 0x00000002).cmdLatch = .ok (.wbit false) ∧
      (elapse 0 (issued 0x00000002)).wire.dqLow = true ∧ (elapse 59 (issued 0x00000002)).wire.dqLow = true ∧
      (elapse 60 (issued 0x00000002)).wire.dqLow = false := by
  decide +kernel

/-- TheLineIsLiveDuringACommand: `R8` (its first and second read slot), `RESET` (the poll, the pulse, after it), and an
illegal word. -/
theorem witness_live_command :
    [0, 5, 6, 69, 70, 76].map (fun n => (elapse n (issue 0x00000005 (onBus []))).wire.dqLow) =
        [true, true, false, false, true, false] ∧
      [0, 1, 2, 481, 482].map (fun n => (elapse n (issue 0x00000001 (onBus []))).wire.dqLow) =
        [false, false, true, true, false] ∧
      (elapse 5 (issued 0x00000042)).wire.dqLow = false ∧
      decodeWord (issued 0x00000042).cmdLatch = .error .reservedBits := by
  decide +kernel

/-- ResetOnDraws: the last permitted poll (V-T5), and 125 zeros. -/
theorem witness_draws :
    State.reset.timing.nIdlePolls = 125 ∧ (onDraws (List.replicate 124 false ++ true :: false :: [])).wire.env =
        .draws (List.replicate 124 false ++ true :: false :: []) 0 ∧
      (onDraws (List.replicate 125 false ++ [])).wire.env = .draws (List.replicate 125 false ++ []) 0 := ⟨rfl, rfl, rfl⟩

/-- ResetOnTheReferenceBus, DevicesTakeTheRomCommand, ReadsOfAnEmptyOrStuckBus, ReadRomReadsTheAndOfAddresses,
SelectAddressesOneDevice: a bus with a device, an empty bus, a stuck bus. -/
theorem witness_buses :
    (onBus [dev addrA]).wire.env = .bus ⟨[dev addrA], false⟩ ∧ (onBus []).wire.env = .bus ⟨[], false⟩ ∧
      (withEnv (.bus ⟨[dev addrA], true⟩)).wire.env = .bus ⟨[dev addrA], true⟩ := ⟨rfl, rfl, rfl⟩

/-- AFixtureIsIdleUntilTheFirstBusReset, ADeviceLogsAndPlaysBack: an environment that is a fixture, and one device. -/
theorem witness_fixture :
    (State.onFixture [(addrA, true, [false])] false).wire.env = .bus (Bus.fixture [(addrA, true, [false])] false) ∧
      ¬ IsSearch .r64 ∧ (onBus [dev addrA]).wire.env = .bus ⟨[dev addrA], false⟩ :=
  ⟨rfl, by simp [IsSearch], rfl⟩

/-- StreamingEqualsTheFunction, CrcStepsAreTheBitLoops: both starts, a byte by each way, and a position below 7. -/
theorem witness_streaming :
    Feed.byte (.imm 0x31) = 0x31 ∧ Feed.byte (.data 0x0123456789ABCD31) = 0x31 ∧
      (Instr.c16i 5 = .c16i 5 ∧ false = false) ∧ 6 < 7 := by decide

/-- DevicesTakeTheRomCommand: a byte that is no ROM command byte. -/
theorem witness_other_byte : (0x44 : Byte) ≠ 0xF0 ∧ (0x44 : Byte) ≠ 0xEC ∧ (0x44 : Byte) ≠ 0x55 ∧ (0x44 : Byte) ≠ 0xCC ∧
    (0x44 : Byte) ≠ 0x33 := by decide

/-- CommandDurations: each outcome of a search is met. -/
theorem witness_durations :
    ∃ t, exec .srch (onBus []) = .next t ∧ t.result = .noPresence ∧
      pollCount (t.wire.trace.drop (onBus []).wire.trace.length) = 1 := ⟨_, rfl, by decide +kernel, by decide +kernel⟩

/-- SlotWaveforms: a parameter set other than the defaults that meets the constraints, at their boundaries. -/
theorem witness_timing : Timing.Valid ⟨1, 1, 1, 2, 1, 1, 2, 1, 2, 0, 1⟩ := by unfold Timing.Valid; decide

/-- SrstResetsTheSearch: State.reset is in IDLE and meets the invariant. -/
theorem witness_idle_search : GoodState State.reset ∧ State.reset.sstate = .idle := by
  unfold GoodState Timing.Valid; simp [State.reset, Wire.initial, Timing.nominal]

/-- Every statement with valid timing parameters, and those with the default ones. -/
theorem witness_valid_timing (e : Env) : (withEnv e).timing.Valid ∧ (withEnv e).timing = Timing.nominal :=
  ⟨by unfold Timing.Valid; simp [withEnv, State.reset, Timing.nominal], rfl⟩

/-- SearchEndAfterTheLastDevice. -/
theorem witness_last_device : ({ State.reset with lastDev := true } : State).lastDev = true := rfl

/-- SearchPassOutcomes: `SRCH` with LAST_DEV = 0, and `SSEL` with LAST_DEV = 1, which the priming clears. -/
theorem witness_pass_start :
    IsSearch .srch ∧ (passStart .srch State.reset).lastDev = false ∧ IsSearch .ssel ∧
      (passStart .ssel { State.reset with lastDev := true }).lastDev = false :=
  ⟨.inl rfl, rfl, .inr (.inr rfl), rfl⟩

/-- SearchFindsAnAnsweringDevice, ClearCursorFindsTheFirstInWireOrder, EnumerationFindsEachDeviceOnce: {A, B}, one of
them alerting, distinct, with non-zero family bytes. -/
theorem witness_answering :
    answering .srch [dev addrA, dev addrB true] = [addrA, addrB] ∧
      answering .srchA [dev addrA, dev addrB true] = [addrB] := by
  decide +kernel

/-- The same addresses are distinct, with non-zero family bytes. -/
theorem witness_answering_distinct :
    [addrA, addrB].Nodup ∧ (∀ a ∈ [addrA, addrB], familyByte a ≠ 0) ∧
      (onBus [dev addrA, dev addrB true]).lastDisc = 0 := by
  refine ⟨by simp [addrA, addrB], by simp [addrA, addrB, familyByte, addressByte], rfl⟩

/-- SearchWithoutAnAnswer: devices, none alerting. -/
theorem witness_no_answer : [dev addrA] ≠ [] ∧ answering .srchA [dev addrA] = [] := by decide +kernel

/-- SselReturnsThePresentAlertingDevice: DATA = B on {A alerting, B alerting}, which differ below bit 63. -/
theorem witness_ssel :
    familyByte addrB ≠ 0 ∧ answering .ssel [dev addrA true, dev addrB true] = [addrA, addrB] ∧
      addrA.getLsbD 39 ≠ addrB.getLsbD 39 := by decide +kernel

/-- WhichCommandWritesWhat, DrawsAloneDecideTheEffect: a command that answers a next state, in two environments with
the same trace. -/
theorem witness_two_environments :
    ∃ t u, exec (.wbit true) State.reset = .next t ∧
      exec (.wbit true) { State.reset with wire := { State.reset.wire with env := .bus ⟨[], false⟩ } } = .next u ∧
      u.wire.trace = t.wire.trace := ⟨_, _, rfl, rfl, rfl⟩

end Sys2Proof.Tests
end

section
/-! PROOFS. The line procedures as runs of elementary moves. What every procedure keeps is proved once over the moves:
the trace only grows, and the waveform shows the low phases of the events (40_transport.md R84 to R88, R93). -/

namespace Sys2Proof.Machine

/-! ### Elementary moves of the line -/

/-- The bit a poll reads (R87). -/
def pollBit (p : Timing) (w : Wire) : Bool := (w.wait p.tIdlePoll).level .poll

/-- The line after a poll that reads `v` (R87). -/
def pollReading (p : Timing) (v : Bool) (w : Wire) : Wire := ((w.wait p.tIdlePoll).sampled v).emit (.poll v)

theorem idleWait_succ (p : Timing) (n : Nat) (w : Wire) :
    idleWait p (n + 1) w =
      if pollBit p w then (true, pollReading p (pollBit p w) w) else idleWait p n (pollReading p (pollBit p w) w) := rfl

/-- One elementary move of the line, as the procedures of 40_transport.md are built from them. -/
inductive WireStep (p : Timing) : Wire → Wire → Prop
  | release (w : Wire) : WireStep p w w.release
  | poll (v : Bool) (w : Wire) : WireStep p w (pollReading p v w)
  | pulse (w : Wire) : WireStep p w (resetPulse p w).2
  | write (b : Bool) (w : Wire) : WireStep p w (writeSlot p b w)
  | read (w : Wire) : WireStep p w (readSlot p w).2

/-- The line comes from `w` to `w'` by elementary moves alone. -/
abbrev WireRun (p : Timing) : Wire → Wire → Prop := Relation.ReflTransGen (WireStep p)

theorem idleWait_run (p : Timing) (n : Nat) (w : Wire) : WireRun p w (idleWait p n w).2 := by
  induction n generalizing w with
  | zero => exact .refl
  | succ n ih =>
    rw [idleWait_succ]
    split
    · exact .single (.poll _ w)
    · exact .head (.poll _ w) (ih _)

theorem busReset_run (p : Timing) (w : Wire) : WireRun p w (busReset p w).2 := by
  have hwait : WireRun p w (idleWait p p.nIdlePolls w.release).2 := .head (.release w) (idleWait_run p _ _)
  unfold busReset
  split
  · next heq => simpa [heq] using hwait
  · next heq => exact .tail (by simpa [heq] using hwait) (.pulse _)

theorem writeBits_run (p : Timing) (bs : List Bool) (w : Wire) : WireRun p w (writeBits p bs w) := by
  induction bs generalizing w with
  | nil => exact .refl
  | cons b bs ih => exact .head (.write b w) (ih _)

theorem readBits_run (p : Timing) (n : Nat) (w : Wire) : WireRun p w (readBits p n w).2 := by
  induction n generalizing w with
  | zero => exact .refl
  | succ n ih => exact .head (.read w) (ih _)

/-! ### One position of a pass (R124 to R126) -/

/-- The bit read at a position. -/
def idBit (s : State) : Bool := (readSlot s.timing s.wire).1

/-- The complement read at a position. -/
def cmpBit (s : State) : Bool := (readSlot s.timing (readSlot s.timing s.wire).2).1

/-- The state after the two reads of a position. -/
def afterReads (s : State) : State := { s with wire := (readSlot s.timing (readSlot s.timing s.wire).2).2 }

/-- The state after a position that had a response. -/
def afterPosition (pos : Nat) (s : State) : State := takeBranch pos (idBit s) (cmpBit s) (afterReads s)

theorem searchBits_succ (n pos : Nat) (s : State) :
    searchBits (n + 1) pos s =
      if idBit s && cmpBit s then (false, afterReads s) else searchBits n (pos + 1) (afterPosition pos s) := rfl

theorem afterReads_run (s : State) : WireRun s.timing s.wire (afterReads s).wire :=
  .head (.read _) (.single (.read _))

theorem afterPosition_run (pos : Nat) (s : State) : WireRun s.timing s.wire (afterPosition pos s).wire :=
  (afterReads_run s).tail (.write _ _)

/-- The bit loop of a pass. -/
theorem searchBits_run (n pos : Nat) (s : State) : WireRun s.timing s.wire (searchBits n pos s).2.wire := by
  induction n generalizing pos s with
  | zero => exact .refl
  | succ n ih =>
    rw [searchBits_succ]
    split
    · exact afterReads_run s
    · exact (afterPosition_run pos s).trans (ih (pos + 1) (afterPosition pos s))

/-! ### The pin as the waveform shows it -/

/-- The pin at time `t` after these marks, released before them (R8, R33). -/
def pinAt (t : Nat) (marks : List Edge) : Bool := (marks.filter (Edge.madeBy t)).foldl Edge.drive false

@[simp] theorem pinAt_nil (t : Nat) : pinAt t [] = false := rfl

theorem pinAt_append_of_low {t : Nat} {xs ys : List Edge} (h : pinAt t xs = false) :
    pinAt t (xs ++ ys) = pinAt t ys := by
  simp only [pinAt] at h ⊢
  rw [List.filter_append, List.foldl_append, h]

theorem pinAt_append_of_later {t : Nat} {xs ys : List Edge} (h : ∀ m ∈ ys, m.madeBy t = false) :
    pinAt t (xs ++ ys) = pinAt t xs := by
  have hys : ys.filter (Edge.madeBy t) = [] := List.filter_eq_nil_iff.2 fun m hm => by simp [h m hm]
  simp [pinAt, hys]

/-- The line driven low at `t0` for `l` microseconds. -/
theorem pinAt_low_release (t0 l d : Nat) : pinAt (t0 + d) [.low t0, .release (t0 + l)] = decide (d < l) := by
  by_cases h : l ≤ d
  · simp [pinAt, Edge.madeBy, Edge.drive, h, Nat.not_lt.2 h]
  · simp [pinAt, Edge.madeBy, Edge.drive, h, Nat.lt_of_not_le h]

/-- A sample leaves the pin where it is. -/
theorem pinAt_append_sample (t t' : Nat) (v : Bool) (xs : List Edge) :
    pinAt t (xs ++ [.sample t' v]) = pinAt t xs := by
  by_cases h : t' ≤ t <;> simp [pinAt, Edge.madeBy, Edge.drive, h]

/-! ### The low phases of a list of events -/

theorem drivenLow_of_le {p : Timing} {evs : List WireEvent} {d : Nat} (h : wireTime p evs ≤ d) :
    drivenLow p evs d = false := by
  induction evs generalizing d with
  | nil => rfl
  | cons ev evs ih =>
    rw [wireTime_cons] at h
    simp [drivenLow, show ¬ d < eventTime p ev by omega, ih (d := d - eventTime p ev) (by omega)]

theorem drivenLow_append (p : Timing) (xs ys : List WireEvent) (d : Nat) :
    drivenLow p (xs ++ ys) d =
      if d < wireTime p xs then drivenLow p xs d else drivenLow p ys (d - wireTime p xs) := by
  induction xs generalizing d with
  | nil => simp [wireTime]
  | cons ev xs ih =>
    by_cases h : d < eventTime p ev
    · simp [drivenLow, wireTime_cons, h, show d < eventTime p ev + wireTime p xs by omega]
    · simp only [List.cons_append, drivenLow, h, if_false, ih, wireTime_cons, Nat.sub_sub,
        show d - eventTime p ev < wireTime p xs ↔ d < eventTime p ev + wireTime p xs by omega]

/-- One event is low for its low time, which its own time holds. -/
theorem drivenLow_singleton {p : Timing} {ev : WireEvent} (h : lowTime p ev ≤ eventTime p ev) (d : Nat) :
    drivenLow p [ev] d = decide (d < lowTime p ev) := by
  by_cases hd : d < eventTime p ev
  · simp [drivenLow, hd]
  · simp [drivenLow, hd, show ¬ d < lowTime p ev by omega]

/-- An event's low phase lies within it where the parameters meet the constraints of R3. -/
theorem lowTime_le_eventTime {p : Timing} (hp : p.Valid) (ev : WireEvent) : lowTime p ev ≤ eventTime p ev := by
  obtain ⟨-, h1, -, h2, h3, h4, -, -⟩ := hp
  cases ev with
  | poll v => simp [lowTime]
  | rst v => simp only [lowTime, eventTime, Timing.pulseTime]; omega
  | write b => cases b <;> simp [lowTime, eventTime, Timing.slotTime] <;> omega
  | read v => simp only [lowTime, eventTime, Timing.slotTime]; omega
  | cut k => simp [lowTime]

/-- The marks show the events that begin at `t0`: none is made earlier, and the pin is low exactly in their low phases
(R8, R33, R93). -/
def Shows (p : Timing) (t0 : Nat) (evs : List WireEvent) (marks : List Edge) : Prop :=
  (∀ m ∈ marks, ∀ t, t < t0 → m.madeBy t = false) ∧ ∀ d, pinAt (t0 + d) marks = drivenLow p evs d

theorem Shows.append {p : Timing} {t0 : Nat} {xs ys : List WireEvent} {ms ns : List Edge} (hx : Shows p t0 xs ms)
    (hy : Shows p (t0 + wireTime p xs) ys ns) : Shows p t0 (xs ++ ys) (ms ++ ns) := by
  refine ⟨fun m hm t ht => ?_, fun d => ?_⟩
  · rcases List.mem_append.1 hm with hm | hm
    · exact hx.1 m hm t ht
    · exact hy.1 m hm t (by omega)
  · rw [drivenLow_append]
    split
    · next hd => rw [pinAt_append_of_later fun m hm => hy.1 m hm _ (by omega), hx.2]
    · next hd =>
      have hlow : pinAt (t0 + d) ms = false := by rw [hx.2, drivenLow_of_le (by omega)]
      have hpin := hy.2 (d - wireTime p xs)
      rw [show t0 + wireTime p xs + (d - wireTime p xs) = t0 + d by omega] at hpin
      rw [pinAt_append_of_low hlow, hpin]

/-- The marks of one event: its low phase, and a sample that comes no earlier. -/
theorem shows_lowPhase {p : Timing} (hp : p.Valid) (t0 : Nat) (ev : WireEvent) :
    Shows p t0 [ev] [.low t0, .release (t0 + lowTime p ev)] := by
  refine ⟨by simp [Edge.madeBy]; omega, fun d => ?_⟩
  rw [pinAt_low_release, drivenLow_singleton (lowTime_le_eventTime hp ev)]

theorem Shows.sample {p : Timing} {t0 t : Nat} {evs : List WireEvent} {marks : List Edge} (h : Shows p t0 evs marks)
    (ht : t0 ≤ t) (v : Bool) : Shows p t0 evs (marks ++ [.sample t v]) := by
  refine ⟨fun m hm t' ht' => ?_, fun d => by rw [pinAt_append_sample, h.2]⟩
  rcases List.mem_append.1 hm with hm | hm
  · exact h.1 m hm t' ht'
  · obtain rfl : m = .sample t v := by simpa using hm
    simp [Edge.madeBy]
    omega

/-! ### What every run of the line keeps -/

/-- The line `w'` is `w` with events added to its trace and marks to its waveform, and with valid parameters the marks
show the events and the events are all the time that has passed. -/
def Extends (p : Timing) (w w' : Wire) : Prop :=
  ∃ evs marks, w'.trace = w.trace ++ evs ∧ w'.wave = w.wave ++ marks ∧
    (p.Valid → w'.now = w.now + wireTime p evs ∧ Shows p w.now evs marks)

theorem Extends.refl (p : Timing) (w : Wire) : Extends p w w :=
  ⟨[], [], by simp, by simp, fun _ => ⟨rfl, by simp, fun _ => rfl⟩⟩

theorem Extends.trans {p : Timing} {w w1 w2 : Wire} (h1 : Extends p w w1) (h2 : Extends p w1 w2) : Extends p w w2 := by
  obtain ⟨xs, ms, ht1, hw1, hv1⟩ := h1
  obtain ⟨ys, ns, ht2, hw2, hv2⟩ := h2
  refine ⟨xs ++ ys, ms ++ ns, by simp [ht2, ht1], by simp [hw2, hw1], fun hp => ?_⟩
  obtain ⟨hn1, hs1⟩ := hv1 hp
  obtain ⟨hn2, hs2⟩ := hv2 hp
  exact ⟨by rw [hn2, hn1, wireTime_append, Nat.add_assoc], hs1.append (hn1 ▸ hs2)⟩

theorem writeSlot_wave (p : Timing) (b : Bool) (w : Wire) :
    (writeSlot p b w).wave = w.wave ++ [.low w.now, .release (w.now + lowTime p (.write b))] := by
  simp [writeSlot, lowTime]

theorem readSlot_wave {p : Timing} (hp : p.Valid) (w : Wire) :
    (readSlot p w).2.wave = w.wave ++ ([.low w.now, .release (w.now + lowTime p (.read (readSlot p w).1))] ++
      [.sample (w.now + p.tRds) (readSlot p w).1]) := by
  obtain ⟨-, -, -, h, -, -, -, -⟩ := hp
  simp [readSlot, lowTime]
  omega

theorem resetPulse_wave (p : Timing) (w : Wire) :
    (resetPulse p w).2.wave = w.wave ++ ([.low w.now, .release (w.now + lowTime p (.rst (resetPulse p w).1))] ++
      [.sample (w.now + (p.tRstl + p.tPds)) (resetPulse p w).1]) := by
  simp [resetPulse, lowTime]
  omega

theorem extends_of_step {p : Timing} {w w' : Wire} (h : WireStep p w w') : Extends p w w' := by
  cases h with
  | release w =>
    refine ⟨[], [.release w.now], by simp, by simp, fun _ => ⟨rfl, by simp [Edge.madeBy], fun d => ?_⟩⟩
    simp [pinAt, Edge.madeBy, Edge.drive, drivenLow]
  | poll v w =>
    refine ⟨[.poll v], [.sample (w.now + p.tIdlePoll) v], rfl, rfl, fun hp => ⟨rfl, ?_⟩⟩
    have hnone : Shows p w.now [.poll v] [] :=
      ⟨by simp, fun d => by rw [drivenLow_singleton (lowTime_le_eventTime hp _)]; simp [lowTime]⟩
    exact hnone.sample (by omega) v
  | pulse w =>
    obtain ⟨-, ht, -, -, hn⟩ := resetPulse_moves p w
    exact ⟨_, _, ht, resetPulse_wave p w, fun hp => ⟨hn hp, (shows_lowPhase hp _ _).sample (by omega) _⟩⟩
  | write b w =>
    obtain ⟨-, ht, -, -, hn⟩ := writeSlot_moves p b w
    exact ⟨_, _, ht, writeSlot_wave p b w, fun hp => ⟨hn hp, shows_lowPhase hp _ _⟩⟩
  | read w =>
    obtain ⟨-, ht, -, -, hn⟩ := readSlot_moves p w
    by_cases hp : p.Valid
    · exact ⟨_, _, ht, readSlot_wave hp w, fun _ => ⟨hn hp, (shows_lowPhase hp _ _).sample (by omega) _⟩⟩
    · refine ⟨_, (readSlot p w).2.wave.drop w.wave.length, ht, ?_, fun h => absurd h hp⟩
      simp [readSlot]

theorem extends_of_run {p : Timing} {w w' : Wire} (h : WireRun p w w') : Extends p w w' := by
  induction h with
  | refl => exact .refl p w
  | tail _ hstep ih => exact ih.trans (extends_of_step hstep)

/-- The trace only grows (R12). -/
theorem WireRun.trace_prefix {p : Timing} {w w' : Wire} (h : WireRun p w w') : w.trace <+: w'.trace := by
  obtain ⟨evs, -, ht, -, -⟩ := extends_of_run h
  exact ⟨evs, ht.symm⟩

end Sys2Proof.Machine
end

section
/-! PROOFS. The commands by what they do on the line, and what a search pass leaves: the inversion lemmas that the
statements about every command cite (41_codec.md to 43_search.md). -/

namespace Sys2Proof.Machine

/-! ### Commands by their activity on the line -/

/-- What a command does on the line. -/
inductive Activity where
  /-- Nothing: it writes CRC registers alone (R111 to R117). -/
  | crc
  /-- Nothing: `SRST` (R129). -/
  | searchReset
  /-- One write slot per bit (R91, R99, R101, R103, R104). -/
  | send (bs : List Bool)
  /-- `n` read slots (R92, R100, R102). -/
  | receive (n : Nat)
  /-- A bus reset (R90). -/
  | busReset
  /-- A search pass (R130, R131). -/
  | pass

/-- The activity of each command, `d` the value in `DATA`. -/
def activity (d : DWord) : Instr → Activity
  | .reset => .busReset
  | .wbit b => .send [b]
  | .rbit => .receive 1
  | .w8 b => .send (lsbBits b)
  | .r8 => .receive 8
  | .w64 => .send (lsbBits d)
  | .r64 => .receive 64
  | .select => .send (lsbBits (0x55 : Byte) ++ lsbBits d)
  | .skip => .send (lsbBits (0xCC : Byte))
  | .srst => .searchReset
  | .srch | .srchA | .ssel => .pass
  | .c8i | .c8b _ | .c8d | .c16i _ | .c16iRefin | .c16b _ | .c16d | .c16f | .c16fRefout => .crc
  | .romSearch => .send (lsbBits (0xF0 : Byte))
  | .romAlarmSearch => .send (lsbBits (0xEC : Byte))
  | .romMatch => .send (lsbBits (0x55 : Byte))
  | .romSkip => .send (lsbBits (0xCC : Byte))
  | .romRead => .send (lsbBits (0x33 : Byte))

theorem writeBits_append (p : Timing) (xs ys : List Bool) (w : Wire) :
    writeBits p (xs ++ ys) w = writeBits p ys (writeBits p xs w) := by
  induction xs generalizing w with
  | nil => rfl
  | cons b xs ih => exact ih (writeSlot p b w)

/-- The write slots of one bit or more: the first drives the pin, so its level before them is not felt. -/
theorem writeBits_moves_of_pos {p : Timing} {bs : List Bool} (h : 0 < bs.length) (w : Wire) :
    Moves p w (writeEvents bs) (writeBits p bs w) := by
  cases bs with
  | nil => simp at h
  | cons b bs => exact (writeSlot_moves p b w).trans (writeBits_moves p bs _ rfl)

/-- The read slots of one bit or more, likewise. -/
theorem readBits_moves_of_pos {n : Nat} (h : 0 < n) (p : Timing) (w : Wire) :
    Moves p w (readEvents (readBits p n w).1) (readBits p n w).2 := by
  cases n with
  | zero => omega
  | succ n => exact (readSlot_moves p w).trans (readBits_moves p n _ rfl)

/-- A sending command runs the write slots of its bits. -/
theorem exec_of_send {i : Instr} {s : State} {bs : List Bool} (h : activity s.data i = .send bs) :
    exec i s = .next (writeCommand (writeBits s.timing bs) s) := by
  cases i <;> simp only [activity, reduceCtorEq, Activity.send.injEq] at h <;> subst h
  case select =>
    simp only [exec, execSelect, writeCommand, writeBits_append]
    rfl
  all_goals rfl

/-- A receiving command runs `n` read slots into `DATA`. -/
theorem exec_of_receive {i : Instr} {s : State} {n : Nat} (h : activity s.data i = .receive n) :
    exec i s = .next (readCommand n s) := by
  cases i <;> simp only [activity, reduceCtorEq, Activity.receive.injEq] at h <;> subst h <;> rfl

/-- The bits a command sends: at least one, and no more than `SELECT`'s 72. -/
theorem length_of_send {d : DWord} {i : Instr} {bs : List Bool} (h : activity d i = .send bs) :
    1 ≤ bs.length ∧ bs.length ≤ 72 := by
  cases i <;> simp only [activity, reduceCtorEq, Activity.send.injEq] at h <;> subst h <;> simp [lsbBits_length]

/-- The bits a command receives: at least one, and no more than `R64`'s 64. -/
theorem count_of_receive {d : DWord} {i : Instr} {n : Nat} (h : activity d i = .receive n) : 1 ≤ n ∧ n ≤ 64 := by
  cases i <;> simp only [activity, reduceCtorEq, Activity.receive.injEq] at h <;> subst h <;> decide

/-- A CRC command writes CRC registers alone, with values that no other register decides but CRC16_POLY and `DATA`:
not the line, the sequencer or the turns to come (R96, R111 to R117). -/
theorem exec_of_crc {i : Instr} {s : State} (h : activity s.data i = .crc) :
    ∃ c8 c16 out, ∀ w q a, exec i { s with wire := w, seq := q, agenda := a } =
      .next (finish .ok { s with wire := w, seq := q, agenda := a, crc8 := c8, crc16 := c16, crc16Out := out }) := by
  cases i <;> simp only [activity, reduceCtorEq] at h
  case c8i => exact ⟨0, s.crc16, s.crc16Out, fun _ _ _ => rfl⟩
  case c8b b => exact ⟨crc8Step s.crc8 b, s.crc16, s.crc16Out, fun _ _ _ => rfl⟩
  case c8d => exact ⟨crc8Step s.crc8 (dataByte s), s.crc16, s.crc16Out, fun _ _ _ => rfl⟩
  case c16i x => exact ⟨s.crc8, crc16Start x false, s.crc16Out, fun _ _ _ => rfl⟩
  case c16iRefin => exact ⟨s.crc8, crc16Start 0 true, s.crc16Out, fun _ _ _ => rfl⟩
  case c16b b => exact ⟨s.crc8, crc16Step s.crc16Poly s.crc16 b, s.crc16Out, fun _ _ _ => rfl⟩
  case c16d => exact ⟨s.crc8, crc16Step s.crc16Poly s.crc16 (dataByte s), s.crc16Out, fun _ _ _ => rfl⟩
  case c16f => exact ⟨s.crc8, s.crc16, crc16Final s.crc16 false, fun _ _ _ => rfl⟩
  case c16fRefout => exact ⟨s.crc8, s.crc16, crc16Final s.crc16 true, fun _ _ _ => rfl⟩

/-- The command whose activity is a bus reset is `RESET`. -/
theorem eq_reset_of_busReset {d : DWord} {i : Instr} (h : activity d i = .busReset) : i = .reset := by
  cases i <;> simp only [activity, reduceCtorEq] at h
  rfl

/-- The command whose activity is a search reset is `SRST`. -/
theorem eq_srst_of_searchReset {d : DWord} {i : Instr} (h : activity d i = .searchReset) : i = .srst := by
  cases i <;> simp only [activity, reduceCtorEq] at h
  rfl

theorem activity_pass_iff (d : DWord) (i : Instr) : activity d i = .pass ↔ IsSearch i := by
  cases i <;> simp [activity, IsSearch]

@[simp] theorem passStart_wire (i : Instr) (s : State) : (passStart i s).wire = s.wire := by
  unfold passStart
  split <;> rfl

@[simp] theorem passStart_timing (i : Instr) (s : State) : (passStart i s).timing = s.timing := by
  unfold passStart
  split <;> rfl

@[simp] theorem passStart_seq (i : Instr) (s : State) : (passStart i s).seq = s.seq := by
  unfold passStart
  split <;> rfl

@[simp] theorem passStart_lastZero (i : Instr) (s : State) : (passStart i s).lastZero = s.lastZero := by
  unfold passStart
  split <;> rfl

/-- A command with another activity than a pass is no search. -/
theorem not_isSearch_of_activity {d : DWord} {i : Instr} {a : Activity} (h : activity d i = a) (ha : a ≠ .pass) :
    ¬ IsSearch i := fun hs => ha (h ▸ (activity_pass_iff d i).2 hs)

/-- A search command runs a pass from its start (R130, R131). -/
theorem exec_of_isSearch {i : Instr} (h : IsSearch i) (s : State) :
    exec i s = .next (searchPass (searchByte i) { passStart i s with sstate := .searching }) := by
  rcases h with rfl | rfl | rfl <;> rfl

/-! ### How many events a command makes -/

/-- The number of reset pulses in a list of events. -/
def pulseCount (evs : List WireEvent) : Nat := evs.countP fun e => match e with | .rst _ => true | _ => false

@[simp] theorem pollCount_append (xs ys : List WireEvent) : pollCount (xs ++ ys) = pollCount xs + pollCount ys :=
  List.countP_append

@[simp] theorem slotCount_append (xs ys : List WireEvent) : slotCount (xs ++ ys) = slotCount xs + slotCount ys :=
  List.countP_append

@[simp] theorem pulseCount_append (xs ys : List WireEvent) : pulseCount (xs ++ ys) = pulseCount xs + pulseCount ys :=
  List.countP_append

/-- The time of a list of events by their numbers (R93, R162). -/
theorem wireTime_eq_counts (p : Timing) (evs : List WireEvent) :
    wireTime p evs = p.tIdlePoll * pollCount evs + p.pulseTime * pulseCount evs + p.slotTime * slotCount evs := by
  induction evs with
  | nil => rfl
  | cons ev evs ih =>
    rw [wireTime_cons, ih]
    cases ev <;> simp [pollCount, pulseCount, slotCount, eventTime, Nat.mul_add] <;> omega

/-- The bounds of a command's events: the budget of polls, one pulse, `slots` slots, and nothing else. -/
def Within (p : Timing) (slots : Nat) (evs : List WireEvent) : Prop :=
  pollCount evs ≤ p.nIdlePolls ∧ pulseCount evs ≤ 1 ∧ slotCount evs ≤ slots ∧
    evs.length = pollCount evs + pulseCount evs + slotCount evs

/-- Slots alone. -/
def SlotsOnly (evs : List WireEvent) : Prop :=
  pollCount evs = 0 ∧ pulseCount evs = 0 ∧ slotCount evs = evs.length

theorem SlotsOnly.append {xs ys : List WireEvent} (hx : SlotsOnly xs) (hy : SlotsOnly ys) : SlotsOnly (xs ++ ys) := by
  obtain ⟨hx1, hx2, hx3⟩ := hx
  obtain ⟨hy1, hy2, hy3⟩ := hy
  exact ⟨by simp [hx1, hy1], by simp [hx2, hy2], by simp [hx3, hy3]⟩

theorem slotsOnly_writeEvents (bs : List Bool) : SlotsOnly (writeEvents bs) := by
  simp [SlotsOnly, writeEvents, pollCount, pulseCount, slotCount, Function.comp_def]

theorem slotsOnly_readEvents (bs : List Bool) : SlotsOnly (readEvents bs) := by
  simp [SlotsOnly, readEvents, pollCount, pulseCount, slotCount, Function.comp_def]

theorem slotsOnly_positions (xs : List Position) : SlotsOnly (xs.flatMap positionEvents) := by
  induction xs with
  | nil => exact ⟨rfl, rfl, rfl⟩
  | cons x xs ih => exact SlotsOnly.append (xs := positionEvents x) ⟨rfl, rfl, rfl⟩ ih

theorem length_positions (xs : List Position) : (xs.flatMap positionEvents).length = 3 * xs.length := by
  induction xs with
  | nil => rfl
  | cons x xs ih => simp [positionEvents, ih, Nat.mul_succ]

theorem SlotsOnly.within {evs : List WireEvent} {n : Nat} (h : SlotsOnly evs) (p : Timing) (hn : evs.length ≤ n) :
    Within p n evs := by
  obtain ⟨h1, h2, h3⟩ := h
  exact ⟨by omega, by omega, by omega, by omega⟩

theorem Within.append_slots {p : Timing} {m n : Nat} {xs ys : List WireEvent} (hx : Within p m xs)
    (hy : SlotsOnly ys) (hn : m + ys.length ≤ n) : Within p n (xs ++ ys) := by
  obtain ⟨hx1, hx2, hx3, hx4⟩ := hx
  obtain ⟨hy1, hy2, hy3⟩ := hy
  simp only [Within, pollCount_append, pulseCount_append, slotCount_append, List.length_append]
  omega

theorem within_stuckEvents (p : Timing) (n : Nat) : Within p n (stuckEvents p) := by
  simp [Within, stuckEvents, pollCount, pulseCount, slotCount, List.countP_replicate]

theorem within_resetEvents {p : Timing} {k : Nat} (h : k < p.nIdlePolls) (v : Bool) (n : Nat) :
    Within p n (resetEvents k v) := by
  simp [Within, resetEvents, pollCount, pulseCount, slotCount, List.countP_replicate]
  omega

end Sys2Proof.Machine
end

section
/-! PROOFS. What a search pass leaves (43_search.md R121 to R128): no address or a found one, its events within the
bounds, `last_zero` in its range. -/

namespace Sys2Proof.Machine

/-! ### The parts of a pass -/

/-- The state in which the bit loop begins (R123). -/
def bitsStart (c : Byte) (s : State) : State := { s with wire := writeByte s.timing c s.wire, lastZero := 0 }

/-- What follows the bit loop: no response, or steps 4 and 5 (R124, R127, R128). -/
def afterBits (r : Bool × State) : State :=
  if r.1 then validateCandidate (completePass r.2) else noAddress .searchNoResponse r.2

theorem searchRest_eq (c : Byte) (s : State) : searchRest c s = afterBits (searchBits 64 1 (bitsStart c s)) := by
  unfold searchRest bitsStart
  split <;> next heq => rw [heq]; rfl

/-- The state after the bus reset of a pass (R122). -/
def afterBusReset (s : State) : State :=
  { s with wire := (busReset s.timing s.wire).2, presence := (busReset s.timing s.wire).1.presence }

theorem searchPass_of_lastDev (c : Byte) {s : State} (h : s.lastDev = true) :
    searchPass c s = noAddress .searchEnd s := by
  simp [searchPass, h]

theorem searchPass_of_stuck (c : Byte) {s : State} (h : s.lastDev = false)
    (ho : (busReset s.timing s.wire).1 = .stuck) : searchPass c s = noAddress .busStuck (afterBusReset s) := by
  simp [searchPass, afterBusReset, h, ho]

theorem searchPass_of_absent (c : Byte) {s : State} (h : s.lastDev = false)
    (ho : (busReset s.timing s.wire).1 = .absent) : searchPass c s = noAddress .noPresence (afterBusReset s) := by
  simp [searchPass, afterBusReset, h, ho]

theorem searchPass_of_present (c : Byte) {s : State} (h : s.lastDev = false)
    (ho : (busReset s.timing s.wire).1 = .present) : searchPass c s = searchRest c (afterBusReset s) := by
  simp [searchPass, afterBusReset, h, ho]

/-! ### The bit loop -/

@[simp] theorem searchBits_seq (n pos : Nat) (s : State) : (searchBits n pos s).2.seq = s.seq := by
  rw [searchBits_eq]

theorem afterPosition_moves (pos : Nat) (s : State) :
    Moves s.timing s.wire (positionEvents (idBit s, cmpBit s, branchAt pos (idBit s) (cmpBit s) (afterReads s)))
      (afterPosition pos s).wire :=
  ((readSlot_moves s.timing s.wire).trans (readSlot_moves s.timing _)).trans (writeSlot_moves s.timing _ _)

theorem afterReads_moves (s : State) :
    Moves s.timing s.wire [.read (idBit s), .read (cmpBit s)] (afterReads s).wire :=
  (readSlot_moves s.timing s.wire).trans (readSlot_moves s.timing _)

/-- The slots of the bit loop: `n` whole positions, or fewer and then a position without a response (R124, R126). -/
theorem searchBits_moves (n pos : Nat) (s : State) (h : s.wire.dqLow = false) :
    ∃ xs : List Position,
      ((searchBits n pos s).1 = true ∧ xs.length = n ∧
        Moves s.timing s.wire (xs.flatMap positionEvents) (searchBits n pos s).2.wire) ∨
      ((searchBits n pos s).1 = false ∧ xs.length < n ∧
        Moves s.timing s.wire (xs.flatMap positionEvents ++ [.read true, .read true]) (searchBits n pos s).2.wire) := by
  induction n generalizing pos s with
  | zero => exact ⟨[], .inl ⟨rfl, rfl, .refl _ h⟩⟩
  | succ n ih =>
    rw [searchBits_succ]
    split
    · next hnone =>
      obtain ⟨h1, h2⟩ : idBit s = true ∧ cmpBit s = true := by simpa using hnone
      have hreads := afterReads_moves s
      rw [h1, h2] at hreads
      exact ⟨[], .inr ⟨rfl, by simp, hreads⟩⟩
    · obtain ⟨xs, hxs⟩ := ih (pos + 1) (afterPosition pos s) rfl
      refine ⟨(idBit s, cmpBit s, branchAt pos (idBit s) (cmpBit s) (afterReads s)) :: xs, ?_⟩
      rcases hxs with ⟨hr, hl, hm⟩ | ⟨hr, hl, hm⟩
      · exact .inl ⟨hr, by simp [hl], (afterPosition_moves pos s).trans hm⟩
      · exact .inr ⟨hr, by simpa using hl, by simpa using (afterPosition_moves pos s).trans hm⟩

/-- `last_zero` stays in its range: it takes the value of a position, at most 64 (R31, R125). -/
theorem searchBits_lastZero_le (n pos : Nat) (s : State) (hpos : pos + n ≤ 65) (h : s.lastZero.toNat ≤ 64) :
    (searchBits n pos s).2.lastZero.toNat ≤ 64 := by
  induction n generalizing pos s with
  | zero => exact h
  | succ n ih =>
    rw [searchBits_succ]
    split
    · exact h
    · refine ih (pos + 1) (afterPosition pos s) (by omega) ?_
      simp only [afterPosition, takeBranch]
      split
      · rw [BitVec.toNat_ofNat]
        omega
      · exact h

/-! ### The outcome of a pass -/

/-- What follows the bit loop: no address with a clear cursor, or a found address whose family byte is not zero, with
LAST_DISC the last branch point where 0 was taken (R127, R128). -/
theorem afterBits_cases (r : Bool × State) :
    (∃ code, afterBits r =
        noAddressState code r.2.presence r.2.lastZero (r.2.wire.settle r.2.seq.reading) r.2) ∨
      (familyByte r.2.rom ≠ 0 ∧ afterBits r =
        { foundState r.2.rom r.2.lastZero (r.2.wire.settle r.2.seq.reading) r.2 with
          presence := r.2.presence, lastDev := if r.2.lastZero = 0 then true else r.2.lastDev }) := by
  unfold afterBits validateCandidate
  split
  · split
    · exact .inl ⟨_, rfl⟩
    · next hf => exact .inr ⟨hf, rfl⟩
  · exact .inl ⟨_, rfl⟩

/-- The events of steps 2 and 3: the 8 slots of the ROM command byte and at most 192 of the bit loop. -/
theorem searchRest_moves (c : Byte) (s : State) :
    ∃ evs, SlotsOnly evs ∧ evs.length ≤ 200 ∧
      Moves s.timing s.wire evs (searchBits 64 1 (bitsStart c s)).2.wire := by
  have hbyte : Moves s.timing s.wire (writeEvents (lsbBits c)) (bitsStart c s).wire :=
    writeBits_moves_of_pos (by simp [lsbBits_length]) s.wire
  have hlen : (writeEvents (lsbBits c)).length = 8 := by simp [writeEvents, lsbBits_length]
  obtain ⟨xs, ⟨-, hl, hm⟩ | ⟨-, hl, hm⟩⟩ := searchBits_moves 64 1 (bitsStart c s) rfl
  · refine ⟨_, (slotsOnly_writeEvents _).append (slotsOnly_positions xs), ?_, hbyte.trans hm⟩
    rw [List.length_append, hlen, length_positions, hl]
  · refine ⟨_, (slotsOnly_writeEvents _).append ((slotsOnly_positions xs).append (slotsOnly_readEvents [true, true])),
      ?_, hbyte.trans hm⟩
    rw [List.length_append, List.length_append, hlen, length_positions, readEvents, List.length_map]
    simp only [List.length_cons, List.length_nil]
    omega

/-- Steps 2 to 5 from `s` (R123 to R128). -/
theorem searchRest_cases (c : Byte) (s : State) :
    ∃ z w evs, z.toNat ≤ 64 ∧ Moves s.timing s.wire evs w ∧ SlotsOnly evs ∧ evs.length ≤ 200 ∧
      ((∃ code, searchRest c s = noAddressState code s.presence z (w.settle s.seq.reading) s) ∨
        ∃ a, familyByte a ≠ 0 ∧ searchRest c s = { foundState a z (w.settle s.seq.reading) s with
          presence := s.presence, lastDev := if z = 0 then true else s.lastDev }) := by
  obtain ⟨evs, hslots, hlen, hmoves⟩ := searchRest_moves c s
  have hz := searchBits_lastZero_le 64 1 (bitsStart c s) (by omega) (by simp [bitsStart])
  refine ⟨_, _, evs, hz, hmoves, hslots, hlen, ?_⟩
  have hcases := afterBits_cases (searchBits 64 1 (bitsStart c s))
  rw [searchRest_eq]
  generalize hr : searchBits 64 1 (bitsStart c s) = r at hcases ⊢
  have hframe : r.2 = { s with lastZero := r.2.lastZero, rom := r.2.rom, wire := r.2.wire } := by
    have := searchBits_eq 64 1 (bitsStart c s)
    rwa [hr] at this
  rcases hcases with ⟨code, heq⟩ | ⟨hf, heq⟩
  · exact .inl ⟨code, by rw [heq, hframe]; rfl⟩
  · exact .inr ⟨r.2.rom, hf, by rw [heq, hframe]; rfl⟩

/-- A pass reports no address, or a found one with a non-zero family byte; its events keep the bounds, and `last_zero`
keeps its range (R31, R121 to R128). -/
theorem searchPass_cases (c : Byte) (s : State) :
    ∃ z w evs, (s.lastZero.toNat ≤ 64 → z.toNat ≤ 64) ∧ WireAfter s evs w ∧ Within s.timing 200 evs ∧
      ((∃ code presence, searchPass c s = noAddressState code presence z w s) ∨
        ∃ a, familyByte a ≠ 0 ∧ searchPass c s = foundState a z w s) := by
  cases hdev : s.lastDev with
  | true =>
    have hquiet : Moves s.timing s.wire [] { s.wire with dqLow := false } :=
      Moves.refl _ (w := { s.wire with dqLow := false }) rfl
    exact ⟨s.lastZero, _, [], id, hquiet.settle, SlotsOnly.within ⟨rfl, rfl, rfl⟩ _ (by simp),
      .inl ⟨_, _, searchPass_of_lastDev c hdev⟩⟩
  | false =>
    rcases busReset_cases s.timing s.wire with ⟨ho, hm⟩ | ⟨k, v, hk, ho, hm⟩
    · exact ⟨s.lastZero, _, _, id, hm.settle, within_stuckEvents _ _,
        .inl ⟨_, _, searchPass_of_stuck c hdev ho⟩⟩
    · cases v with
      | true =>
        exact ⟨s.lastZero, _, _, id, hm.settle, within_resetEvents hk true _,
          .inl ⟨_, _, searchPass_of_absent c hdev ho⟩⟩
      | false =>
        obtain ⟨z, w, evs, hz, hw, hslots, hlen, hout⟩ := searchRest_cases c (afterBusReset s)
        rw [searchPass_of_present c hdev ho]
        refine ⟨z, _, _, fun _ => hz, (hm.trans hw).settle,
          (within_resetEvents hk false 0).append_slots hslots (by omega), ?_⟩
        rcases hout with ⟨code, heq⟩ | ⟨a, hf, heq⟩
        · exact .inl ⟨code, _, heq⟩
        · refine .inr ⟨a, hf, heq.trans ?_⟩
          have hp : (afterBusReset s).presence = true := by simp [afterBusReset, ho, ResetOutcome.presence]
          have hd : (if z = 0 then true else (afterBusReset s).lastDev) = decide (z = 0) := by
            by_cases hz0 : z = 0 <;> simp [hz0, afterBusReset, hdev]
          rw [hp, hd]
          rfl

end Sys2Proof.Machine
end

section
/-! PROOFS. Every command, completion, turn and step: bounded and gapless (O53), the invariant (O10), the monotonic
timebase (O60). -/

namespace Sys2Proof.Machine

/-! ### Every command completes within its bounds -/

/-- Every command completes, idle, with the events within the bounds and nothing else on the line (R51, R52, R148). -/
theorem exec_completes (i : Instr) (s : State) :
    ∃ t evs, exec i s = .next t ∧ t.busy = false ∧ t.seq = .idle ∧ WireAfter s evs t.wire ∧
      Within s.timing 200 evs := by
  have hquiet : WireAfter s [] (s.wire.settle s.seq.reading) :=
    (Moves.refl s.timing (w := { s.wire with dqLow := false }) rfl).settle
  have hnone : Within s.timing 200 [] := SlotsOnly.within ⟨rfl, rfl, rfl⟩ _ (by simp)
  cases hact : activity s.data i with
  | crc =>
    obtain ⟨c8, c16, out, hexec⟩ := exec_of_crc hact
    exact ⟨_, [], hexec s.wire s.seq s.agenda, rfl, rfl, hquiet, hnone⟩
  | searchReset =>
    obtain rfl := eq_srst_of_searchReset hact
    exact ⟨_, [], rfl, rfl, rfl, hquiet, hnone⟩
  | send bs =>
    obtain ⟨hpos, hmax⟩ := length_of_send hact
    refine ⟨_, _, exec_of_send hact, rfl, rfl, (writeBits_moves_of_pos hpos s.wire).settle,
      (slotsOnly_writeEvents bs).within _ ?_⟩
    rw [writeEvents, List.length_map]
    omega
  | receive n =>
    obtain ⟨hpos, hmax⟩ := count_of_receive hact
    refine ⟨_, _, exec_of_receive hact, rfl, rfl, (readBits_moves_of_pos hpos s.timing s.wire).settle,
      (slotsOnly_readEvents _).within _ ?_⟩
    rw [readEvents, List.length_map, readBits_length]
    omega
  | busReset =>
    obtain rfl := eq_reset_of_busReset hact
    rcases busReset_cases s.timing s.wire with ⟨-, hm⟩ | ⟨k, v, hk, -, hm⟩
    · exact ⟨_, _, rfl, rfl, rfl, hm.settle, within_stuckEvents _ _⟩
    · exact ⟨_, _, rfl, rfl, rfl, hm.settle, within_resetEvents hk v _⟩
  | pass =>
    have hsearch := (activity_pass_iff _ _).1 hact
    obtain ⟨z, w, evs, -, hafter, hwithin, hout⟩ :=
      searchPass_cases (searchByte i) { passStart i s with sstate := .searching }
    rw [exec_of_isSearch hsearch]
    simp only [WireAfter, passStart_wire, passStart_timing, passStart_seq] at hafter hwithin
    rcases hout with ⟨code, presence, heq⟩ | ⟨a, -, heq⟩ <;> rw [heq] <;>
      exact ⟨_, evs, rfl, rfl, rfl, hafter, hwithin⟩

/-- Settles O53, from the activity of each command: its events are counted, and their time is the counts' time. -/
theorem everyCommandIsBoundedAndGapless : Obligations.EveryCommandIsBoundedAndGapless := by
  unfold Obligations.EveryCommandIsBoundedAndGapless
  intro i s
  obtain ⟨t, evs, hexec, hbusy, hseq, hafter, hpolls, hpulses, hslots, hlen⟩ := exec_completes i s
  refine ⟨t, evs, hexec, hbusy, hseq, hpolls, hslots, by omega, hafter, fun hp => ?_⟩
  obtain ⟨-, -, -, -, hnow⟩ := hafter
  have hpulse : evs.length - pollCount evs - slotCount evs = pulseCount evs := by omega
  rw [hnow hp, hpulse, wireTime_eq_counts, Timing.pulseTime, Timing.slotTime]
  simp only [Nat.add_assoc]

/-! ### The invariant -/

/-- The part of the invariant that speaks of the cursor and the search state alone (R24, R25, R31, R120, R128). -/
def GoodCursor (s : State) : Prop :=
  s.lastDisc.toNat ≤ 64 ∧ s.lastZero.toNat ≤ 64 ∧ (s.lastDev = true → s.lastDisc = 0) ∧
    (s.sstate = .idle ∨ s.sstate = .exhausted →
      s.lastDisc = 0 ∧ s.lastDev = false ∧ s.rom = 0 ∧ s.found = false) ∧
    (s.sstate = .found → s.found = true ∧ familyByte s.rom ≠ 0)

theorem GoodState.cursor {s : State} (h : GoodState s) : GoodCursor s := by
  obtain ⟨hdisc, hzero, hdev, -, -, -, hclear, hfound, -, -⟩ := h
  exact ⟨hdisc, hzero, hdev, hclear, hfound⟩

theorem GoodState.valid {s : State} (h : GoodState s) : s.timing.Valid := by
  obtain ⟨-, -, -, -, -, -, -, -, hvalid, -⟩ := h
  exact hvalid

theorem GoodState.searching_iff {s : State} (h : GoodState s) :
    s.sstate = .searching ↔ s.busy = true ∧ isSearchWord s.cmdLatch = true := by
  obtain ⟨-, -, -, -, -, hsearching, -, -, -, -⟩ := h
  exact hsearching

theorem GoodState.seq_of_idle {s : State} (h : GoodState s) (hb : s.busy = false) : s.seq = .idle := by
  obtain ⟨-, -, -, hseq, -, -, -, -, -, -⟩ := h
  exact hseq.1 hb

/-- A busy block runs, from a start that is not after this instant (R10, R15, R32). -/
theorem GoodState.running_of_busy {s : State} (h : GoodState s) (hb : s.busy = true) :
    ∃ e, s.seq = .running e ∧ s.wire.now ≤ e := by
  obtain ⟨-, -, -, hseq, -, -, -, -, -, hnow⟩ := h
  cases hs : s.seq with
  | idle => simp [hseq.2 hs] at hb
  | running e => exact ⟨e, rfl, hnow e hs⟩

/-- An idle state is good when its cursor is, its line is released and no search is reported. -/
theorem goodState_of_idle {s : State} (hc : GoodCursor s) (hb : s.busy = false) (hseq : s.seq = .idle)
    (hlow : s.wire.dqLow = false) (hss : s.sstate ≠ .searching) (hp : s.timing.Valid) : GoodState s := by
  obtain ⟨hdisc, hzero, hdev, hclear, hfound⟩ := hc
  exact ⟨hdisc, hzero, hdev, by simp [hb, hseq], fun _ => hlow, by simp [hb, hss], hclear, hfound, hp,
    by simp [hseq]⟩

/-- A good cursor stays good under every command, and no command leaves SSTATE at SEARCHING, where a command that is no
search did not find it there (R119, R120, R127 to R129). -/
theorem exec_keeps_goodCursor {i : Instr} {s t : State} (hc : GoodCursor s)
    (hss : ¬ IsSearch i → s.sstate ≠ .searching) (h : exec i s = .next t) :
    GoodCursor t ∧ t.sstate ≠ .searching ∧ t.timing = s.timing := by
  cases hact : activity s.data i with
  | crc =>
    obtain ⟨c8, c16, out, hexec⟩ := exec_of_crc hact
    cases (hexec s.wire s.seq s.agenda).symm.trans h
    exact ⟨hc, hss (not_isSearch_of_activity hact (by simp)), rfl⟩
  | searchReset =>
    obtain rfl := eq_srst_of_searchReset hact
    cases h
    obtain ⟨-, hzero, -, -, -⟩ := hc
    exact ⟨⟨Nat.zero_le _, hzero, fun _ => rfl, fun _ => ⟨rfl, rfl, rfl, rfl⟩, by simp⟩, by simp, rfl⟩
  | send bs =>
    cases (exec_of_send hact).symm.trans h
    exact ⟨hc, hss (not_isSearch_of_activity hact (by simp)), rfl⟩
  | receive n =>
    cases (exec_of_receive hact).symm.trans h
    exact ⟨hc, hss (not_isSearch_of_activity hact (by simp)), rfl⟩
  | busReset =>
    obtain rfl := eq_reset_of_busReset hact
    cases h
    exact ⟨hc, hss (not_isSearch_of_activity hact (by simp)), rfl⟩
  | pass =>
    obtain ⟨-, hz0, -, -, -⟩ := hc
    obtain ⟨z, w, evs, hz, -, -, hout⟩ :=
      searchPass_cases (searchByte i) { passStart i s with sstate := .searching }
    have hz64 : z.toNat ≤ 64 := hz (by simpa using hz0)
    rw [exec_of_isSearch ((activity_pass_iff _ _).1 hact)] at h
    rcases hout with ⟨code, presence, heq⟩ | ⟨a, hf, heq⟩ <;> rw [heq] at h <;> cases h
    · exact ⟨⟨Nat.zero_le _, hz64, fun _ => rfl, fun _ => ⟨rfl, rfl, rfl, rfl⟩, by simp [noAddressState]⟩,
        by simp [noAddressState], passStart_timing i s⟩
    · exact ⟨⟨hz64, hz64, fun h => of_decide_eq_true h, by simp [foundState], fun _ => ⟨rfl, hf⟩⟩,
        by simp [foundState], passStart_timing i s⟩

/-- A word is a search word exactly when it decodes to a search command (R119). -/
theorem isSearchWord_iff (w : Word) : isSearchWord w = true ↔ ∃ i, decodeWord w = .ok i ∧ IsSearch i := by
  cases hdec : decodeWord w with
  | error r => simp [isSearchWord, hdec]
  | ok i => cases i <;> simp [isSearchWord, hdec, IsSearch]

/-- Completion keeps the invariant (R26, R46, R51, R137). -/
theorem complete_keeps_goodState {s t : State} (hs : GoodState s) (h : complete s = .next t) :
    GoodState t ∧ t.timing = s.timing := by
  rcases complete_cases s with ⟨i, u, hdec, hcomp, hexec⟩ | ⟨r, hdec, hcomp⟩
  · obtain rfl : u = t := by simpa [hexec, hcomp] using h
    have hss : ¬ IsSearch i → s.sstate ≠ .searching := by
      intro hno hsearching
      obtain ⟨j, hj, hsj⟩ := (isSearchWord_iff _).1 (hs.searching_iff.1 hsearching).2
      cases hdec.symm.trans hj
      exact hno hsj
    obtain ⟨hc, hidle, htiming⟩ := exec_keeps_goodCursor hs.cursor hss hexec
    obtain ⟨v, evs, hv, hbusy, hseq, hafter, -⟩ := exec_completes i s
    cases hexec.symm.trans hv
    obtain ⟨hlow, -⟩ := hafter
    exact ⟨goodState_of_idle hc hbusy hseq hlow hidle (htiming ▸ hs.valid), htiming⟩
  · cases hcomp.symm.trans h
    have hidle : s.sstate ≠ .searching := by
      intro hsearching
      obtain ⟨j, hj, -⟩ := (isSearchWord_iff _).1 (hs.searching_iff.1 hsearching).2
      cases hdec.symm.trans hj
    exact ⟨goodState_of_idle hs.cursor rfl rfl rfl hidle hs.valid, rfl⟩

/-- Issue from an idle block keeps the invariant (R14, R119). -/
theorem issue_keeps_goodState {s : State} (hs : GoodState s) (hb : s.busy = false) (w : Word) :
    GoodState (drivePin (issue w s)) := by
  have hidle : s.sstate ≠ .searching := fun h => by simp [hs.searching_iff, hb] at h
  obtain ⟨hdisc, hzero, hdev, hclear, hfound⟩ := hs.cursor
  refine ⟨hdisc, hzero, hdev, by simp, by simp, ?_, ?_, ?_, hs.valid, ?_⟩
  · cases hw : isSearchWord w <;> simp [hw, hidle]
  · cases hw : isSearchWord w
    · simpa [hw] using hclear
    · simp [hw]
  · cases hw : isSearchWord w
    · simpa [hw] using hfound
    · simp [hw]
  · rintro t ⟨⟩
    exact Nat.le_refl _

/-- A host write keeps the invariant (R44, R45). -/
theorem writeReg_keeps_goodState {s : State} (hs : GoodState s) (r : Reg) (v : Word) :
    GoodState (writeReg r v s) ∧ (writeReg r v s).timing = s.timing := by
  rcases writeReg_cases r v s with ⟨hb, -, h⟩ | ⟨-, h⟩ | ⟨-, -, d, h⟩ | ⟨-, -, h⟩ | ⟨-, -, h⟩ | ⟨-, h⟩ <;> rw [h]
  · exact ⟨issue_keeps_goodState hs hb v, rfl⟩
  all_goals exact ⟨hs, rfl⟩

/-- Time on the line keeps the invariant (R32, R94). -/
theorem elapse_keeps_goodState {s : State} (hs : GoodState s) (n : Nat) :
    GoodState (elapse n s) ∧ (elapse n s).timing = s.timing := by
  obtain ⟨hdisc, hzero, hdev, hseq, hlow, hss, hclear, hfound, hvalid, hnow⟩ := hs
  rcases elapse_cases n s with ⟨hidle, h⟩ | ⟨e, b, hrun, h⟩ <;> rw [h]
  · exact ⟨⟨hdisc, hzero, hdev, hseq, hlow, hss, hclear, hfound, hvalid, by simp [hidle]⟩, rfl⟩
  · have hbusy : s.busy = true := by simpa [hrun] using hseq
    refine ⟨⟨hdisc, hzero, hdev, by simp [hbusy], by simp [hbusy], hss, hclear, hfound, hvalid, ?_⟩, rfl⟩
    rintro t ⟨⟩
    exact Nat.le_trans (hnow e hrun) (Nat.le_add_right e n)

/-- A block reset leaves a good state of a block with valid parameters (R36, R151). -/
theorem blockReset_goodState {s : State} (hp : s.timing.Valid) : GoodState (blockReset s) := by
  have hlow : (wireAfterReset s).dqLow = false := by
    unfold wireAfterReset
    split <;> rfl
  refine goodState_of_idle ⟨Nat.zero_le _, Nat.zero_le _, fun _ => rfl, fun _ => ⟨rfl, rfl, rfl, rfl⟩, ?_⟩ rfl rfl hlow
    ?_ hp <;> simp [blockReset, State.reset]

theorem takeTurn_keeps_goodState {a : Turn} {s t : State} (hs : GoodState s) (h : takeTurn a s = .next t) :
    GoodState t ∧ t.timing = s.timing := by
  rcases takeTurn_cases h with
    ⟨off, v, -, -, rfl⟩ | ⟨off, -, -, rfl⟩ | ⟨-, -, hc⟩ | ⟨-, -, rfl⟩ | ⟨n, -, rfl⟩ | ⟨-, rfl⟩
  · exact writeReg_keeps_goodState hs _ v
  · exact ⟨hs, rfl⟩
  · exact complete_keeps_goodState hs hc
  · exact ⟨hs, rfl⟩
  · exact elapse_keeps_goodState hs n
  · exact ⟨blockReset_goodState hs.valid, rfl⟩

/-- Settles O10: every turn keeps the invariant, and so does a completion. -/
theorem everyStepKeepsTheInvariant : Obligations.EveryStepKeepsTheInvariant := by
  unfold Obligations.EveryStepKeepsTheInvariant
  intro s t hs h
  rcases step_cases h with ⟨a, rest, -, hturn⟩ | ⟨-, -, hc⟩ | ⟨-, -, rfl⟩
  · exact takeTurn_keeps_goodState (s := { s with agenda := rest }) hs hturn
  · exact complete_keeps_goodState hs hc
  · exact ⟨hs, rfl⟩

/-! ### The timebase -/

/-- A running command's instant is the reading in `seq` (R10, R32). -/
theorem instant_of_running {s : State} {e : Nat} (h : s.seq = .running e) (hle : s.wire.now ≤ e) : s.instant = e := by
  simp [State.instant, h, hle]

theorem instant_of_idle {s : State} (h : s.seq = .idle) : s.instant = s.wire.now := by
  simp [State.instant, h]

/-- A completion comes at this instant or after it (R10). -/
theorem complete_instant_le {s t : State} (hs : GoodState s) (hb : s.busy = true) (h : complete s = .next t) :
    s.instant ≤ t.instant := by
  obtain ⟨e, hrun, hle⟩ := hs.running_of_busy hb
  have hreading : s.seq.reading = e := by simp [hrun]
  rw [instant_of_running hrun hle, ← hreading]
  rcases complete_cases s with ⟨i, u, -, hcomp, hexec⟩ | ⟨r, -, hcomp⟩
  · obtain ⟨v, evs, hv, -, hseq, hafter, -⟩ := exec_completes i s
    obtain rfl : v = t := by simpa [hcomp, hv] using h
    obtain ⟨-, -, -, -, hnow⟩ := hafter
    rw [instant_of_idle hseq, hnow hs.valid]
    exact Nat.le_max_right _ _
  · cases hcomp.symm.trans h
    exact finish_instant .illegal { s with errIllegal := true }

/-- A block reset leaves the timebase where it is (R10, R151). -/
theorem blockReset_instant (s : State) : (blockReset s).instant = s.instant := by
  rw [instant_of_idle (s := blockReset s) rfl, blockReset_eq]
  unfold wireAfterReset
  split
  · next h => exact (instant_of_idle h).symm
  · rfl

theorem takeTurn_instant_le {a : Turn} {s t : State} (hs : GoodState s) (h : takeTurn a s = .next t) :
    s.instant ≤ t.instant := by
  rcases takeTurn_cases h with
    ⟨off, v, -, -, rfl⟩ | ⟨off, -, -, rfl⟩ | ⟨-, hb, hc⟩ | ⟨-, -, rfl⟩ | ⟨n, -, rfl⟩ | ⟨-, rfl⟩
  · rcases writeReg_cases (regAt off) v s with
      ⟨hb, -, h⟩ | ⟨-, h⟩ | ⟨-, -, d, h⟩ | ⟨-, -, h⟩ | ⟨-, -, h⟩ | ⟨-, h⟩ <;> rw [h]
    · rw [instant_of_idle (hs.seq_of_idle hb)]
      exact Nat.le_max_left _ _
    all_goals exact Nat.le_refl _
  · exact Nat.le_refl _
  · exact complete_instant_le hs hb hc
  · exact Nat.le_refl _
  · rcases elapse_cases n s with ⟨-, h⟩ | ⟨e, b, hrun, h⟩ <;> rw [h] <;> simp [State.instant, *] <;> omega
  · rw [blockReset_instant]

/-- Settles O60: no turn takes the instant back, and a completion comes no earlier than the reading in `seq`. -/
theorem theTimebaseIsMonotonic : Obligations.TheTimebaseIsMonotonic := by
  unfold Obligations.TheTimebaseIsMonotonic
  intro s t hs h
  rcases step_cases h with ⟨a, rest, -, hturn⟩ | ⟨-, hb, hc⟩ | ⟨-, -, rfl⟩
  · exact takeTurn_instant_le (s := { s with agenda := rest }) hs hturn
  · exact complete_instant_le hs hb hc
  · exact Nat.le_refl _

end Sys2Proof.Machine
end

section
/-! PROOFS. The CRC steps as rounds of one shift register, which is linear (42_crc.md R105, R108): settles O55. -/

namespace Sys2Proof.Machine

/-- One round of a reflected CRC register of any width (R105, R108). -/
def crcRound {n : Nat} (poly x : BitVec n) : BitVec n := if x.getLsbD 0 then (x >>> 1) ^^^ poly else x >>> 1

theorem crcRound_xor {n : Nat} (poly x y : BitVec n) :
    crcRound poly (x ^^^ y) = crcRound poly x ^^^ crcRound poly y := by
  have hshift : (x ^^^ y) >>> 1 = x >>> 1 ^^^ y >>> 1 := BitVec.ushiftRight_xor_distrib x y 1
  have hcancel : ∀ a b : BitVec n, a ^^^ b = (a ^^^ poly) ^^^ (b ^^^ poly) := fun a b => by
    rw [BitVec.xor_assoc, BitVec.xor_comm b, ← BitVec.xor_assoc poly, BitVec.xor_self, BitVec.zero_xor]
  unfold crcRound
  rw [BitVec.getLsbD_xor, hshift]
  cases x.getLsbD 0 <;> cases y.getLsbD 0 <;>
    simp only [Bool.xor_self, Bool.xor_false, Bool.xor_true, Bool.not_false, Bool.false_eq_true, if_true, if_false]
  · exact BitVec.xor_assoc _ _ _
  · rw [BitVec.xor_assoc, BitVec.xor_comm (y >>> 1), ← BitVec.xor_assoc]
  · exact hcancel _ _

theorem crcRound_iterate_xor {n : Nat} (poly : BitVec n) (k : Nat) (x y : BitVec n) :
    (crcRound poly)^[k] (x ^^^ y) = (crcRound poly)^[k] x ^^^ (crcRound poly)^[k] y := by
  induction k generalizing x y with
  | zero => rfl
  | succ k ih => simp only [Function.iterate_succ_apply, crcRound_xor, ih]

/-- As long as only zeros leave the register, a round is a shift. -/
theorem crcRound_iterate_of_low_zero {n : Nat} (poly : BitVec n) (k : Nat) (x : BitVec n)
    (h : ∀ j, j < k → x.getLsbD j = false) : (crcRound poly)^[k] x = x >>> k := by
  induction k generalizing x with
  | zero => simp
  | succ k ih =>
    have hround : crcRound poly x = x >>> 1 := by simp [crcRound, h 0 (by omega)]
    rw [Function.iterate_succ_apply, hround, ih _ fun j hj => ?_, ← BitVec.shiftRight_add, Nat.add_comm]
    rw [BitVec.getLsbD_ushiftRight, h (1 + j) (by omega)]

/-! ### CRC-8 -/

/-- A round of the CRC-8 loop, told on the XOR of its operands. -/
theorem crc8_round_xor (c b : Byte) :
    (if (c ^^^ b).getLsbD 0 then (c >>> 1) ^^^ 0x8C else c >>> 1) ^^^ b >>> 1 = crcRound 0x8C (c ^^^ b) := by
  have hshift : (c ^^^ b) >>> 1 = c >>> 1 ^^^ b >>> 1 := BitVec.ushiftRight_xor_distrib c b 1
  unfold crcRound
  rw [hshift]
  split
  · rw [BitVec.xor_assoc, BitVec.xor_comm _ (b >>> 1), BitVec.xor_assoc]
  · rfl

/-- The CRC-8 loop is the register on the XOR of its operands, with what is left of the data byte on top. -/
theorem crc8Rounds_eq (n : Nat) (c b : Byte) : crc8Rounds n c b = (crcRound 0x8C)^[n] (c ^^^ b) ^^^ b >>> n := by
  induction n generalizing c b with
  | zero => simp [crc8Rounds]
  | succ n ih =>
    rw [crc8Rounds, ih, crc8_round_xor, Function.iterate_succ_apply, ← BitVec.shiftRight_add, Nat.add_comm]

theorem crc8Step_eq (c b : Byte) : crc8Step c b = (crcRound 0x8C)^[8] (c ^^^ b) := by
  have hb : b >>> 8 = 0#8 :=
    BitVec.eq_of_toNat_eq (by simp [BitVec.toNat_ushiftRight, Nat.shiftRight_eq_div_pow]; omega)
  rw [crc8Step, crc8Rounds_eq, hb, BitVec.xor_zero]

/-! ### CRC-16 -/

theorem crc16Step_eq (poly c : Half) (b : Byte) :
    crc16Step poly c b = (crcRound poly)^[8] (c ^^^ b.setWidth 16) := by
  have hrounds : ∀ n x, crc16Rounds poly n x = (crcRound poly)^[n] x := by
    intro n
    induction n with
    | zero => exact fun _ => rfl
    | succ n ih => exact fun x => ih _
  exact hrounds 8 _

/-- A CRC is its high byte in place and its low byte. -/
theorem half_eq_high_xor_low (c : Half) : c = ((c >>> 8) <<< 8) ^^^ (c.setWidth 8).setWidth 16 := by
  apply BitVec.eq_of_getLsbD_eq
  intro j hj
  by_cases h : j < 8
  · simp [h, hj]
  · simp [h, hj, show 8 + (j - 8) = j by omega]

/-- Eight rounds bring the high byte down and fold the low one (R108, R118). -/
theorem crcRound_iterate_half (poly c : Half) :
    (crcRound poly)^[8] c = (c >>> 8) ^^^ (crcRound poly)^[8] ((c.setWidth 8).setWidth 16) := by
  have hhigh : (crcRound poly)^[8] ((c >>> 8) <<< 8) = c >>> 8 := by
    rw [crcRound_iterate_of_low_zero poly 8 _ fun j hj => by simp [hj]]
    apply BitVec.eq_of_getLsbD_eq
    intro j hj
    by_cases h : 8 + j < 16
    · simp [h]
    · simp [h, BitVec.getLsbD_of_ge c (8 + j) (by omega)]
  conv_lhs => rw [half_eq_high_xor_low c, crcRound_iterate_xor, hhigh]

theorem crc16Step_high_low (poly c : Half) (b : Byte) :
    crc16Step poly c b = (c >>> 8) ^^^ crc16Step poly 0 (c.setWidth 8 ^^^ b) := by
  have hlow : (c ^^^ b.setWidth 16).setWidth 8 = c.setWidth 8 ^^^ b := by simp [BitVec.setWidth_xor]
  have hhigh : (c ^^^ b.setWidth 16) >>> 8 = c >>> 8 := by
    apply BitVec.eq_of_getLsbD_eq
    intro j hj
    simp
  rw [crc16Step_eq, crcRound_iterate_half, hlow, hhigh, crc16Step_eq]
  simp

theorem crc16Step_zero_xor (poly : Half) (x y : Byte) :
    crc16Step poly 0 (x ^^^ y) = crc16Step poly 0 x ^^^ crc16Step poly 0 y := by
  simp [crc16Step_eq, BitVec.setWidth_xor, crcRound_iterate_xor]

/-- The one-bit byte in a CRC-16 register (the bit as the statement writes it, a number in the register's width). -/
theorem crc16Step_one_bit (poly : Half) {k : Nat} (hk : k < 8) :
    crc16Step poly 0 ((1 <<< k : Nat) : Byte) = (crcRound poly)^[8] ((1 <<< k : Nat) : Half) := by
  have hwidth : ((1 <<< k : Nat) : Byte).setWidth 16 = ((1 <<< k : Nat) : Half) := by
    interval_cases k <;> rfl
  rw [crc16Step_eq, hwidth, BitVec.ofNat_eq_ofNat, BitVec.zero_xor]

/-- A round moves a single bit down. -/
theorem crcRound_one_bit (poly : Half) {k : Nat} (hk : k < 8) :
    crcRound poly ((1 <<< (k + 1) : Nat) : Half) = ((1 <<< k : Nat) : Half) := by
  interval_cases k <;> rfl

/-- The top bit of a byte leaves the polynomial: seven shifts and one round that adds it. -/
theorem crc16Step_top_bit (poly : Half) : crc16Step poly 0 0x80 = poly := by
  have hshifts : (crcRound poly)^[7] (0x80 : Half) = 1 :=
    crcRound_iterate_of_low_zero poly 7 0x80 (by decide)
  have hround : crcRound poly (1 : Half) = poly := BitVec.zero_xor
  calc crc16Step poly 0 0x80 = (crcRound poly)^[8] (0x80 : Half) := crc16Step_one_bit poly (k := 7) (by omega)
    _ = crcRound poly ((crcRound poly)^[7] 0x80) := Function.iterate_succ_apply' _ _ _
    _ = poly := by rw [hshifts, hround]

/-- Each bit below leaves one more round of the loop. -/
theorem crc16Step_lower_bit (poly : Half) {k : Nat} (hk : k < 7) :
    crc16Step poly 0 ((1 <<< k : Nat) : Byte) = crcRound poly (crc16Step poly 0 ((1 <<< (k + 1) : Nat) : Byte)) := by
  rw [crc16Step_one_bit poly (by omega), crc16Step_one_bit poly (by omega), ← crcRound_one_bit poly (by omega),
    ← Function.iterate_succ_apply (crcRound poly), Function.iterate_succ_apply']

/-- Settles O55: both steps are rounds of a linear register. -/
theorem crcStepsAreTheBitLoops : Obligations.CrcStepsAreTheBitLoops := by
  unfold Obligations.CrcStepsAreTheBitLoops
  have hxor : ∀ c b : Byte, crc8Step c b = crc8Step 0 (c ^^^ b) := fun c b => by
    rw [crc8Step_eq, crc8Step_eq]
    simp
  have hlinear : ∀ x y : Byte, crc8Step 0 (x ^^^ y) = crc8Step 0 x ^^^ crc8Step 0 y := fun x y => by
    simp [crc8Step_eq, crcRound_iterate_xor]
  refine ⟨⟨hxor, hlinear, by decide⟩, fun p => ⟨crc16Step_high_low p, crc16Step_zero_xor p, crc16Step_top_bit p, ?_⟩⟩
  rintro k hk x rfl
  exact crc16Step_lower_bit p hk

end Sys2Proof.Machine
end

section
/-! PROOFS. The line while a command runs (10_state.md R32, R33; 20_memory.md R47): the pin at any time of a run is what
the waveform of the whole command has there. -/

namespace Sys2Proof.Machine

/-! ### The line of a command as a run of elementary moves -/

/-- What follows the bit loop settles the line. -/
theorem afterBits_wire (r : Bool × State) : (afterBits r).wire = r.2.wire.settle r.2.seq.reading := by
  rcases afterBits_cases r with ⟨code, h⟩ | ⟨-, h⟩ <;> rw [h] <;> rfl

/-- The bit loop and what follows it (R123 to R128). -/
theorem searchRest_run (c : Byte) (s : State) :
    ∃ w, (searchRest c s).wire = w.settle s.seq.reading ∧ WireRun s.timing s.wire w := by
  refine ⟨(searchBits 64 1 (bitsStart c s)).2.wire, ?_, (writeBits_run _ (lsbBits c) s.wire).trans
    (searchBits_run 64 1 (bitsStart c s))⟩
  rw [searchRest_eq, afterBits_wire, searchBits_seq]
  rfl

theorem searchPass_run (c : Byte) (s : State) :
    ∃ w, (searchPass c s).wire = w.settle s.seq.reading ∧ WireRun s.timing s.wire w := by
  have hreset := busReset_run s.timing s.wire
  cases hdev : s.lastDev with
  | true => exact ⟨s.wire, by rw [searchPass_of_lastDev c hdev]; rfl, .refl⟩
  | false =>
    cases ho : (busReset s.timing s.wire).1 with
    | stuck => exact ⟨_, by rw [searchPass_of_stuck c hdev ho]; rfl, hreset⟩
    | absent => exact ⟨_, by rw [searchPass_of_absent c hdev ho]; rfl, hreset⟩
    | present =>
      obtain ⟨w, hw, hrun⟩ := searchRest_run c (afterBusReset s)
      exact ⟨w, by rw [searchPass_of_present c hdev ho, hw]; rfl, hreset.trans hrun⟩

/-- Every command's line is a run of elementary moves, settled (R51, R93). -/
theorem exec_run {i : Instr} {s t : State} (h : exec i s = .next t) :
    ∃ w, t.wire = w.settle s.seq.reading ∧ WireRun s.timing s.wire w := by
  cases hact : activity s.data i with
  | crc =>
    obtain ⟨c8, c16, out, hexec⟩ := exec_of_crc hact
    cases (hexec s.wire s.seq s.agenda).symm.trans h
    exact ⟨s.wire, rfl, .refl⟩
  | searchReset =>
    obtain rfl := eq_srst_of_searchReset hact
    cases h
    exact ⟨s.wire, rfl, .refl⟩
  | send bs =>
    cases (exec_of_send hact).symm.trans h
    exact ⟨_, rfl, writeBits_run _ bs s.wire⟩
  | receive n =>
    cases (exec_of_receive hact).symm.trans h
    exact ⟨_, rfl, readBits_run _ n s.wire⟩
  | busReset =>
    obtain rfl := eq_reset_of_busReset hact
    cases h
    exact ⟨_, rfl, busReset_run _ s.wire⟩
  | pass =>
    obtain ⟨w, hw, hrun⟩ := searchPass_run (searchByte i) { passStart i s with sstate := .searching }
    cases (exec_of_isSearch ((activity_pass_iff _ _).1 hact) s).symm.trans h
    exact ⟨w, by simpa using hw, by simpa using hrun⟩

/-! ### What no command reads: the reading in `seq`, the turns to come, the pin's level -/

/-- The state with another reading, other turns to come and another pin level. -/
def State.rerun (q : Seq) (a : List Turn) (low : Bool) (s : State) : State :=
  { s with seq := q, agenda := a, wire := { s.wire with dqLow := low } }

theorem writeBits_rerun {bs : List Bool} (h : 0 < bs.length) (p : Timing) (low : Bool) (w : Wire) :
    writeBits p bs { w with dqLow := low } = writeBits p bs w := by
  cases bs with
  | nil => simp at h
  | cons b bs => rfl

theorem readBits_rerun {n : Nat} (h : 0 < n) (p : Timing) (low : Bool) (w : Wire) :
    readBits p n { w with dqLow := low } = readBits p n w := by
  cases n with
  | zero => omega
  | succ n => rfl

theorem busReset_rerun (p : Timing) (low : Bool) (w : Wire) :
    busReset p { w with dqLow := low } = busReset p w := rfl

theorem searchBits_rerun (q : Seq) (a : List Turn) (n pos : Nat) (s : State) :
    searchBits n pos { s with seq := q, agenda := a } =
      ((searchBits n pos s).1, { (searchBits n pos s).2 with seq := q, agenda := a }) := by
  induction n generalizing pos s with
  | zero => rfl
  | succ n ih =>
    simp only [searchBits_succ]
    have hid : idBit { s with seq := q, agenda := a } = idBit s := rfl
    have hcmp : cmpBit { s with seq := q, agenda := a } = cmpBit s := rfl
    rw [hid, hcmp]
    split
    · rfl
    · exact ih (pos + 1) (afterPosition pos s)

/-- Two lines with the same trace and the same waveform. -/
def SameHistory (w w' : Wire) : Prop := w'.trace = w.trace ∧ w'.wave = w.wave

theorem sameHistory_settle {w w' : Wire} (h : w' = w) (t t' : Nat) : SameHistory (w.settle t) (w'.settle t') := by
  rw [h]
  exact ⟨rfl, rfl⟩

theorem searchRest_rerun (q : Seq) (a : List Turn) (c : Byte) (s : State) :
    SameHistory (searchRest c s).wire (searchRest c { s with seq := q, agenda := a }).wire := by
  have hbits := searchBits_rerun q a 64 1 (bitsStart c s)
  have hstart : bitsStart c { s with seq := q, agenda := a } = { bitsStart c s with seq := q, agenda := a } := rfl
  rw [searchRest_eq, searchRest_eq, hstart, hbits, afterBits_wire, afterBits_wire]
  exact sameHistory_settle rfl _ _

theorem searchPass_rerun (q : Seq) (a : List Turn) (low : Bool) (c : Byte) (s : State) :
    SameHistory (searchPass c s).wire (searchPass c (s.rerun q a low)).wire := by
  have hreset : busReset (s.rerun q a low).timing (s.rerun q a low).wire = busReset s.timing s.wire :=
    busReset_rerun _ _ _
  have hafter : afterBusReset (s.rerun q a low) = { afterBusReset s with seq := q, agenda := a } := rfl
  cases hdev : s.lastDev with
  | true =>
    rw [searchPass_of_lastDev c hdev, searchPass_of_lastDev c (s := s.rerun q a low) hdev]
    exact ⟨rfl, rfl⟩
  | false =>
    cases ho : (busReset s.timing s.wire).1 with
    | stuck =>
      rw [searchPass_of_stuck c hdev ho, searchPass_of_stuck c (s := s.rerun q a low) hdev (hreset ▸ ho), hafter]
      exact ⟨rfl, rfl⟩
    | absent =>
      rw [searchPass_of_absent c hdev ho, searchPass_of_absent c (s := s.rerun q a low) hdev (hreset ▸ ho), hafter]
      exact ⟨rfl, rfl⟩
    | present =>
      rw [searchPass_of_present c hdev ho, searchPass_of_present c (s := s.rerun q a low) hdev (hreset ▸ ho), hafter]
      exact searchRest_rerun q a c (afterBusReset s)

/-- A command makes the same trace and waveform whatever the reading, the turns to come and the pin's level. -/
theorem exec_rerun {i : Instr} {s t t' : State} (q : Seq) (a : List Turn) (low : Bool) (h : exec i s = .next t)
    (h' : exec i (s.rerun q a low) = .next t') : SameHistory t.wire t'.wire := by
  cases hact : activity s.data i with
  | crc =>
    obtain ⟨c8, c16, out, hexec⟩ := exec_of_crc hact
    cases (hexec s.wire s.seq s.agenda).symm.trans h
    cases (hexec { s.wire with dqLow := low } q a).symm.trans h'
    exact ⟨rfl, rfl⟩
  | searchReset =>
    obtain rfl := eq_srst_of_searchReset hact
    cases h
    cases h'
    exact ⟨rfl, rfl⟩
  | send bs =>
    cases (exec_of_send hact).symm.trans h
    cases (exec_of_send (s := s.rerun q a low) hact).symm.trans h'
    have hline := writeBits_rerun (length_of_send hact).1 s.timing low s.wire
    exact sameHistory_settle hline _ _
  | receive n =>
    cases (exec_of_receive hact).symm.trans h
    cases (exec_of_receive (s := s.rerun q a low) hact).symm.trans h'
    have hline := congrArg Prod.snd (readBits_rerun (count_of_receive hact).1 s.timing low s.wire)
    exact sameHistory_settle hline _ _
  | busReset =>
    obtain rfl := eq_reset_of_busReset hact
    cases h
    cases h'
    have hline := congrArg Prod.snd (busReset_rerun s.timing low s.wire)
    exact sameHistory_settle hline _ _
  | pass =>
    have hsearch := (activity_pass_iff _ _).1 hact
    have hstart : passStart i (s.rerun q a low) = (passStart i s).rerun q a low := by
      unfold passStart
      split <;> rfl
    cases (exec_of_isSearch hsearch s).symm.trans h
    cases (exec_of_isSearch hsearch (s.rerun q a low)).symm.trans h'
    rw [hstart]
    exact searchPass_rerun q a low (searchByte i) { passStart i s with sstate := .searching }

/-! ### The pin of a running command -/

/-- The line as a latched command will leave it, from a pin released (R47). -/
theorem pendingWire_of_exec {i : Instr} {s t : State} (hdec : decodeWord s.cmdLatch = .ok i)
    (h : exec i (s.rerun s.seq s.agenda false) = .next t) : pendingWire s = t.wire := by
  have hcomp : complete { s with wire := { s.wire with dqLow := false } } = .next t := by
    simp only [complete, hdec]
    exact h
  simp only [pendingWire, hcomp]

theorem lineLow_eq_pinAt (s : State) : lineLow s = pinAt s.instant (pendingEdges s) := rfl

/-- An illegal word drives nothing (R47, R137). -/
theorem lineLow_of_illegal {s : State} {r : Illegal} (hdec : decodeWord s.cmdLatch = .error r) : lineLow s = false := by
  have hnone : pendingEdges s = [] := by simp [pendingEdges, pendingWire, complete, hdec, completeIllegal]
  rw [lineLow_eq_pinAt, hnone, pinAt_nil]

/-- A command drives the line low exactly in the low phases of its events, counted from its start (R33, R93). -/
theorem lineLow_eq_drivenLow {i : Instr} {s u : State} {d : Nat} (hp : s.timing.Valid)
    (hdec : decodeWord s.cmdLatch = .ok i) (hd : s.instant = s.wire.now + d) (h : exec i s = .next u) :
    lineLow s = drivenLow s.timing (u.wire.trace.drop s.wire.trace.length) d := by
  obtain ⟨t, ht⟩ := exec_answers_next i (s.rerun s.seq s.agenda false)
  obtain ⟨htrace, hwave⟩ := exec_rerun _ _ _ h ht
  obtain ⟨w, hw, hrun⟩ := exec_run h
  obtain ⟨evs, marks, hevs, hmarks, hshows⟩ := extends_of_run hrun
  obtain ⟨-, -, hpin⟩ := hshows hp
  have hedges : pendingEdges s = marks := by
    rw [pendingEdges, pendingWire_of_exec hdec ht, hwave, hw, Wire.settle_wave, hmarks, List.drop_left]
  rw [lineLow_eq_pinAt, hd, hedges, hpin, hw, Wire.settle_trace, hevs, List.drop_left]

/-- The state of a running command `n` microseconds on, before its pin is driven. -/
def runOn (now : Nat) (rest : List Turn) (s : State) : State := { s with agenda := rest, seq := .running now }

/-- Time passes while a command runs: the reading moves on and the pin follows; no result is written (R32, R33). -/
theorem step_elapse_of_running {s : State} {now n : Nat} {rest : List Turn} (hseq : s.seq = .running now)
    (hag : s.agenda = .elapse n :: rest) : step s = .next (drivePin (runOn (now + n) rest s)) := by
  simp [step, takeTurn, elapse, runOn, hag, hseq]

theorem sameResults_drivePin_runOn (now : Nat) (rest : List Turn) (s : State) :
    SameResults s (drivePin (runOn now rest s)) :=
  ⟨rfl, rfl, rfl, rfl, rfl, rfl, rfl, rfl, rfl, rfl, rfl, rfl, rfl, rfl, rfl⟩

theorem runOn_instant (s : State) (rest : List Turn) (d : Nat) :
    (runOn (s.wire.now + d) rest s).instant = s.wire.now + d :=
  instant_of_running (s := runOn (s.wire.now + d) rest s) rfl (Nat.le_add_right _ _)

/-- Settles O59: the events of the command are the same at every instant of its run, and the waveform shows them. -/
theorem theLineIsLiveDuringACommand : Obligations.TheLineIsLiveDuringACommand := by
  unfold Obligations.TheLineIsLiveDuringACommand
  intro s e n rest hp hbusy hseq hag
  refine ⟨_, step_elapse_of_running hseq hag, hbusy, rfl, sameResults_drivePin_runOn _ _ _, ?_, ?_⟩
  · intro i u hdec hexec
    obtain ⟨v, hv⟩ := exec_answers_next i (runOn (s.wire.now + (e + n)) rest s)
    obtain ⟨htrace, -⟩ := exec_rerun (.running (s.wire.now + (e + n))) rest s.wire.dqLow hexec hv
    rw [drivePin_dqLow, Nat.add_assoc, ← htrace]
    exact lineLow_eq_drivenLow hp hdec (runOn_instant s rest (e + n)) hv
  · intro r hdec
    exact lineLow_of_illegal (s := runOn (s.wire.now + e + n) rest s) hdec

/-- Settles O23: the one slot of `WBIT` drives the line low from its start, whatever the parameters. -/
theorem theLineIsLiveDuringAWriteSlot : Obligations.TheLineIsLiveDuringAWriteSlot := by
  unfold Obligations.TheLineIsLiveDuringAWriteSlot
  intro s b e n rest hbusy hseq hdec hag
  refine ⟨_, step_elapse_of_running hseq hag, hbusy, rfl, sameResults_drivePin_runOn _ _ _, ?_⟩
  have hedges : pendingEdges (runOn (s.wire.now + (e + n)) rest s) =
      [.low s.wire.now, .release (s.wire.now + lowTime s.timing (.write b))] := by
    rw [pendingEdges, pendingWire_of_exec (s := runOn (s.wire.now + (e + n)) rest s) (i := .wbit b) hdec rfl]
    change List.drop s.wire.wave.length (writeSlot s.timing b { s.wire with dqLow := false }).wave = _
    rw [writeSlot_wave, List.drop_left]
  rw [drivePin_dqLow, Nat.add_assoc, lineLow_eq_pinAt, runOn_instant, hedges, pinAt_low_release, decide_eq_true_iff]
  rfl

end Sys2Proof.Machine
end

section
/-! PROOFS. The environment reaches the block through the samples alone (00_scope.md R12, R52): two runs from lines that
differ in the environment, and that leave the same trace, take the same samples. A trace only grows, so the two lines
agree with that trace at every point of the runs, and each sample is read off it. Settles O54. -/

namespace Sys2Proof.Machine

/-! ### Another environment, and two traces that agree -/

/-- The line with another environment. -/
def Wire.withEnv (e : Env) (w : Wire) : Wire := { w with env := e }

/-- The state with another environment. -/
def State.withEnv (e : Env) (s : State) : State := { s with wire := s.wire.withEnv e }

/-- Both traces are beginnings of the trace `T`. -/
def Agree (T : List WireEvent) (w w' : Wire) : Prop := w.trace <+: T ∧ w'.trace <+: T

/-- Lines that agree after runs agreed before them. -/
theorem Agree.before {T : List WireEvent} {p p' : Timing} {w w' w1 w1' : Wire} (h : Agree T w1 w1')
    (hw : WireRun p w w1) (hw' : WireRun p' w' w1') : Agree T w w' :=
  ⟨hw.trace_prefix.trans h.1, hw'.trace_prefix.trans h.2⟩

/-- The event that comes next in `T` is one event. -/
theorem event_eq_of_agree {T xs : List WireEvent} {a b : WireEvent} (ha : xs ++ [a] <+: T) (hb : xs ++ [b] <+: T) :
    a = b := by
  have heq := (List.prefix_of_prefix_length_le ha hb (by simp)).eq_of_length (by simp)
  simpa using heq

/-! ### The line procedures with their sample given -/

/-- The line after a read slot that reads `v`. -/
def readReading (p : Timing) (v : Bool) (w : Wire) : Wire :=
  ((((((w.driveLow).waitUntil (w.now + p.tRdlow)).release).waitUntil (w.now + p.tRds)).sampled v).waitUntil
    (w.now + p.tSlot + p.tRec)).emit (.read v)

/-- The line after a reset pulse whose presence sample reads `v`. -/
def pulseReading (p : Timing) (v : Bool) (w : Wire) : Wire :=
  ((((((w.driveLow).waitUntil (w.now + p.tRstl)).release).waitUntil (w.now + p.tRstl + p.tPds)).sampled v).emit
    (.rst v)).waitUntil (w.now + p.tRstl + p.tPds + p.tRstrec)

theorem readSlot_eq (p : Timing) (w : Wire) :
    readSlot p w = ((readSlot p w).1, readReading p (readSlot p w).1 w) := rfl

theorem resetPulse_eq (p : Timing) (w : Wire) :
    resetPulse p w = ((resetPulse p w).1, pulseReading p (resetPulse p w).1 w) := rfl

theorem readReading_withEnv (p : Timing) (v : Bool) (e : Env) (w : Wire) :
    readReading p v (w.withEnv e) = (readReading p v w).withEnv (e.after (.read v)) := rfl

theorem pulseReading_withEnv (p : Timing) (v : Bool) (e : Env) (w : Wire) :
    pulseReading p v (w.withEnv e) = (pulseReading p v w).withEnv (e.after (.rst v)) := rfl

theorem pollReading_withEnv (p : Timing) (v : Bool) (e : Env) (w : Wire) :
    pollReading p v (w.withEnv e) = (pollReading p v w).withEnv (e.after (.poll v)) := rfl

/-! ### The line procedures in two environments -/

theorem writeBits_withEnv (p : Timing) (bs : List Bool) (e : Env) (w : Wire) :
    ∃ e', writeBits p bs (w.withEnv e) = (writeBits p bs w).withEnv e' := by
  induction bs generalizing e w with
  | nil => exact ⟨e, rfl⟩
  | cons b bs ih => exact ih (e.after (.write b)) (writeSlot p b w)

theorem readSlot_withEnv {T : List WireEvent} {p : Timing} {e : Env} {w : Wire}
    (h : Agree T (readSlot p w).2 (readSlot p (w.withEnv e)).2) :
    ∃ e', readSlot p (w.withEnv e) = ((readSlot p w).1, (readSlot p w).2.withEnv e') := by
  have hbit : (readSlot p w).1 = (readSlot p (w.withEnv e)).1 :=
    WireEvent.read.inj (event_eq_of_agree (xs := w.trace) h.1 h.2)
  exact ⟨_, by rw [readSlot_eq, ← hbit, readReading_withEnv]; rfl⟩

theorem resetPulse_withEnv {T : List WireEvent} {p : Timing} {e : Env} {w : Wire}
    (h : Agree T (resetPulse p w).2 (resetPulse p (w.withEnv e)).2) :
    ∃ e', resetPulse p (w.withEnv e) = ((resetPulse p w).1, (resetPulse p w).2.withEnv e') := by
  have hbit : (resetPulse p w).1 = (resetPulse p (w.withEnv e)).1 :=
    WireEvent.rst.inj (event_eq_of_agree (xs := w.trace) h.1 h.2)
  exact ⟨_, by rw [resetPulse_eq, ← hbit, pulseReading_withEnv]; rfl⟩

theorem pollReading_run (p : Timing) (n : Nat) (w : Wire) :
    WireRun p (pollReading p (pollBit p w) w) (idleWait p (n + 1) w).2 := by
  rw [idleWait_succ]
  split
  · exact .refl
  · exact idleWait_run p n _

theorem idleWait_withEnv {T : List WireEvent} {p : Timing} {n : Nat} {e : Env} {w : Wire}
    (h : Agree T (idleWait p n w).2 (idleWait p n (w.withEnv e)).2) :
    ∃ e', idleWait p n (w.withEnv e) = ((idleWait p n w).1, (idleWait p n w).2.withEnv e') := by
  induction n generalizing e w with
  | zero => exact ⟨e, rfl⟩
  | succ n ih =>
    have hpoll := h.before (pollReading_run p n w) (pollReading_run p n (w.withEnv e))
    have hbit : pollBit p w = pollBit p (w.withEnv e) :=
      WireEvent.poll.inj (event_eq_of_agree (xs := w.trace) hpoll.1 hpoll.2)
    rw [idleWait_succ, idleWait_succ, ← hbit, pollReading_withEnv] at h ⊢
    split
    · exact ⟨_, rfl⟩
    · next hv =>
      rw [if_neg hv, if_neg hv] at h
      exact ih h

/-- What follows the idle wait in a bus reset: the pulse, or nothing on a stuck line (R87, R88). -/
def afterIdle (p : Timing) (r : Bool × Wire) : ResetOutcome × Wire :=
  if r.1 then (if (resetPulse p r.2).1 then .absent else .present, (resetPulse p r.2).2) else (.stuck, r.2)

theorem busReset_eq (p : Timing) (w : Wire) : busReset p w = afterIdle p (idleWait p p.nIdlePolls w.release) := by
  unfold busReset
  split <;> next heq => rw [heq]; rfl

theorem afterIdle_run (p : Timing) (r : Bool × Wire) : WireRun p r.2 (afterIdle p r).2 := by
  unfold afterIdle
  split
  · exact .single (.pulse _)
  · exact .refl

theorem busReset_withEnv {T : List WireEvent} {p : Timing} {e : Env} {w : Wire}
    (h : Agree T (busReset p w).2 (busReset p (w.withEnv e)).2) :
    ∃ e', busReset p (w.withEnv e) = ((busReset p w).1, (busReset p w).2.withEnv e') := by
  have hrelease : (w.withEnv e).release = w.release.withEnv e := rfl
  rw [busReset_eq, busReset_eq, hrelease] at h ⊢
  obtain ⟨e1, hwait⟩ := idleWait_withEnv (h.before (afterIdle_run p _) (afterIdle_run p _))
  rw [hwait] at h ⊢
  unfold afterIdle at h ⊢
  split
  · next hidle =>
    rw [if_pos hidle, if_pos hidle] at h
    obtain ⟨e2, hpulse⟩ := resetPulse_withEnv h
    exact ⟨e2, by rw [hpulse]⟩
  · exact ⟨e1, rfl⟩

theorem readBits_withEnv {T : List WireEvent} {p : Timing} {n : Nat} {e : Env} {w : Wire}
    (h : Agree T (readBits p n w).2 (readBits p n (w.withEnv e)).2) :
    ∃ e', readBits p n (w.withEnv e) = ((readBits p n w).1, (readBits p n w).2.withEnv e') := by
  induction n generalizing e w with
  | zero => exact ⟨e, rfl⟩
  | succ n ih =>
    obtain ⟨e1, hslot⟩ := readSlot_withEnv (h.before (readBits_run p n _) (readBits_run p n _))
    simp only [readBits, hslot] at h ⊢
    obtain ⟨e2, hrest⟩ := ih h
    exact ⟨e2, by rw [hrest]⟩

/-! ### A search pass in two environments -/

theorem afterReads_withEnv {T : List WireEvent} {e : Env} {s : State}
    (h : Agree T (afterReads s).wire (afterReads (s.withEnv e)).wire) :
    ∃ e', idBit (s.withEnv e) = idBit s ∧ cmpBit (s.withEnv e) = cmpBit s ∧
      afterReads (s.withEnv e) = (afterReads s).withEnv e' := by
  obtain ⟨e1, hid⟩ : ∃ e', readSlot s.timing (s.wire.withEnv e) = _ :=
    readSlot_withEnv (h.before (.single (.read _)) (.single (.read _)))
  have hline : (afterReads (s.withEnv e)).wire = (readSlot s.timing (readSlot s.timing (s.wire.withEnv e)).2).2 := rfl
  rw [hline, hid] at h
  obtain ⟨e2, hcmp⟩ : ∃ e', readSlot s.timing ((readSlot s.timing s.wire).2.withEnv e1) = _ := readSlot_withEnv h
  have hid' : readSlot (s.withEnv e).timing (s.withEnv e).wire = _ := hid
  refine ⟨e2, ?_, ?_, ?_⟩
  · rw [idBit, hid']
    rfl
  · rw [cmpBit, hid']
    exact (Prod.ext_iff.1 hcmp).1
  · rw [afterReads, hid']
    exact congrArg (fun r : Bool × Wire => { s with wire := r.2 }) hcmp

theorem afterReads_run_searchBits (n pos : Nat) (s : State) :
    WireRun s.timing (afterReads s).wire (searchBits (n + 1) pos s).2.wire := by
  rw [searchBits_succ]
  split
  · exact .refl
  · exact .head (.write _ _) (searchBits_run n (pos + 1) (afterPosition pos s))

theorem searchBits_withEnv {T : List WireEvent} {n pos : Nat} {e : Env} {s : State}
    (h : Agree T (searchBits n pos s).2.wire (searchBits n pos (s.withEnv e)).2.wire) :
    ∃ e', searchBits n pos (s.withEnv e) = ((searchBits n pos s).1, (searchBits n pos s).2.withEnv e') := by
  induction n generalizing pos e s with
  | zero => exact ⟨e, rfl⟩
  | succ n ih =>
    obtain ⟨e1, hid, hcmp, hreads⟩ := afterReads_withEnv
      (h.before (afterReads_run_searchBits n pos s) (afterReads_run_searchBits n pos (s.withEnv e)))
    have hpos : afterPosition pos (s.withEnv e) =
        (afterPosition pos s).withEnv (e1.after (.write (branchAt pos (idBit s) (cmpBit s) (afterReads s)))) := by
      rw [afterPosition, hid, hcmp, hreads]
      rfl
    rw [searchBits_succ, searchBits_succ, hid, hcmp, hreads, hpos] at h ⊢
    split
    · exact ⟨e1, rfl⟩
    · next hresp =>
      rw [if_neg hresp, if_neg hresp] at h
      exact ih h

theorem afterBits_withEnv (b : Bool) (e : Env) (s : State) :
    afterBits (b, s.withEnv e) = (afterBits (b, s)).withEnv e := by
  cases b with
  | false => rfl
  | true =>
    unfold afterBits validateCandidate
    by_cases hf : familyByte s.rom = 0
    · simp only [if_true, completePass, State.withEnv, hf]
      rfl
    · simp only [if_true, completePass, State.withEnv, hf, if_false]
      rfl

theorem searchRest_withEnv {T : List WireEvent} {c : Byte} {e : Env} {s : State}
    (h : Agree T (searchRest c s).wire (searchRest c (s.withEnv e)).wire) :
    ∃ e', searchRest c (s.withEnv e) = (searchRest c s).withEnv e' := by
  obtain ⟨e1, hbyte⟩ := writeBits_withEnv s.timing (lsbBits c) e s.wire
  have hstart : bitsStart c (s.withEnv e) = (bitsStart c s).withEnv e1 :=
    congrArg (fun w : Wire => { s with wire := w, lastZero := 0 }) hbyte
  rw [searchRest_eq, searchRest_eq, hstart] at h ⊢
  rw [afterBits_wire, afterBits_wire] at h
  obtain ⟨e2, hbits⟩ := searchBits_withEnv h
  exact ⟨e2, by rw [hbits, afterBits_withEnv]⟩

theorem busReset_run_searchPass (c : Byte) {s : State} (h : s.lastDev = false) :
    (busReset s.timing s.wire).2.trace <+: (searchPass c s).wire.trace := by
  cases ho : (busReset s.timing s.wire).1 with
  | stuck => rw [searchPass_of_stuck c h ho]; exact List.prefix_rfl
  | absent => rw [searchPass_of_absent c h ho]; exact List.prefix_rfl
  | present =>
    rw [searchPass_of_present c h ho]
    obtain ⟨w, hw, hrun⟩ := searchRest_run c (afterBusReset s)
    rw [hw]
    exact hrun.trace_prefix

theorem searchPass_withEnv {T : List WireEvent} {c : Byte} {e : Env} {s : State}
    (h : Agree T (searchPass c s).wire (searchPass c (s.withEnv e)).wire) :
    ∃ e', searchPass c (s.withEnv e) = (searchPass c s).withEnv e' := by
  cases hdev : s.lastDev with
  | true =>
    exact ⟨e, by rw [searchPass_of_lastDev c hdev, searchPass_of_lastDev c (s := s.withEnv e) hdev]; rfl⟩
  | false =>
    have hdev' : (s.withEnv e).lastDev = false := hdev
    obtain ⟨e1, hreset⟩ := busReset_withEnv (p := s.timing) (w := s.wire) (e := e)
      ⟨(busReset_run_searchPass c hdev).trans h.1, (busReset_run_searchPass c hdev').trans h.2⟩
    have hout : (busReset (s.withEnv e).timing (s.withEnv e).wire).1 = (busReset s.timing s.wire).1 :=
      (Prod.ext_iff.1 hreset).1
    have hafter : afterBusReset (s.withEnv e) = (afterBusReset s).withEnv e1 :=
      congrArg (fun r : ResetOutcome × Wire => { s with wire := r.2, presence := r.1.presence }) hreset
    cases ho : (busReset s.timing s.wire).1 with
    | stuck =>
      exact ⟨e1, by rw [searchPass_of_stuck c hdev ho, searchPass_of_stuck c hdev' (hout.trans ho), hafter]; rfl⟩
    | absent =>
      exact ⟨e1, by rw [searchPass_of_absent c hdev ho, searchPass_of_absent c hdev' (hout.trans ho), hafter]; rfl⟩
    | present =>
      rw [searchPass_of_present c hdev ho, searchPass_of_present c hdev' (hout.trans ho), hafter] at h ⊢
      exact searchRest_withEnv h

/-! ### A command in two environments -/

theorem exec_withEnv {i : Instr} {s t u : State} {e : Env} (h : exec i s = .next t)
    (h' : exec i (s.withEnv e) = .next u) (htrace : u.wire.trace = t.wire.trace) : ∃ e', u = t.withEnv e' := by
  have hagree : Agree t.wire.trace t.wire u.wire := ⟨List.prefix_rfl, htrace ▸ List.prefix_rfl⟩
  cases hact : activity s.data i with
  | crc =>
    obtain ⟨c8, c16, out, hexec⟩ := exec_of_crc hact
    cases (hexec s.wire s.seq s.agenda).symm.trans h
    cases (hexec (s.wire.withEnv e) s.seq s.agenda).symm.trans h'
    exact ⟨e, rfl⟩
  | searchReset =>
    obtain rfl := eq_srst_of_searchReset hact
    cases h
    cases h'
    exact ⟨e, rfl⟩
  | send bs =>
    cases (exec_of_send hact).symm.trans h
    cases (exec_of_send (s := s.withEnv e) hact).symm.trans h'
    obtain ⟨e', hline⟩ := writeBits_withEnv s.timing bs e s.wire
    exact ⟨e', congrArg (fun w => finish .ok { s with wire := w }) hline⟩
  | receive n =>
    cases (exec_of_receive hact).symm.trans h
    cases (exec_of_receive (s := s.withEnv e) hact).symm.trans h'
    obtain ⟨e', hline⟩ := readBits_withEnv (p := s.timing) (n := n) (w := s.wire) (e := e) hagree
    exact ⟨e', congrArg (fun r : List Bool × Wire => finish .ok { s with wire := r.2, data := dataOfBits r.1 }) hline⟩
  | busReset =>
    obtain rfl := eq_reset_of_busReset hact
    cases h
    cases h'
    obtain ⟨e', hline⟩ := busReset_withEnv (p := s.timing) (w := s.wire) (e := e) hagree
    exact ⟨e', congrArg (fun r : ResetOutcome × Wire =>
      finish r.1.result { s with wire := r.2, presence := r.1.presence }) hline⟩
  | pass =>
    have hsearch := (activity_pass_iff _ _).1 hact
    have hstart : passStart i (s.withEnv e) = (passStart i s).withEnv e := by
      unfold passStart
      split <;> rfl
    cases (exec_of_isSearch hsearch s).symm.trans h
    cases (exec_of_isSearch hsearch (s.withEnv e)).symm.trans h'
    rw [hstart] at hagree ⊢
    exact searchPass_withEnv (s := { passStart i s with sstate := .searching }) hagree

/-- Settles O54: with the same trace the two runs take the same samples, and end in the same block. -/
theorem drawsAloneDecideTheEffect : Obligations.DrawsAloneDecideTheEffect := by
  unfold Obligations.DrawsAloneDecideTheEffect
  intro i s t u e h h' htrace
  obtain ⟨e', rfl⟩ := exec_withEnv h h' htrace
  rfl

end Sys2Proof.Machine
end

section
/-! PROOFS. Which register each command may write (10_state.md R16 to R30, 41_codec.md R96, 43_search.md R119): settles
O52. -/

namespace Sys2Proof.Machine

/-- A CRC command writes one of the three CRC registers, its own, and nothing else (R111 to R117). -/
theorem exec_crc_cases {i : Instr} {s : State} (h : activity s.data i = .crc) :
    (∃ v, (i = .c8i ∨ i = .c8d ∨ ∃ b, i = .c8b b) ∧ exec i s = .next (finish .ok { s with crc8 := v })) ∨
    (∃ v, (i = .c16iRefin ∨ i = .c16d ∨ (∃ x, i = .c16i x) ∨ ∃ b, i = .c16b b) ∧
      exec i s = .next (finish .ok { s with crc16 := v })) ∨
    ∃ v, (i = .c16f ∨ i = .c16fRefout) ∧ exec i s = .next (finish .ok { s with crc16Out := v }) := by
  cases i <;> simp only [activity, reduceCtorEq] at h
  case c8i => exact .inl ⟨_, .inl rfl, rfl⟩
  case c8d => exact .inl ⟨_, .inr (.inl rfl), rfl⟩
  case c8b b => exact .inl ⟨_, .inr (.inr ⟨b, rfl⟩), rfl⟩
  case c16iRefin => exact .inr (.inl ⟨_, .inl rfl, rfl⟩)
  case c16d => exact .inr (.inl ⟨_, .inr (.inl rfl), rfl⟩)
  case c16i x => exact .inr (.inl ⟨_, .inr (.inr (.inl ⟨x, rfl⟩)), rfl⟩)
  case c16b b => exact .inr (.inl ⟨_, .inr (.inr (.inr ⟨b, rfl⟩)), rfl⟩)
  case c16f => exact .inr (.inr ⟨_, .inl rfl, rfl⟩)
  case c16fRefout => exact .inr (.inr ⟨_, .inr rfl, rfl⟩)

/-- The CRC commands and `SRST` are the commands that use no wire (R96, R129). -/
def UsesNoWire (i : Instr) : Prop :=
  i = .srst ∨ i = .c8i ∨ i = .c8d ∨ i = .c16iRefin ∨ i = .c16d ∨ i = .c16f ∨ i = .c16fRefout ∨
    (∃ b, i = .c8b b ∨ i = .c16b b) ∨ ∃ x, i = .c16i x

theorem activity_of_usesNoWire {i : Instr} (h : UsesNoWire i) (d : DWord) :
    activity d i = .searchReset ∨ activity d i = .crc := by
  rcases h with rfl | rfl | rfl | rfl | rfl | rfl | rfl | ⟨b, rfl | rfl⟩ | ⟨x, rfl⟩ <;> simp [activity]

theorem exec_wire_of_crc {i : Instr} {s t : State} (hact : activity s.data i = .crc) (h : exec i s = .next t) :
    t.wire = quietWire s := by
  obtain ⟨c8, c16, out, hexec⟩ := exec_of_crc hact
  cases (hexec s.wire s.seq s.agenda).symm.trans h
  rfl

/-- A command without wire activity leaves the line quiet (R96, R162). -/
theorem exec_wire_of_usesNoWire {i : Instr} {s t : State} (hi : UsesNoWire i) (h : exec i s = .next t) :
    t.wire = quietWire s := by
  rcases activity_of_usesNoWire hi s.data with hact | hact
  · obtain rfl := eq_srst_of_searchReset hact
    cases h
    rfl
  · exact exec_wire_of_crc hact h

/-- The commands that read from the wire into `DATA` (R92, R100, R102). -/
theorem isRead_of_receive {d : DWord} {i : Instr} {n : Nat} (h : activity d i = .receive n) :
    i = .rbit ∨ i = .r8 ∨ i = .r64 := by
  cases i <;> simp [activity] at h ⊢

/-- What no command writes: CRC16_POLY, the error flags, the latched word, the turns to come, the host's reads and the
timing parameters. -/
theorem exec_keeps_settings {i : Instr} {s t : State} (h : exec i s = .next t) :
    t.crc16Poly = s.crc16Poly ∧ t.errIllegal = s.errIllegal ∧ t.errOverrun = s.errOverrun ∧
      t.cmdLatch = s.cmdLatch ∧ t.agenda = s.agenda ∧ t.hostReads = s.hostReads ∧ t.timing = s.timing := by
  cases hact : activity s.data i with
  | crc =>
    obtain ⟨c8, c16, out, hexec⟩ := exec_of_crc hact
    cases (hexec s.wire s.seq s.agenda).symm.trans h
    exact ⟨rfl, rfl, rfl, rfl, rfl, rfl, rfl⟩
  | searchReset =>
    obtain rfl := eq_srst_of_searchReset hact
    cases h
    exact ⟨rfl, rfl, rfl, rfl, rfl, rfl, rfl⟩
  | send bs =>
    cases (exec_of_send hact).symm.trans h
    exact ⟨rfl, rfl, rfl, rfl, rfl, rfl, rfl⟩
  | receive n =>
    cases (exec_of_receive hact).symm.trans h
    exact ⟨rfl, rfl, rfl, rfl, rfl, rfl, rfl⟩
  | busReset =>
    obtain rfl := eq_reset_of_busReset hact
    cases h
    exact ⟨rfl, rfl, rfl, rfl, rfl, rfl, rfl⟩
  | pass =>
    have hsearch := (activity_pass_iff _ _).1 hact
    cases (exec_of_isSearch hsearch s).symm.trans h
    obtain ⟨hill, hover, -, -, hpoly, -, hlatch, hagenda, hreads, -, -, -, htiming⟩ :=
      searchPass_frame (searchByte i) { passStart i s with sstate := .searching }
    rw [hill, hover, hpoly, hlatch, hagenda, hreads, htiming]
    unfold passStart
    split <;> exact ⟨rfl, rfl, rfl, rfl, rfl, rfl, rfl⟩

/-- A search command leaves the CRC registers (R119). -/
theorem exec_search_keeps_crc {i : Instr} {s t : State} (hi : IsSearch i) (h : exec i s = .next t) :
    t.crc8 = s.crc8 ∧ t.crc16 = s.crc16 ∧ t.crc16Out = s.crc16Out := by
  cases (exec_of_isSearch hi s).symm.trans h
  obtain ⟨-, -, h8, h16, -, hout, -⟩ := searchPass_frame (searchByte i) { passStart i s with sstate := .searching }
  rw [h8, h16, hout]
  unfold passStart
  split <;> exact ⟨rfl, rfl, rfl⟩

/-- Settles O52, from the activity of each command: what its one state update does not name it leaves alone. -/
theorem whichCommandWritesWhat : Obligations.WhichCommandWritesWhat := by
  unfold Obligations.WhichCommandWritesWhat
  intro i s t h
  obtain ⟨hpoly, hill, hover, hlatch, hagenda, hreads, htiming⟩ := exec_keeps_settings h
  refine ⟨hpoly, hill, hover, hlatch, hagenda, hreads, htiming, ?_⟩
  have hwire : UsesNoWire i → t.wire = quietWire s := fun hi => exec_wire_of_usesNoWire hi h
  cases hact : activity s.data i with
  | crc =>
    rcases exec_crc_cases hact with ⟨v, hi, hexec⟩ | ⟨v, hi, hexec⟩ | ⟨v, hi, hexec⟩ <;> cases hexec.symm.trans h
    · exact ⟨fun _ => rfl, fun _ => ⟨rfl, rfl, rfl, rfl, rfl⟩, fun _ => rfl, fun _ => rfl, fun hno => absurd hi hno,
        fun _ => rfl, fun _ => rfl, hwire⟩
    · exact ⟨fun _ => rfl, fun _ => ⟨rfl, rfl, rfl, rfl, rfl⟩, fun _ => rfl, fun _ => rfl, fun _ => rfl,
        fun hno => absurd hi hno, fun _ => rfl, hwire⟩
    · exact ⟨fun _ => rfl, fun _ => ⟨rfl, rfl, rfl, rfl, rfl⟩, fun _ => rfl, fun _ => rfl, fun _ => rfl, fun _ => rfl,
        fun hno => absurd hi hno, hwire⟩
  | searchReset =>
    obtain rfl := eq_srst_of_searchReset hact
    cases h
    exact ⟨fun _ => rfl, fun hno => absurd (.inl rfl) hno, fun _ => rfl, fun _ => rfl, fun _ => rfl, fun _ => rfl,
      fun _ => rfl, hwire⟩
  | send bs =>
    cases (exec_of_send hact).symm.trans h
    exact ⟨fun _ => rfl, fun _ => ⟨rfl, rfl, rfl, rfl, rfl⟩, fun _ => rfl, fun _ => rfl, fun _ => rfl, fun _ => rfl,
      fun _ => rfl, hwire⟩
  | receive n =>
    cases (exec_of_receive hact).symm.trans h
    have hread : i = .rbit ∨ i = .r8 ∨ i = .r64 ∨ IsSearch i := by
      rcases isRead_of_receive hact with hi | hi | hi <;> simp [hi]
    exact ⟨fun _ => rfl, fun _ => ⟨rfl, rfl, rfl, rfl, rfl⟩, fun _ => rfl, fun hno => absurd hread hno, fun _ => rfl,
      fun _ => rfl, fun _ => rfl, hwire⟩
  | busReset =>
    obtain rfl := eq_reset_of_busReset hact
    cases h
    exact ⟨fun hno => absurd (.inl rfl) hno, fun _ => ⟨rfl, rfl, rfl, rfl, rfl⟩, fun _ => rfl, fun _ => rfl,
      fun _ => rfl, fun _ => rfl, fun _ => rfl, hwire⟩
  | pass =>
    have hi := (activity_pass_iff _ _).1 hact
    obtain ⟨h8, h16, hout⟩ := exec_search_keeps_crc hi h
    exact ⟨fun hno => absurd (.inr hi) hno, fun hno => absurd (.inr hi) hno, fun hno => absurd hi hno,
      fun hno => absurd (.inr (.inr (.inr hi))) hno, fun _ => h8, fun _ => h16, fun _ => hout, hwire⟩

end Sys2Proof.Machine
end

section
/-! PROOFS. A step by what stands next on the agenda, and what a block reset leaves (10_state.md R14, R35, R36;
60_exceptions.md R148): settles O6, O8 and O9. -/

namespace Sys2Proof.Machine

/-! ### The step that completes a command -/

theorem step_of_no_turn {s : State} (hb : s.busy = true) (hag : s.agenda = []) : step s = complete s := by
  simp [step, hag, hb]

theorem step_of_turn {s : State} {a : Turn} {rest : List Turn} (hag : s.agenda = a :: rest) :
    step s = takeTurn a { s with agenda := rest } := by
  simp [step, hag]

theorem step_of_complete_turn {s : State} {rest : List Turn} (hb : s.busy = true) (hag : s.agenda = .complete :: rest) :
    step s = complete { s with agenda := rest } := by
  simp [step_of_turn hag, takeTurn, hb]

theorem complete_of_decode {s : State} {i : Instr} (h : decodeWord s.cmdLatch = .ok i) : complete s = exec i s := by
  simp [complete, h]

/-- An issued row of the table is run by the next step. -/
theorem step_withFetchWord {nbits n : Nat} {i : Instr} (h : decodeWord (rowWord nbits n) = .ok i) (s : State) :
    step (s.withFetchWord nbits n) = exec i { s.withFetchWord nbits n with agenda := s.agenda } := by
  rw [step_of_complete_turn (s := s.withFetchWord nbits n) rfl rfl]
  exact complete_of_decode h

theorem rowWord_command (w : Word) : rowWord 32 w.toNat = w := by simp [rowWord]

theorem rowWord_byte (b : Byte) : rowWord 8 b.toNat = encode (.w8 b) := by simp [rowWord]

/-- The word of `W8 #b` decodes to it (R81). -/
theorem decodeWord_encode_w8 (b : Byte) : decodeWord (encode (.w8 b)) = .ok (.w8 b) := by
  simp [decodeWord, illegalCase, encode, opField_commandWord, f0Field_commandWord, reservedField_commandWord,
    imm8Field_commandWord, imm16Field_commandWord, assignedOp, usesImm8, usesF0, commandOf]

/-- A wire ROM command byte does what `W8` of it does (R78, R79; log 11). -/
theorem exec_romByte {b : Byte} {i : Instr} (h : decodeRomByte b = some i) (s : State) :
    exec i s = exec (.w8 b) s := by
  unfold decodeRomByte at h
  split_ifs at h with hb hb hb hb hb <;> cases h <;> subst hb <;> rfl

/-- Settles O6: completion is next, by an empty agenda, by a `complete` turn, or by an issue. -/
theorem stepRunsTheLatchedCommand : Obligations.StepRunsTheLatchedCommand := by
  unfold Obligations.StepRunsTheLatchedCommand
  refine ⟨fun s i hb hdec => ⟨fun hag => ?_, fun rest hag => ?_⟩, fun s w i hdec => ?_, fun s b i hrom => ?_⟩
  · rw [step_of_no_turn hb hag, complete_of_decode hdec]
  · rw [step_of_complete_turn hb hag]
    exact complete_of_decode (s := { s with agenda := rest }) hdec
  · exact step_withFetchWord ((rowWord_command w).symm ▸ hdec) s
  · rw [exec_romByte hrom]
    exact step_withFetchWord ((rowWord_byte b).symm ▸ decodeWord_encode_w8 b) s

/-! ### What a block reset leaves -/

/-- The machine right after reset is what a block reset leaves of it. -/
theorem blockReset_reset : blockReset State.reset = State.reset := rfl

theorem wireAfterReset_dqLow (s : State) : (wireAfterReset s).dqLow = false := by
  unfold wireAfterReset
  split <;> rfl

/-- A register reads after a block reset as it reads right after reset (R36). -/
theorem readReg_blockReset (r : Reg) (s : State) : readReg r (blockReset s) = readReg r State.reset := by
  cases r <;> rfl

/-- Settles O8: `State.reset` is a block reset's result too, and a block reset writes every register. -/
theorem blockResetSetsEveryRegister : Obligations.BlockResetSetsEveryRegister := by
  unfold Obligations.BlockResetSetsEveryRegister
  intro s t ht
  obtain ⟨u, rfl⟩ : ∃ u, t = blockReset u := by
    rcases ht with rfl | ht
    · exact ⟨State.reset, blockReset_reset.symm⟩
    · cases ht
      exact ⟨s, rfl⟩
  simp only [readReg_blockReset]
  exact ⟨by decide, rfl, rfl, by decide, by decide, by decide, by decide, rfl, rfl, rfl, wireAfterReset_dqLow u, rfl,
    rfl⟩

theorem nominal_valid : Timing.nominal.Valid := by
  unfold Timing.Valid
  decide

/-- Settles O9: a block reset leaves a good state, and so does the reset. -/
theorem resetMeetsTheInvariant : Obligations.ResetMeetsTheInvariant := by
  unfold Obligations.ResetMeetsTheInvariant
  rw [← blockReset_reset]
  exact blockReset_goodState nominal_valid

end Sys2Proof.Machine
end

section
/-! PROOFS. What a step can do to BUSY, the result fields and the error flags (10_state.md R15, R19, R20, R35;
20_memory.md R44 to R47): settles O18, O19 and O20. -/

namespace Sys2Proof.Machine

/-! ### Host writes by the register they name -/

theorem regAt_offset (r : Reg) : regAt r.offset = r := by cases r <;> rfl

/-- An offset at which a register stands is that register's offset (R40). -/
theorem offset_of_regAt {off : BitVec 6} {r : Reg} (h : regAt off = r) (hr : r ≠ .reserved) : off = r.offset := by
  unfold regAt at h
  split at h <;> subst h
  case h_11 => exact absurd rfl hr
  all_goals exact BitVec.eq_of_toNat_eq (by assumption)

/-- A store to a register of the map is `st` of it (R82). -/
theorem hostWrite_eq_st {off : BitVec 6} {r : Reg} (h : regAt off = r) (hr : r ≠ .reserved) (v : Word) :
    Turn.hostWrite off .four v = st r v := by rw [st, offset_of_regAt h hr]

theorem takeTurn_st (r : Reg) (v : Word) (s : State) : takeTurn (st r v) s = .next (writeReg r v s) := by
  have hgood : goodAccess r.offset .four = true := by cases r <;> rfl
  simp [st, takeTurn, hgood, regAt_offset]

theorem takeTurn_ld (r : Reg) (s : State) :
    takeTurn (ld r) s = .next { s with hostReads := s.hostReads ++ [readReg r s] } := by
  have hgood : goodAccess r.offset .four = true := by cases r <;> rfl
  simp [ld, takeTurn, hgood, regAt_offset]

/-- The registers a busy block drops a write to (R45). -/
def Dropped (r : Reg) : Prop := r = .cmd ∨ r = .dataLo ∨ r = .dataHi ∨ r = .crc16Poly

theorem Dropped.ne_reserved {r : Reg} (h : Dropped r) : r ≠ .reserved := by
  rcases h with rfl | rfl | rfl | rfl <;> decide

theorem writeReg_of_dropped {r : Reg} (hr : Dropped r) {s : State} (hb : s.busy = true) (v : Word) :
    writeReg r v s = { s with errOverrun := true } := by
  rcases hr with rfl | rfl | rfl | rfl <;> simp [writeReg, writeRegBusy, hb]

/-- What a host write to a busy block can change: the error flags alone (R45). -/
theorem writeReg_of_busy {s : State} (hb : s.busy = true) (r : Reg) (v : Word) :
    writeReg r v s = writeStatus v s ∨ writeReg r v s = { s with errOverrun := true } ∨ writeReg r v s = s := by
  rcases writeReg_cases r v s with ⟨hi, -⟩ | ⟨-, h⟩ | ⟨hi, -⟩ | ⟨hi, -⟩ | ⟨-, -, h⟩ | ⟨-, h⟩
  case inr.inl => exact .inl h
  case inr.inr.inr.inr.inl => exact .inr (.inl h)
  case inr.inr.inr.inr.inr => exact .inr (.inr h)
  all_goals simp [hb] at hi

/-! ### BUSY and the result fields -/

theorem SameResults.refl (s : State) : SameResults s s :=
  ⟨rfl, rfl, rfl, rfl, rfl, rfl, rfl, rfl, rfl, rfl, rfl, rfl, rfl, rfl, rfl⟩

/-- A completion clears BUSY (R46). -/
theorem complete_busy {s t : State} (h : complete s = .next t) : t.busy = false := by
  rcases complete_cases s with ⟨i, u, -, hcomp, hexec⟩ | ⟨r, -, hcomp⟩
  · obtain ⟨v, evs, hv, hbusy, -⟩ := exec_completes i s
    rw [hcomp, hv] at h
    cases h
    exact hbusy
  · cases hcomp.symm.trans h
    rfl

/-- What a turn leaves alone while the command stays busy (R35, R46, R47). -/
theorem takeTurn_while_busy {a : Turn} {s t : State} (hb : s.busy = true) (h : takeTurn a s = .next t)
    (ht : t.busy = true) :
    SameResults s t ∧ t.cmdLatch = s.cmdLatch ∧ t.sstate = s.sstate ∧
      (s.errIllegal = false → t.errIllegal = false) := by
  rcases takeTurn_cases h with
    ⟨off, v, -, -, rfl⟩ | ⟨off, -, -, rfl⟩ | ⟨-, -, hc⟩ | ⟨-, hidle, -⟩ | ⟨n, -, rfl⟩ | ⟨-, rfl⟩
  · rcases writeReg_of_busy hb (regAt off) v with hw | hw | hw <;> rw [hw]
    · exact ⟨SameResults.refl s, rfl, rfl, fun he => by simp [writeStatus, he]⟩
    all_goals exact ⟨SameResults.refl s, rfl, rfl, id⟩
  · exact ⟨SameResults.refl s, rfl, rfl, id⟩
  · simp [complete_busy hc] at ht
  · simp [hb] at hidle
  · rcases elapse_cases n s with ⟨-, he⟩ | ⟨e, low, -, he⟩ <;> rw [he] <;>
      exact ⟨SameResults.refl s, rfl, rfl, id⟩
  · cases ht

/-- Settles O18: a completion or a block reset would have cleared BUSY, and no other turn writes a result. -/
theorem nothingIsVisibleBeforeCompletion : Obligations.NothingIsVisibleBeforeCompletion := by
  unfold Obligations.NothingIsVisibleBeforeCompletion
  intro s t hb h ht
  rcases step_cases h with ⟨a, rest, -, hturn⟩ | ⟨-, -, hc⟩ | ⟨-, hidle, -⟩
  · exact takeTurn_while_busy (s := { s with agenda := rest }) hb hturn ht
  · simp [complete_busy hc] at ht
  · simp [hb] at hidle

/-- The turn that sets BUSY is a write to CMD (R14, R15). -/
theorem takeTurn_sets_busy {a : Turn} {s t : State} (hb : s.busy = false) (h : takeTurn a s = .next t)
    (ht : t.busy = true) : ∃ w, a = st .cmd w ∧ t = drivePin (issue w s) := by
  rcases takeTurn_cases h with
    ⟨off, v, rfl, -, rfl⟩ | ⟨off, -, -, rfl⟩ | ⟨-, hbusy, -⟩ | ⟨-, -, rfl⟩ | ⟨n, -, rfl⟩ | ⟨-, rfl⟩
  · rcases writeReg_cases (regAt off) v s with
      ⟨-, hr, hw⟩ | ⟨-, hw⟩ | ⟨-, -, d, hw⟩ | ⟨-, -, hw⟩ | ⟨hbusy, -⟩ | ⟨-, hw⟩
    case inl => exact ⟨v, hostWrite_eq_st hr (by decide) v, hw⟩
    case inr.inr.inr.inr.inl => simp [hb] at hbusy
    all_goals simp [hw, hb] at ht
  · simp [hb] at ht
  · simp [hb] at hbusy
  · simp [hb] at ht
  · rcases elapse_cases n s with ⟨-, he⟩ | ⟨e, low, -, he⟩ <;> simp [he, hb] at ht
  · cases ht

/-- Settles O19: the turn that sets BUSY issues, and an issue writes no result. -/
theorem onlyACmdWriteStartsACommand : Obligations.OnlyACmdWriteStartsACommand := by
  unfold Obligations.OnlyACmdWriteStartsACommand
  intro s t hb h ht
  rcases step_cases h with ⟨a, rest, hag, hturn⟩ | ⟨-, hbusy, -⟩ | ⟨-, -, rfl⟩
  · obtain ⟨w, rfl, rfl⟩ := takeTurn_sets_busy (s := { s with agenda := rest }) hb hturn ht
    exact ⟨w, rest, hag, rfl, SameResults.refl s⟩
  · simp [hb] at hbusy
  · simp [hb] at ht

/-! ### The error flags -/

/-- The next turn is a write that the block drops (R20, R45). -/
def DropsWrite (s : State) : Prop := s.busy = true ∧ ∃ r v rest, Dropped r ∧ s.agenda = st r v :: rest

theorem step_errOverrun_of_dropsWrite {s t : State} (hd : DropsWrite s) (h : step s = .next t) :
    t.errOverrun = true := by
  obtain ⟨hb, r, v, rest, hr, hag⟩ := hd
  rw [step_of_turn hag, takeTurn_st, writeReg_of_dropped hr (s := { s with agenda := rest }) hb] at h
  cases h
  rfl

/-- What the step from `s` to `t` did to the error flags (R19, R20). -/
inductive FlagStep (s t : State) : Prop
  /-- A block reset clears both (R36, R151). -/
  | reset (rest : List Turn) (hag : s.agenda = .blockReset :: rest) (hill : t.errIllegal = false)
      (hover : t.errOverrun = false)
  /-- A write to STATUS clears the flags whose bits are 1 (R44). -/
  | status (v : Word) (rest : List Turn) (hag : s.agenda = st .status v :: rest)
      (hill : t.errIllegal = (s.errIllegal && !v.getLsbD 8)) (hover : t.errOverrun = (s.errOverrun && !v.getLsbD 9))
      (hbusy : t.busy = s.busy)
  /-- A dropped write sets ERR_OVERRUN (R45). -/
  | dropped (hdrops : DropsWrite s) (hill : t.errIllegal = s.errIllegal) (hover : t.errOverrun = true)
      (hbusy : t.busy = s.busy)
  /-- An illegal command completes and sets ERR_ILLEGAL (R137). -/
  | illegal (hb : s.busy = true) (r : Illegal) (hdec : decodeWord s.cmdLatch = .error r) (hidle : t.busy = false)
      (hill : t.errIllegal = true) (hover : t.errOverrun = s.errOverrun)
  /-- Any other step keeps both, and leaves an illegal command running. -/
  | kept (hill : t.errIllegal = s.errIllegal) (hover : t.errOverrun = s.errOverrun)
      (hruns : ∀ r, s.busy = true → decodeWord s.cmdLatch = .error r → t.busy = true)

theorem FlagStep.of_same_busy {s t : State} (hill : t.errIllegal = s.errIllegal) (hover : t.errOverrun = s.errOverrun)
    (hbusy : t.busy = s.busy) : FlagStep s t := .kept hill hover fun _ hb _ => hbusy.trans hb

theorem FlagStep.of_idle {s t : State} (hill : t.errIllegal = s.errIllegal) (hover : t.errOverrun = s.errOverrun)
    (hidle : s.busy = false) : FlagStep s t := .kept hill hover fun _ hb _ => by simp [hidle] at hb

/-- A completion, with any turns left to come. -/
theorem complete_flagStep {s t : State} {rest : List Turn} (hb : s.busy = true)
    (h : complete { s with agenda := rest } = .next t) : FlagStep s t := by
  rcases complete_cases { s with agenda := rest } with ⟨i, u, hdec, hcomp, -⟩ | ⟨r, hdec, hcomp⟩
  · obtain ⟨-, hill, hover, -⟩ := exec_keeps_settings (hcomp.symm.trans h)
    exact .kept hill hover fun r _ hr => by cases hdec.symm.trans hr
  · cases hcomp.symm.trans h
    exact .illegal hb r hdec rfl rfl rfl

/-- A host write, the turn of `s` as its agenda has it. -/
theorem hostWrite_flagStep {s : State} {off : BitVec 6} {v : Word} {rest : List Turn}
    (hag : s.agenda = .hostWrite off .four v :: rest) :
    FlagStep s (writeReg (regAt off) v { s with agenda := rest }) := by
  rcases writeReg_cases (regAt off) v { s with agenda := rest } with
    ⟨hidle, -, hw⟩ | ⟨hr, hw⟩ | ⟨hidle, -, d, hw⟩ | ⟨hidle, -, hw⟩ | ⟨hb, hr, hw⟩ | ⟨-, hw⟩ <;> rw [hw]
  · exact .of_idle rfl rfl hidle
  · exact .status v rest (hag.trans (by rw [hostWrite_eq_st hr (by decide)])) rfl rfl rfl
  · exact .of_idle rfl rfl hidle
  · exact .of_idle rfl rfl hidle
  · have hst := hostWrite_eq_st rfl (Dropped.ne_reserved hr) v
    exact .dropped ⟨hb, regAt off, v, rest, hr, hag.trans (by rw [hst])⟩ rfl rfl rfl
  · exact .of_same_busy rfl rfl rfl

theorem step_flagStep {s t : State} (h : step s = .next t) : FlagStep s t := by
  rcases step_cases h with ⟨a, rest, hag, hturn⟩ | ⟨-, hb, hc⟩ | ⟨-, -, rfl⟩
  · rcases takeTurn_cases hturn with
      ⟨off, v, rfl, -, rfl⟩ | ⟨off, -, -, rfl⟩ | ⟨-, hb, hc⟩ | ⟨-, -, rfl⟩ | ⟨n, -, rfl⟩ | ⟨rfl, rfl⟩
    · exact hostWrite_flagStep hag
    · exact .of_same_busy rfl rfl rfl
    · exact complete_flagStep hb hc
    · exact .of_same_busy rfl rfl rfl
    · rcases elapse_cases n { s with agenda := rest } with ⟨-, he⟩ | ⟨e, low, -, he⟩ <;> rw [he] <;>
        exact .of_same_busy rfl rfl rfl
    · exact .reset rest hag rfl rfl
  · exact complete_flagStep (rest := s.agenda) hb hc
  · exact .of_same_busy rfl rfl rfl

/-- Settles O20, from what a step can do to the flags. -/
theorem errorFlagsAreSticky : Obligations.ErrorFlagsAreSticky := by
  unfold Obligations.ErrorFlagsAreSticky
  intro s t h
  have hdrop : DropsWrite s → t.errOverrun = true := fun hd => step_errOverrun_of_dropsWrite hd h
  cases step_flagStep h with
  | reset rest hag hi ho =>
    exact ⟨fun _ h => by simp [hi] at h, fun _ _ _ _ => .inl ⟨rest, hag⟩, fun _ _ => .inl ⟨rest, hag⟩,
      fun _ => ⟨fun h => by simp [ho] at h, hdrop⟩, fun _ _ => .inl ⟨rest, hag⟩⟩
  | status v rest hag hi ho hbusy =>
    exact ⟨fun hs h => by simp [hi, hs] at h, fun _ hb _ h => by simp [hbusy, hb] at h,
      fun hs h => .inr ⟨v, rest, hag, by simpa [hi, hs] using h⟩, fun hs => ⟨fun h => by simp [ho, hs] at h, hdrop⟩,
      fun hs h => .inr ⟨v, rest, hag, by simpa [ho, hs] using h⟩⟩
  | dropped hd hi ho hbusy =>
    exact ⟨fun hs h => by simp [hi, hs] at h, fun _ hb _ h => by simp [hbusy, hb] at h,
      fun hs h => by simp [hi, hs] at h, fun _ => ⟨fun _ => hd, hdrop⟩, fun _ h => by simp [ho] at h⟩
  | illegal hb r hdec hidle hi ho =>
    exact ⟨fun _ _ => ⟨hb, hidle, r, hdec⟩, fun _ _ _ _ => .inr hi, fun _ h => by simp [hi] at h,
      fun hs => ⟨fun h => by simp [ho, hs] at h, hdrop⟩, fun hs h => by simp [ho, hs] at h⟩
  | kept hi ho hruns =>
    exact ⟨fun hs h => by simp [hi, hs] at h, fun r hb hdec h => by simp [hruns r hb hdec] at h,
      fun hs h => by simp [hi, hs] at h, fun hs => ⟨fun h => by simp [ho, hs] at h, hdrop⟩,
      fun hs h => by simp [ho, hs] at h⟩

end Sys2Proof.Machine
end

section
/-! PROOFS. The words a host reads, bit by bit (10_state.md R15 to R30): settles O16. -/

namespace Sys2Proof.Machine

/-- STATUS bit by bit (R15 to R21). -/
theorem getLsbD_statusWord (s : State) (k : Nat) : (statusWord s).getLsbD k =
    if k = 0 then s.busy else if k = 1 then s.presence else if k = 2 then s.found
    else if 4 ≤ k ∧ k ≤ 7 then s.result.code.getLsbD (k - 4)
    else if k = 8 then s.errIllegal else if k = 9 then s.errOverrun else false := by
  simp only [statusWord, BitVec.getLsbD_append, BitVec.getLsbD_ofBool, BitVec.getLsbD_zero, Nat.sub_sub]
  by_cases hk : k < 10
  · interval_cases k <;> simp
  · simp (disch := omega) only [if_neg]

/-- CURSOR bit by bit (R24 to R26). -/
theorem getLsbD_cursorWord (s : State) (k : Nat) : (cursorWord s).getLsbD k =
    if k ≤ 6 then s.lastDisc.getLsbD k else if k = 8 then s.lastDev
    else if 12 ≤ k ∧ k ≤ 13 then s.sstate.code.getLsbD (k - 12) else false := by
  simp only [cursorWord, BitVec.getLsbD_append, BitVec.getLsbD_ofBool, BitVec.getLsbD_zero, Nat.sub_sub]
  grind

/-- CRC bit by bit (R28, R29). -/
theorem getLsbD_crcWord (s : State) (k : Nat) : (crcWord s).getLsbD k =
    if k ≤ 7 then s.crc8.getLsbD k else if 16 ≤ k then s.crc16.getLsbD (k - 16) else false := by
  simp only [crcWord, BitVec.getLsbD_append, BitVec.getLsbD_zero, Nat.sub_sub]
  grind

theorem toNat_halfWord (v : Half) : (halfWord v).toNat = v.toNat := by
  simp only [halfWord, BitVec.toNat_append]
  simp

/-- The two halves of a 64-bit register are the register (R22, R23, R83). -/
theorem rddataValue_halves (d : DWord) : rddataValue (d.extractLsb' 0 32) (d.extractLsb' 32 32) = d := by
  apply BitVec.eq_of_getLsbD_eq
  intro i hi
  simp only [rddataValue, BitVec.getLsbD_append, BitVec.getLsbD_extractLsb']
  grind

/-- Settles O16, word by word. -/
theorem registerWordsBitByBit : Obligations.RegisterWordsBitByBit := by
  unfold Obligations.RegisterWordsBitByBit
  exact ⟨⟨rfl, rfl, rfl, rfl, rfl, rfl, rfl⟩, ⟨rfl, rfl, rfl, rfl⟩, fun s => ⟨rfl, getLsbD_statusWord s,
    getLsbD_cursorWord s, getLsbD_crcWord s, toNat_halfWord _, toNat_halfWord _, rddataValue_halves _,
    rddataValue_halves _⟩⟩

end Sys2Proof.Machine
end

section
/-! PROOFS. A write to CMD (10_state.md R14): the command it starts is the one that runs from the state before it, since
no command reads what an issue writes. Settles O17. -/

namespace Sys2Proof.Machine

/-! ### What an issue writes, and no command reads on its way along the line -/

/-- The state with another latched word, another SSTATE, and BUSY set. -/
def State.latched (w : Word) (ss : SState) (s : State) : State := { s with cmdLatch := w, busy := true, sstate := ss }

theorem searchBits_latched (w : Word) (ss : SState) (n pos : Nat) (s : State) :
    searchBits n pos (s.latched w ss) = ((searchBits n pos s).1, (searchBits n pos s).2.latched w ss) := by
  induction n generalizing pos s with
  | zero => rfl
  | succ n ih =>
    have hid : idBit (s.latched w ss) = idBit s := rfl
    have hcmp : cmpBit (s.latched w ss) = cmpBit s := rfl
    rw [searchBits_succ, searchBits_succ, hid, hcmp]
    split
    · rfl
    · exact ih (pos + 1) (afterPosition pos s)

theorem searchRest_latched (w : Word) (ss : SState) (c : Byte) (s : State) :
    (searchRest c (s.latched w ss)).wire = (searchRest c s).wire := by
  have hbits := searchBits_latched w ss 64 1 (bitsStart c s)
  have hstart : bitsStart c (s.latched w ss) = (bitsStart c s).latched w ss := rfl
  rw [searchRest_eq, searchRest_eq, hstart, hbits, afterBits_wire, afterBits_wire]
  rfl

theorem searchPass_latched (w : Word) (ss : SState) (c : Byte) (s : State) :
    (searchPass c (s.latched w ss)).wire = (searchPass c s).wire := by
  cases hdev : s.lastDev with
  | true => rw [searchPass_of_lastDev c hdev, searchPass_of_lastDev c (s := s.latched w ss) hdev]; rfl
  | false =>
    cases ho : (busReset s.timing s.wire).1 with
    | stuck => rw [searchPass_of_stuck c hdev ho, searchPass_of_stuck c (s := s.latched w ss) hdev ho]; rfl
    | absent => rw [searchPass_of_absent c hdev ho, searchPass_of_absent c (s := s.latched w ss) hdev ho]; rfl
    | present =>
      rw [searchPass_of_present c hdev ho, searchPass_of_present c (s := s.latched w ss) hdev ho]
      exact searchRest_latched w ss c (afterBusReset s)

/-- A command does the same on the line whatever word is latched and whatever SSTATE reads. -/
theorem exec_latched {i : Instr} {s t t' : State} (w : Word) (ss : SState) (h : exec i s = .next t)
    (h' : exec i (s.latched w ss) = .next t') : t'.wire = t.wire := by
  cases hact : activity s.data i with
  | crc =>
    rw [exec_wire_of_crc hact h, exec_wire_of_crc (s := s.latched w ss) hact h']
    rfl
  | searchReset =>
    obtain rfl := eq_srst_of_searchReset hact
    cases h
    cases h'
    rfl
  | send bs =>
    cases (exec_of_send hact).symm.trans h
    cases (exec_of_send (s := s.latched w ss) hact).symm.trans h'
    rfl
  | receive n =>
    cases (exec_of_receive hact).symm.trans h
    cases (exec_of_receive (s := s.latched w ss) hact).symm.trans h'
    rfl
  | busReset =>
    obtain rfl := eq_reset_of_busReset hact
    cases h
    cases h'
    rfl
  | pass =>
    have hsearch := (activity_pass_iff _ _).1 hact
    cases (exec_of_isSearch hsearch s).symm.trans h
    cases (exec_of_isSearch hsearch (s.latched w ss)).symm.trans h'
    have hstart : passStart i (s.latched w ss) = (passStart i s).latched w ss := by
      unfold passStart
      split <;> rfl
    rw [hstart]
    exact searchPass_latched w .searching (searchByte i) { passStart i s with sstate := .searching }

/-! ### The state an issue leaves -/

/-- An issue latches the word and starts the command at this instant (R14). -/
theorem issue_eq_rerun_latched (w : Word) (s : State) (rest : List Turn) :
    issue w { s with agenda := rest } =
      (s.latched w (issue w s).sstate).rerun (.running s.wire.now) rest s.wire.dqLow := rfl

theorem drivePin_issue (w : Word) (s : State) (rest : List Turn) :
    drivePin (issue w { s with agenda := rest }) = issuedState w (issue w s).sstate
      (lineLow (issue w { s with agenda := rest })) { s with agenda := rest } := rfl

theorem issue_instant (w : Word) (s : State) : (issue w s).instant = s.wire.now :=
  instant_of_running (s := issue w s) rfl (Nat.le_refl _)

/-- SSTATE reads SEARCHING after the issue of a search command, and keeps its value otherwise (R119). -/
theorem issue_sstate_of_isSearch {w : Word} {i : Instr} (hdec : decodeWord w = .ok i) (hi : IsSearch i) (s : State) :
    (issue w s).sstate = .searching := by
  simp [(isSearchWord_iff w).2 ⟨i, hdec, hi⟩]

theorem issue_sstate_of_no_search {w : Word} (h : ∀ i, decodeWord w = .ok i → ¬ IsSearch i) (s : State) :
    (issue w s).sstate = s.sstate := by
  have hw : ¬ isSearchWord w = true := fun hw => by
    obtain ⟨i, hdec, hi⟩ := (isSearchWord_iff w).1 hw
    exact h i hdec hi
  simp [hw]

/-- The pin at the issue is low where the first event of the command is driven low from its start (R8, R47). -/
theorem lineLow_issue {i : Instr} {w : Word} {s u : State} (rest : List Turn) (hp : s.timing.Valid)
    (hdec : decodeWord w = .ok i) (h : exec i s = .next u) :
    lineLow (issue w { s with agenda := rest }) =
      drivenLow s.timing (u.wire.trace.drop s.wire.trace.length) 0 := by
  obtain ⟨v, hv⟩ := exec_answers_next i (s.latched w (issue w s).sstate)
  obtain ⟨t, ht⟩ := exec_answers_next i (issue w { s with agenda := rest })
  obtain ⟨htrace, -⟩ := exec_rerun _ _ _ hv ht
  rw [← exec_latched w _ h hv, ← htrace]
  exact lineLow_eq_drivenLow (s := issue w { s with agenda := rest }) hp hdec (issue_instant _ _) ht

/-- Settles O17: the write issues, and the issued command runs from the state before it. -/
theorem cmdWriteIssuesTheCommand : Obligations.CmdWriteIssuesTheCommand := by
  unfold Obligations.CmdWriteIssuesTheCommand
  refine ⟨fun s w rest hb hag => ⟨(issue w s).sstate, lineLow (issue w { s with agenda := rest }), ?_, ?_, ?_⟩, ?_⟩
  · have hw : writeReg .cmd w { s with agenda := rest } = drivePin (issue w { s with agenda := rest }) := by
      simp [writeReg, writeRegIdle, hb]
    rw [step_of_turn hag, takeTurn_st, hw, drivePin_issue]
  · intro i hdec
    refine ⟨?_, fun hi => issue_sstate_of_isSearch hdec hi s, fun hno => issue_sstate_of_no_search ?_ s,
      fun u hp hexec => lineLow_issue rest hp hdec hexec⟩
    · rw [step_of_no_turn rfl rfl]
      exact complete_of_decode hdec
    · intro j hj
      cases hdec.symm.trans hj
      exact hno
  · intro r hdec
    refine ⟨issue_sstate_of_no_search (fun i hi => ?_) s, lineLow_of_illegal (s := issue w _) hdec⟩
    cases hdec.symm.trans hi
  · intro s rest hag
    rw [step_of_turn hag, takeTurn_ld]
    rfl

end Sys2Proof.Machine
end

section
/-! PROOFS. A block reset at any instant of a running command (10_state.md R38; 70_reset_and_hazards.md R151, R152): the
events of the command that are in the trace by then, the event under way, and the reference bus, whose devices stay on
the line. Settles O11. -/

namespace Sys2Proof.Machine

/-! ### The events of a command by an instant -/

theorem eventShown_le_eventTime (p : Timing) (ev : WireEvent) : eventShown p ev ≤ eventTime p ev := by
  cases ev with
  | rst v => simp only [eventShown, eventTime, Timing.pulseTime]; omega
  | poll v => exact Nat.le_refl _
  | write b => exact Nat.le_refl _
  | read v => exact Nat.le_refl _
  | cut k => exact Nat.le_refl _

theorem shownAt_nil (p : Timing) (t : Nat) : ShownAt p [] t 0 := ⟨Nat.le_refl _, by simp, by simp⟩

/-- One more event before the first: it is shown where its whole time has passed. -/
theorem ShownAt.cons {p : Timing} {ev : WireEvent} {evs : List WireEvent} {t n : Nat} (hle : eventTime p ev ≤ t)
    (h : ShownAt p evs (t - eventTime p ev) n) : ShownAt p (ev :: evs) t (n + 1) := by
  obtain ⟨hlen, hbefore, hafter⟩ := h
  refine ⟨by simpa using hlen, fun k e hk he => ?_, fun e he => ?_⟩
  · cases k with
    | zero =>
      obtain rfl : ev = e := by simpa using he
      have := eventShown_le_eventTime p ev
      simp only [List.take_zero, wireTime, List.map_nil, List.sum_nil]
      omega
    | succ k =>
      have := hbefore k e (by omega) (by simpa using he)
      rw [List.take_succ_cons, wireTime_cons]
      omega
  · have := hafter e (by simpa using he)
    rw [List.take_succ_cons, wireTime_cons]
    omega

/-- The event under way, if the list has one more event and that one has begun. -/
def underWay (p : Timing) (evs : List WireEvent) (t n : Nat) : Option WireEvent :=
  if wireTime p (evs.take n) ≤ t then evs[n]? else none

theorem underWay_cons {p : Timing} {ev : WireEvent} {evs : List WireEvent} {t : Nat} (hle : eventTime p ev ≤ t)
    (n : Nat) :
    underWay p (ev :: evs) t (n + 1) = underWay p evs (t - eventTime p ev) n := by
  simp only [underWay, List.take_succ_cons, wireTime_cons, List.getElem?_cons_succ,
    show eventTime p ev + wireTime p (evs.take n) ≤ t ↔ wireTime p (evs.take n) ≤ t - eventTime p ev by omega]

/-- What `eventsWithin` gives: the events shown by then, and the one under way. -/
theorem eventsWithin_spec (p : Timing) (evs : List WireEvent) (t : Nat) :
    ∃ n, ShownAt p evs t n ∧ (eventsWithin p evs t).1 = evs.take n ∧
      (eventsWithin p evs t).2.2 = underWay p evs t n := by
  induction evs generalizing t with
  | nil => exact ⟨0, shownAt_nil p t, rfl, by simp [eventsWithin, underWay]⟩
  | cons ev evs ih =>
    simp only [eventsWithin]
    split
    · next hle =>
      obtain ⟨n, hshown, htake, hunder⟩ := ih (t - eventTime p ev)
      exact ⟨n + 1, hshown.cons hle, by rw [htake, List.take_succ_cons], by rw [hunder, underWay_cons hle]⟩
    · next hle =>
      split
      · next hshown =>
        refine ⟨1, ⟨by simp, fun k e hk he => ?_, fun e he => ?_⟩, rfl, ?_⟩
        · obtain rfl : k = 0 := by omega
          obtain rfl : ev = e := by simpa using he
          simpa [wireTime] using hshown
        · simp only [List.take_succ_cons, List.take_zero, wireTime_cons]
          omega
        · simp [underWay, wireTime, hle]
      · next hshown =>
        refine ⟨0, ⟨by simp, by omega, fun e he => ?_⟩, rfl, by simp [underWay, wireTime]⟩
        obtain rfl : ev = e := by simpa using he
        simpa [wireTime] using hshown

/-- The truncated event of the event under way, as the trace shows it (R152). -/
theorem cutEvent_shown (s : State) :
    (cutEvent s).toList.map (fun x => WireEvent.cut x.1) = (eventUnderWay s).2.elim [] cutOf := by
  unfold cutEvent
  split <;> next heq => rw [heq]; rfl

/-! ### The reference bus after a truncated event -/

/-- The bus `b'` has the devices of `b` by address and alert condition, and is stuck where `b` is (R56). -/
def SameDevices (b b' : Bus) : Prop :=
  b'.stuckLow = b.stuckLow ∧
    b'.devices.map (fun d => (d.rom, d.alerting)) = b.devices.map fun d => (d.rom, d.alerting)

/-- Where the environment is a reference bus, it stays one with the same devices. -/
def KeepsDevices (e e' : Env) : Prop := ∀ b, e = .bus b → ∃ b', e' = .bus b' ∧ SameDevices b b'

theorem KeepsDevices.refl (e : Env) : KeepsDevices e e := fun b hb => ⟨b, hb, rfl, rfl⟩

theorem KeepsDevices.trans {e e1 e2 : Env} (h1 : KeepsDevices e e1) (h2 : KeepsDevices e1 e2) : KeepsDevices e e2 := by
  intro b hb
  obtain ⟨b1, hb1, hs1, hd1⟩ := h1 b hb
  obtain ⟨b2, hb2, hs2, hd2⟩ := h2 b1 hb1
  exact ⟨b2, hb2, hs2.trans hs1, hd2.trans hd1⟩

theorem keepsDevices_drawn (e : Env) : KeepsDevices e e.drawn := by
  rintro b rfl
  exact ⟨b, rfl, rfl, rfl⟩

theorem keepsDevices_onBus {f : Bus → Bus} (h : ∀ b, SameDevices b (f b)) (e : Env) : KeepsDevices e (e.onBus f) := by
  rintro b rfl
  exact ⟨f b, rfl, h b⟩

/-- No slot changes a device's address or alert condition (R55, R58). -/
theorem afterSlot_keeps_identity (m : Bool) (d : Device) :
    ((d.afterSlot m).rom, (d.afterSlot m).alerting) = (d.rom, d.alerting) := by
  unfold Device.afterSlot
  split
  case h_10 => split <;> rfl
  all_goals rfl

theorem afterCut_keeps_identity (k : CutEvent) (d : Device) :
    ((d.afterCut k).rom, (d.afterCut k).alerting) = (d.rom, d.alerting) := by
  cases k with
  | pulse => rfl
  | write b => exact afterSlot_keeps_identity b d
  | read => exact afterSlot_keeps_identity true d

theorem sameDevices_afterSlot (m : Bool) (b : Bus) : SameDevices b (b.afterSlot m) := by
  refine ⟨rfl, ?_⟩
  simp only [Bus.afterSlot, List.map_map]
  exact List.map_congr_left fun d _ => afterSlot_keeps_identity m d

theorem sameDevices_afterPulse (b : Bus) : SameDevices b b.afterPulse := by
  refine ⟨rfl, ?_⟩
  simp only [Bus.afterPulse, List.map_map]
  rfl

theorem sameDevices_afterCut (n : Nat) (k : CutEvent) (b : Bus) : SameDevices b (b.afterCut n k) := by
  refine ⟨rfl, List.ext_getElem (by simp [Bus.afterCut]) fun j h1 h2 => ?_⟩
  simp only [Bus.afterCut, List.getElem_map, List.getElem_mapIdx]
  split
  · exact afterCut_keeps_identity k _
  · rfl

theorem keepsDevices_after (ev : WireEvent) (e : Env) : KeepsDevices e (e.after ev) := by
  cases ev with
  | poll v => exact keepsDevices_drawn e
  | rst v => exact (keepsDevices_drawn e).trans (keepsDevices_onBus sameDevices_afterPulse _)
  | write b => exact keepsDevices_onBus (sameDevices_afterSlot b) e
  | read v => exact (keepsDevices_drawn e).trans (keepsDevices_onBus (sameDevices_afterSlot true) _)
  | cut k => exact KeepsDevices.refl e

theorem keepsDevices_afterAll (evs : List WireEvent) (e : Env) : KeepsDevices e (e.afterAll evs) := by
  induction evs generalizing e with
  | nil => exact KeepsDevices.refl e
  | cons ev evs ih => exact (keepsDevices_after ev e).trans (ih _)

theorem keepsDevices_afterCut (n : Nat) (k : CutEvent) (sampled : Bool) (e : Env) :
    KeepsDevices e (e.afterCut n k sampled) := by
  have hdraw : KeepsDevices e (if sampled then e.drawn else e) := by
    split
    · exact keepsDevices_drawn e
    · exact KeepsDevices.refl e
  exact hdraw.trans (keepsDevices_onBus (sameDevices_afterCut n k) _)

theorem envAfterReset_keepsDevices (s : State) : KeepsDevices s.wire.env (envAfterReset s) := by
  unfold envAfterReset
  split
  · exact keepsDevices_afterAll _ _
  · exact (keepsDevices_afterAll _ _).trans (keepsDevices_afterCut _ _ _ _)

/-- Without a truncated event the environment is where the whole events left it (R38). -/
theorem envAfterReset_of_no_cut {s : State} (h : (cutEvent s).toList.map (fun x => WireEvent.cut x.1) = []) :
    envAfterReset s = s.wire.env.afterAll (eventsDone s) := by
  have hnone : cutEvent s = none := by simpa using h
  simp only [envAfterReset, hnone]

/-! ### The line after a block reset -/

/-- A command's pending events are those it makes when it completes (R32). -/
theorem pendingEvents_of_exec {i : Instr} {s u : State} (hdec : decodeWord s.cmdLatch = .ok i)
    (h : exec i s = .next u) : pendingEvents s = u.wire.trace.drop s.wire.trace.length := by
  obtain ⟨t, ht⟩ := exec_answers_next i (s.rerun s.seq s.agenda false)
  obtain ⟨htrace, -⟩ := exec_rerun _ _ _ h ht
  rw [pendingEvents, pendingWire_of_exec hdec ht, htrace]

/-- The line a block reset leaves of a running command (R151, R152). -/
theorem wireAfterReset_of_running {s : State} (h : s.seq ≠ .idle) :
    wireAfterReset s =
      { dqLow := false
        now := s.instant
        trace := s.wire.trace ++ eventsDone s ++ (cutEvent s).toList.map fun x => .cut x.1
        wave := s.wire.wave ++ edgesDone s ++ if lineLow s then [.release s.instant] else []
        env := envAfterReset s } := by
  unfold wireAfterReset
  split
  · next hidle => exact absurd hidle h
  · rfl

theorem wireAfterReset_now (s : State) : (wireAfterReset s).now = s.instant := by
  rw [← blockReset_instant s, instant_of_idle (s := blockReset s) rfl]
  rfl

/-- An idle block has nothing on the line to abandon. -/
theorem wireAfterReset_of_idle {s : State} (h : s.seq = .idle) : wireAfterReset s = { s.wire with dqLow := false } := by
  simp only [wireAfterReset, h]

/-- An illegal word makes no events and no marks (R137). -/
theorem pending_of_illegal {s : State} {r : Illegal} (hdec : decodeWord s.cmdLatch = .error r) :
    pendingEvents s = [] ∧ pendingEdges s = [] := by
  simp [pendingEvents, pendingEdges, pendingWire, complete, hdec, completeIllegal]

/-- A block reset of an idle block or of an illegal word leaves the line's history and the environment. -/
theorem wireAfterReset_quiet {s : State} (h : s.seq = .idle ∨ ∃ r, decodeWord s.cmdLatch = .error r) :
    (wireAfterReset s).trace = s.wire.trace ∧ (wireAfterReset s).wave = s.wire.wave ∧
      (wireAfterReset s).env = s.wire.env := by
  by_cases hidle : s.seq = .idle
  · rw [wireAfterReset_of_idle hidle]
    exact ⟨rfl, rfl, rfl⟩
  · obtain ⟨r, hdec⟩ := h.resolve_left hidle
    obtain ⟨hevents, hedges⟩ := pending_of_illegal hdec
    have hdone : eventsDone s = [] := by simp [eventsDone, hevents, eventsWithin]
    have hcut : (cutEvent s).toList.map (fun x => WireEvent.cut x.1) = [] := by
      simp [cutEvent_shown, eventUnderWay, hevents, eventsWithin]
    have hmarks : edgesDone s = [] := by simp [edgesDone, hedges]
    rw [wireAfterReset_of_running hidle, envAfterReset_of_no_cut hcut, hdone, hcut, hmarks, lineLow_of_illegal hdec]
    simp [Env.afterAll_nil]

/-- A low phase ends at the block reset (R151). -/
theorem wireAfterReset_wave_of_low {s : State} (hrun : s.seq ≠ .idle) (h : lineLow s = true) :
    (wireAfterReset s).wave.getLast? = some (.release s.instant) := by
  simp [wireAfterReset_of_running hrun, h]

theorem wireAfterReset_keepsDevices {s : State} (hrun : s.seq ≠ .idle) :
    KeepsDevices s.wire.env (wireAfterReset s).env := by
  rw [wireAfterReset_of_running hrun]
  exact envAfterReset_keepsDevices s

theorem instant_eq_now_add_elapsed (s : State) : s.instant = s.wire.now + s.elapsed := by
  simp only [State.elapsed, State.instant]
  omega

/-- The truncated event of the statement: of the event after the first `n`, if it has begun (R152). -/
theorem underWay_elim_cutOf {p : Timing} {evs : List WireEvent} {t n : Nat} :
    (∀ ev, evs[n]? = some ev →
      (underWay p evs t n).elim [] cutOf = if wireTime p (evs.take n) ≤ t then cutOf ev else []) ∧
      (evs[n]? = none → (underWay p evs t n).elim [] cutOf = []) := by
  refine ⟨fun ev hev => ?_, fun hnone => by simp [underWay, hnone]⟩
  rw [underWay, hev]
  split <;> rfl

/-- The trace a block reset leaves of a running command: the events shown by this instant, then the truncated one; and
the environment where the whole events left it, if there is none (R38, R152). -/
theorem wireAfterReset_history {s : State} {evs : List WireEvent} (hrun : s.seq ≠ .idle)
    (hevs : pendingEvents s = evs) :
    ∃ n cut, ShownAt s.timing evs s.elapsed n ∧ cut = (underWay s.timing evs s.elapsed n).elim [] cutOf ∧
      (wireAfterReset s).trace = s.wire.trace ++ evs.take n ++ cut ∧
      (cut = [] → (wireAfterReset s).env = s.wire.env.afterAll (evs.take n)) := by
  subst hevs
  obtain ⟨n, hshown, hdone, hunder⟩ := eventsWithin_spec s.timing (pendingEvents s) s.elapsed
  refine ⟨n, _, hshown, rfl, ?_⟩
  rw [← hunder, ← hdone, wireAfterReset_of_running hrun]
  exact ⟨congrArg _ (cutEvent_shown s), fun hnone => envAfterReset_of_no_cut ((cutEvent_shown s).trans hnone)⟩

/-- Settles O11: the pending events are the command's own, `eventsWithin` splits them at this instant, and the waveform
shows whether a low phase is under way. -/
theorem blockResetAbandonsTheCommand : Obligations.BlockResetAbandonsTheCommand := by
  unfold Obligations.BlockResetAbandonsTheCommand
  intro s rest hag
  refine ⟨wireAfterReset { s with agenda := rest }, by rw [step_of_turn hag]; rfl, wireAfterReset_dqLow _,
    wireAfterReset_now _, wireAfterReset_quiet (s := { s with agenda := rest }), ?_⟩
  rintro i u evs hrun hdec hexec rfl
  obtain ⟨v, hv⟩ := exec_answers_next i { s with agenda := rest }
  obtain ⟨htrace, -⟩ := exec_rerun s.seq rest s.wire.dqLow hexec hv
  have hevs := pendingEvents_of_exec (s := { s with agenda := rest }) hdec hv
  rw [htrace] at hevs
  obtain ⟨n, cut, hshown, rfl, htr, henv⟩ := wireAfterReset_history (s := { s with agenda := rest }) hrun hevs
  refine ⟨n, _, hshown, underWay_elim_cutOf.1, underWay_elim_cutOf.2, htr, fun hp hlow => ?_, henv,
    wireAfterReset_keepsDevices (s := { s with agenda := rest }) hrun⟩
  refine wireAfterReset_wave_of_low (s := { s with agenda := rest }) hrun ?_
  rw [lineLow_eq_drivenLow (s := { s with agenda := rest }) hp hdec (instant_eq_now_add_elapsed _) hv, htrace]
  exact hlow

end Sys2Proof.Machine
end

section
/-! PROOFS. The host's turns at the register window (20_memory.md R40 to R45, R138): settles O7, O12, O13, O14, O15 and
O21. -/

namespace Sys2Proof.Machine

/-! ### Which turns are refused -/

theorem complete_answers_next (s : State) : ∃ t, complete s = .next t := by
  rcases complete_cases s with ⟨i, t, -, hcomp, hexec⟩ | ⟨r, -, hcomp⟩
  · exact ⟨t, hcomp.trans hexec⟩
  · exact ⟨_, hcomp⟩

theorem goodAccess_eq_false_iff (off : BitVec 6) (width : AccessWidth) :
    goodAccess off width = false ↔ width ≠ .four ∨ off.toNat % 4 ≠ 0 := by
  simp [goodAccess, imp_iff_not_or]

theorem goodAccess_four {off : BitVec 6} (h : off.toNat % 4 = 0) : goodAccess off .four = true := by
  simp [goodAccess, h]

/-- A turn is refused exactly when it is a host access of another width or offset (R41). -/
theorem takeTurn_refused_iff (a : Turn) (s : State) :
    (∃ r, takeTurn a s = .refused r) ↔ ∃ off width, goodAccess off width = false ∧
      (a = .hostRead off width ∨ ∃ v, a = .hostWrite off width v) := by
  cases a with
  | hostWrite off width v => cases hg : goodAccess off width <;> simp [takeTurn, hg]
  | hostRead off width => cases hg : goodAccess off width <;> simp [takeTurn, hg]
  | complete =>
    obtain ⟨t, ht⟩ := complete_answers_next s
    cases hb : s.busy <;> simp [takeTurn, hb, ht]
  | elapse n => simp [takeTurn]
  | blockReset => simp [takeTurn]

theorem step_answers_next_of_no_turn {s : State} (hag : s.agenda = []) : ∃ t, step s = .next t := by
  obtain ⟨t, ht⟩ := complete_answers_next s
  cases hb : s.busy with
  | true => exact ⟨t, (step_of_no_turn hb hag).trans ht⟩
  | false => exact ⟨s, by simp [step, hag, hb]⟩

/-- Settles O7: with no turn left a step answers a next state, and a turn is refused only for a bad access. -/
theorem onlyABadHostAccessIsRefused : Obligations.OnlyABadHostAccessIsRefused := by
  unfold Obligations.OnlyABadHostAccessIsRefused
  refine fun s => ⟨?_, fun hno => ?_⟩
  · simp only [← goodAccess_eq_false_iff]
    cases hag : s.agenda with
    | nil =>
      obtain ⟨t, ht⟩ := step_answers_next_of_no_turn hag
      simp [ht]
    | cons a rest =>
      rw [step_of_turn hag, takeTurn_refused_iff]
      constructor
      · rintro ⟨off, width, hg, rfl | ⟨v, rfl⟩⟩
        · exact ⟨off, width, rest, hg, .inl rfl⟩
        · exact ⟨off, width, rest, hg, .inr ⟨v, rfl⟩⟩
      · rintro ⟨off, width, rest', hg, h | ⟨v, h⟩⟩ <;> cases h
        · exact ⟨off, width, hg, .inl rfl⟩
        · exact ⟨off, width, hg, .inr ⟨v, rfl⟩⟩
  · cases h : step s with
    | next t => exact ⟨t, rfl⟩
    | fault r => exact nomatch r
    | refused r => exact absurd ⟨r, h⟩ hno

/-! ### Host writes by register -/

/-- The next turn stores to a register (R82). -/
theorem step_of_st {s : State} {r : Reg} {v : Word} {rest : List Turn} (hag : s.agenda = st r v :: rest) :
    step s = .next (writeReg r v { s with agenda := rest }) := by
  rw [step_of_turn hag, takeTurn_st]

theorem writeReg_of_idle {s : State} (hb : s.busy = false) (r : Reg) (v : Word) :
    writeReg r v s = writeRegIdle r v s := by simp [writeReg, hb]

/-- STATUS takes a write the same way, busy or not (R44, R45). -/
theorem writeReg_status (v : Word) (s : State) : writeReg .status v s = writeStatus v s := by
  cases hb : s.busy <;> simp [writeReg, writeRegIdle, writeRegBusy, hb]

/-- The registers that ignore every write (R42, R44, R45). -/
theorem writeReg_of_read_only {r : Reg}
    (hr : r = .romLo ∨ r = .romHi ∨ r = .cursor ∨ r = .crc ∨ r = .crc16Out ∨ r = .reserved) (v : Word) (s : State) :
    writeReg r v s = s := by
  rcases hr with rfl | rfl | rfl | rfl | rfl | rfl <;> simp [writeReg, writeRegIdle, writeRegBusy]

/-- The mask of STATUS bits that writing 1 clears (R44). -/
theorem getLsbD_statusMask (k : Nat) : (0x00000300 : Word).getLsbD k = (decide (k = 8) || decide (k = 9)) := by
  by_cases hk : k < 32
  · interval_cases k <;> rfl
  · have h8 : k ≠ 8 := by omega
    have h9 : k ≠ 9 := by omega
    simp [h8, h9, BitVec.getLsbD_of_ge _ k (Nat.le_of_not_lt hk)]

/-- A write to STATUS clears in its word the bits 8 and 9 that are written 1 (R44). -/
theorem statusWord_writeStatus (v : Word) (s : State) :
    statusWord (writeStatus v s) = statusWord s &&& ~~~(v &&& 0x00000300) := by
  apply BitVec.eq_of_getLsbD_eq
  intro k hk
  simp only [BitVec.getLsbD_and, BitVec.getLsbD_not, getLsbD_statusMask, getLsbD_statusWord, hk, decide_true,
    Bool.true_and]
  by_cases h8 : k = 8
  · subst h8; simp
  by_cases h9 : k = 9
  · subst h9; simp
  simp [h8, h9]

theorem step_st_status {s : State} {v : Word} {rest : List Turn} (hag : s.agenda = st .status v :: rest) :
    ∃ a b, step s = .next { s with agenda := rest, errIllegal := a, errOverrun := b } ∧
      readReg .status { s with errIllegal := a, errOverrun := b } = readReg .status s &&& ~~~(v &&& 0x00000300) :=
  ⟨_, _, by rw [step_of_st hag, writeReg_status]; rfl, statusWord_writeStatus v s⟩

/-- Settles O12, register by register. -/
theorem hostWritesWhileIdle : Obligations.HostWritesWhileIdle := by
  unfold Obligations.HostWritesWhileIdle
  intro s v rest hb
  have hidle : ∀ r, s.agenda = st r v :: rest → step s = .next (writeRegIdle r v { s with agenda := rest }) :=
    fun r hag => by rw [step_of_st hag, writeReg_of_idle (s := { s with agenda := rest }) hb]
  refine ⟨fun hag => ⟨_, _, hidle _ hag⟩, step_st_status, fun hag => ⟨_, hidle _ hag, ?_, ?_⟩,
    fun hag => ⟨_, hidle _ hag, ?_, ?_⟩, fun hag => ⟨_, hidle _ hag, ?_⟩, fun r hr hag => ?_⟩
  · exact BitVec.extractLsb'_append_eq_right
  · exact BitVec.extractLsb'_append_eq_left
  · exact BitVec.extractLsb'_append_eq_left
  · exact BitVec.extractLsb'_append_eq_right
  · simp
  · rw [step_of_st hag, writeReg_of_read_only (by simpa [or_assoc] using Or.inl hr)]

/-- Settles O13: a dropped write, a write to STATUS, and a write to any other register. -/
theorem hostWritesWhileBusy : Obligations.HostWritesWhileBusy := by
  unfold Obligations.HostWritesWhileBusy
  intro s v rest hb
  refine ⟨fun r hr hag => ?_, step_st_status, fun r hr hag => ?_⟩
  · rw [step_of_st hag, writeReg_of_dropped hr (s := { s with agenda := rest }) hb]
  · rw [step_of_st hag, writeReg_of_read_only hr]

/-! ### Host reads, and the reserved offsets -/

theorem step_of_hostRead {s : State} {off : BitVec 6} {rest : List Turn} (hoff : off.toNat % 4 = 0)
    (hag : s.agenda = .hostRead off .four :: rest) :
    step s = .next { s with agenda := rest, hostReads := s.hostReads ++ [readReg (regAt off) s] } := by
  have hread : ∀ r, readReg r { s with agenda := rest } = readReg r s := fun r => by cases r <;> rfl
  simp [step_of_turn hag, takeTurn, goodAccess_four hoff, hread]

/-- The table of R40: each offset is that of its register. -/
theorem offset_of_mem_map : ∀ x ∈ [((0x00 : BitVec 6), Reg.cmd), (0x04, .status), (0x08, .dataLo), (0x0C, .dataHi),
    (0x10, .romLo), (0x14, .romHi), (0x18, .cursor), (0x1C, .crc), (0x20, .crc16Poly), (0x24, .crc16Out)],
    x.1 = x.2.offset := by decide

theorem offset_aligned (r : Reg) : r.offset.toNat % 4 = 0 := by cases r <;> rfl

/-- Settles O14: a host read hands over the word of the register at its offset. -/
theorem hostReadsHaveNoSideEffect : Obligations.HostReadsHaveNoSideEffect := by
  unfold Obligations.HostReadsHaveNoSideEffect
  refine ⟨fun s off rest hoff hag => ⟨_, step_of_hostRead hoff hag, ?_⟩, fun s rest off r hmem => ?_⟩
  · rintro rfl
    rfl
  · obtain rfl : off = r.offset := offset_of_mem_map _ hmem
    refine ⟨rfl, fun v => rfl, fun hag => ?_⟩
    rw [step_of_hostRead (offset_aligned r) hag, regAt_offset]

/-- From 0x28 on the window is reserved (R42). -/
theorem regAt_of_reserved {off : BitVec 6} (h : 0x28 ≤ off.toNat) : regAt off = .reserved := by
  unfold regAt
  split
  case h_11 => rfl
  all_goals omega

/-- Settles O15: the reserved register reads 0 and ignores writes. -/
theorem reservedOffsets : Obligations.ReservedOffsets := by
  unfold Obligations.ReservedOffsets
  refine fun s off rest hlow hoff => ⟨fun hag => ?_, fun v hag => ?_⟩
  · rw [step_of_hostRead hoff hag, regAt_of_reserved hlow]
    rfl
  · rw [step_of_turn hag, takeTurn, if_pos (goodAccess_four hoff), regAt_of_reserved hlow,
      writeReg_of_read_only (by simp)]

/-! ### No command reads the error flags -/

/-- The state with other error flags. -/
def State.flagged (ill overrun : Bool) (s : State) : State := { s with errIllegal := ill, errOverrun := overrun }

theorem searchBits_flagged (ill overrun : Bool) (n pos : Nat) (s : State) :
    searchBits n pos (s.flagged ill overrun) =
      ((searchBits n pos s).1, (searchBits n pos s).2.flagged ill overrun) := by
  induction n generalizing pos s with
  | zero => rfl
  | succ n ih =>
    have hid : idBit (s.flagged ill overrun) = idBit s := rfl
    have hcmp : cmpBit (s.flagged ill overrun) = cmpBit s := rfl
    rw [searchBits_succ, searchBits_succ, hid, hcmp]
    split
    · rfl
    · exact ih (pos + 1) (afterPosition pos s)

theorem afterBits_flagged (ill overrun b : Bool) (s : State) :
    afterBits (b, s.flagged ill overrun) = (afterBits (b, s)).flagged ill overrun := by
  have hrom : (completePass (s.flagged ill overrun)).rom = (completePass s).rom := rfl
  cases b with
  | false => rfl
  | true =>
    simp only [afterBits, if_true, validateCandidate, hrom]
    split <;> rfl

theorem searchPass_flagged (ill overrun : Bool) (c : Byte) (s : State) :
    searchPass c (s.flagged ill overrun) = (searchPass c s).flagged ill overrun := by
  cases hdev : s.lastDev with
  | true => rw [searchPass_of_lastDev c hdev, searchPass_of_lastDev c (s := s.flagged ill overrun) hdev]; rfl
  | false =>
    cases ho : (busReset s.timing s.wire).1 with
    | stuck => rw [searchPass_of_stuck c hdev ho, searchPass_of_stuck c (s := s.flagged ill overrun) hdev ho]; rfl
    | absent => rw [searchPass_of_absent c hdev ho, searchPass_of_absent c (s := s.flagged ill overrun) hdev ho]; rfl
    | present =>
      have hstart : bitsStart c (afterBusReset (s.flagged ill overrun)) =
          (bitsStart c (afterBusReset s)).flagged ill overrun := rfl
      rw [searchPass_of_present c hdev ho, searchPass_of_present c (s := s.flagged ill overrun) hdev ho, searchRest_eq,
        searchRest_eq, hstart, searchBits_flagged, afterBits_flagged]

/-- A command does the same whatever the error flags are, and keeps them (R19, R20). -/
theorem exec_flagged {i : Instr} {s t : State} (ill overrun : Bool) (h : exec i s = .next t) :
    exec i (s.flagged ill overrun) = .next (t.flagged ill overrun) := by
  cases hact : activity s.data i with
  | crc => cases i <;> simp only [activity, reduceCtorEq] at hact <;> cases h <;> rfl
  | searchReset =>
    obtain rfl := eq_srst_of_searchReset hact
    cases h
    rfl
  | send bs =>
    cases (exec_of_send hact).symm.trans h
    exact exec_of_send (s := s.flagged ill overrun) hact
  | receive n =>
    cases (exec_of_receive hact).symm.trans h
    exact exec_of_receive (s := s.flagged ill overrun) hact
  | busReset =>
    obtain rfl := eq_reset_of_busReset hact
    cases h
    rfl
  | pass =>
    have hsearch := (activity_pass_iff _ _).1 hact
    cases (exec_of_isSearch hsearch s).symm.trans h
    have hstart : passStart i (s.flagged ill overrun) = (passStart i s).flagged ill overrun := by
      unfold passStart
      split <;> rfl
    rw [exec_of_isSearch hsearch, hstart]
    exact congrArg _ (searchPass_flagged ill overrun (searchByte i) { passStart i s with sstate := .searching })

/-- A completion does the same whatever the error flags are: a legal command keeps them, an illegal word sets
ERR_ILLEGAL (R19, R20, R137). -/
theorem complete_flagged {s t : State} (h : complete s = .next t) :
    (∃ i, decodeWord s.cmdLatch = .ok i ∧ t.errIllegal = s.errIllegal ∧ t.errOverrun = s.errOverrun ∧
      ∀ ill overrun, complete (s.flagged ill overrun) = .next (t.flagged ill overrun)) ∨
    ∃ r, decodeWord s.cmdLatch = .error r ∧ t.errIllegal = true ∧ t.errOverrun = s.errOverrun ∧
      ∀ ill overrun, complete (s.flagged ill overrun) = .next (t.flagged true overrun) := by
  rcases complete_cases s with ⟨i, u, hdec, hcomp, -⟩ | ⟨r, hdec, hcomp⟩
  · have hexec := hcomp.symm.trans h
    obtain ⟨-, hill, hover, -⟩ := exec_keeps_settings hexec
    refine .inl ⟨i, hdec, hill, hover, fun ill overrun => ?_⟩
    rw [complete_of_decode (s := s.flagged ill overrun) hdec]
    exact exec_flagged ill overrun hexec
  · cases hcomp.symm.trans h
    refine .inr ⟨r, hdec, rfl, rfl, fun ill overrun => ?_⟩
    simp only [complete, State.flagged, hdec]
    rfl

/-- A host write to a busy block changes the error flags alone, as the register says (R45). -/
theorem writeReg_eq_flagged {s : State} (hb : s.busy = true) {r : Reg} (hr : r ≠ .status) (v : Word) :
    writeReg r v s = s.flagged s.errIllegal
      (s.errOverrun || decide (r = .cmd ∨ r = .dataLo ∨ r = .dataHi ∨ r = .crc16Poly)) := by
  rcases writeReg_cases r v s with ⟨hi, -⟩ | ⟨hst, -⟩ | ⟨hi, -⟩ | ⟨hi, -⟩ | ⟨-, hdrop, h⟩ | ⟨hignored, h⟩
  case inr.inl => exact absurd hst hr
  case inr.inr.inr.inr.inl => simp [h, hdrop, State.flagged]
  case inr.inr.inr.inr.inr =>
    rcases hignored with rfl | rfl | rfl | rfl | rfl | rfl <;> simp [h, State.flagged]
  all_goals simp [hb] at hi

/-- Settles O21: a host write to a busy block is a change of the flags, which the completion does not read. -/
theorem hostWritesDoNotDisturbACommand : Obligations.HostWritesDoNotDisturbACommand := by
  unfold Obligations.HostWritesDoNotDisturbACommand
  intro s v t hb h
  have hstatus : writeReg .status v s = s.flagged (s.errIllegal && !v.getLsbD 8) (s.errOverrun && !v.getLsbD 9) :=
    writeReg_status v s
  rcases complete_flagged h with ⟨i, hdec, hill, hover, hflags⟩ | ⟨r, hdec, hill, hover, hflags⟩
  · refine ⟨fun r hr => ?_, fun j _ => ?_, fun r hr => by cases hdec.symm.trans hr⟩
    · rw [writeReg_eq_flagged hb hr, hflags, ← hill, ← hover]
      rfl
    · rw [hstatus, hflags, ← hill, ← hover]
      rfl
  · refine ⟨fun r hr => ?_, fun j hj => (by cases hdec.symm.trans hj), fun r _ => ⟨hill, ?_⟩⟩
    · rw [writeReg_eq_flagged hb hr, hflags, ← hill, ← hover]
      rfl
    · rw [hstatus, hflags, ← hill, ← hover]
      rfl

end Sys2Proof.Machine
end

section
/-! PROOFS. The codec commands as bits on the wire, and the reference bus seen from the block: what its devices answer
to a bus reset and to slots (20_memory.md R56 to R64; 41_codec.md R97 to R104). Settles O28, O31, O34 and O35. -/

namespace Sys2Proof.Machine

/-! ### Commands that send or receive bits -/

/-- A sending command sends the bits of its activity. -/
theorem sends_of_activity {i : Instr} {bs : List Bool} {s : State} (h : activity s.data i = .send bs) : Sends i bs s :=
  ⟨_, exec_of_send h, (writeBits_moves_of_pos (length_of_send h).1 s.wire).settle⟩

/-- A receiving command fills `DATA` with as many bits as its activity says. -/
theorem readsInto_of_activity {i : Instr} {n : Nat} {s : State} (h : activity s.data i = .receive n) :
    ReadsInto i n s := by
  obtain ⟨hpos, hmax⟩ := count_of_receive h
  have hlen := readBits_length s.timing n s.wire
  exact ⟨_, _, _, hlen, exec_of_receive h, getLsbD_dataOfBits _ (hlen.le.trans hmax),
    (readBits_moves_of_pos hpos s.timing s.wire).settle⟩

/-- Settles O31, from the bits of each command's activity. -/
theorem codecWritesAreLsbFirst : Obligations.CodecWritesAreLsbFirst := by
  unfold Obligations.CodecWritesAreLsbFirst
  exact fun s => ⟨fun b => sends_of_activity (i := .w8 b) rfl, sends_of_activity (i := .w64) rfl,
    sends_of_activity (i := .select) rfl, sends_of_activity (i := .skip) rfl⟩

/-- Settles O34, from the number of bits of each command's activity. -/
theorem codecReadsFillData : Obligations.CodecReadsFillData := by
  unfold Obligations.CodecReadsFillData
  exact fun s => ⟨readsInto_of_activity rfl, readsInto_of_activity rfl, readsInto_of_activity rfl⟩

/-! ### A bus reset on the reference bus -/

/-- Polls move no device (R52, R87). -/
theorem afterAll_polls (b : Bus) (vs : List Bool) : (Env.bus b).afterAll (vs.map .poll) = .bus b := by
  induction vs with
  | nil => rfl
  | cons v vs ih => exact ih

theorem stuckEvents_eq (p : Timing) : stuckEvents p = (List.replicate p.nIdlePolls false).map .poll := by
  simp [stuckEvents]

/-- On a stuck line no poll reads 1, so no pulse is driven (R56, R87). -/
theorem busReset_of_stuck {p : Timing} {w : Wire} {ds : List Device} (h : w.env = .bus ⟨ds, true⟩) :
    (busReset p w).1 = .stuck ∧ Moves p w (stuckEvents p) (busReset p w).2 ∧ (busReset p w).2.env = w.env := by
  rcases busReset_cases p w with ⟨ho, hm⟩ | ⟨k, v, -, -, -, -, hans, -⟩
  · obtain ⟨-, -, -, henv, -⟩ := id hm
    refine ⟨ho, hm, ?_⟩
    rw [henv, h, stuckEvents_eq, afterAll_polls]
  · have hpolls : (Env.bus ⟨ds, true⟩).afterAll (List.replicate k (.poll false)) = .bus ⟨ds, true⟩ := by
      simpa using afterAll_polls ⟨ds, true⟩ (List.replicate k false)
    rw [resetEvents, answeredBy_append, h, hpolls] at hans
    obtain ⟨-, hpoll, -⟩ := hans
    simp [Env.answer, Bus.answer] at hpoll

/-- The devices after a reset pulse (R57). -/
def afterPulse (ds : List Device) : List Device := ds.map fun d => { d with st := .cmd 0 0 }

/-- On a line that is not stuck the first poll reads 1, and the presence sample says whether there is a device (R56,
R57, R89). -/
theorem busReset_of_bus {p : Timing} {w : Wire} {ds : List Device} (hp : 1 ≤ p.nIdlePolls)
    (h : w.env = .bus ⟨ds, false⟩) :
    (busReset p w).1 = (if ds = [] then .absent else .present) ∧
      Moves p w [.poll true, .rst (decide (ds = []))] (busReset p w).2 ∧
      (busReset p w).2.env = .bus ⟨afterPulse ds, false⟩ := by
  have hidle : (Env.bus ⟨ds, false⟩).answer .poll = true := by simp [Env.answer, Bus.answer]
  rcases busReset_cases p w with ⟨-, -, -, hans, -⟩ | ⟨k, v, -, ho, hm⟩
  · obtain ⟨n, hn⟩ : ∃ n, p.nIdlePolls = n + 1 := ⟨p.nIdlePolls - 1, by omega⟩
    rw [stuckEvents, hn, List.replicate_succ, h] at hans
    obtain ⟨hpoll, -⟩ := hans
    simp [hidle] at hpoll
  · obtain ⟨-, -, hans, henv, -⟩ := id hm
    cases k with
    | succ k =>
      rw [resetEvents, List.replicate_succ, h] at hans
      obtain ⟨hpoll, -⟩ := hans
      simp [hidle] at hpoll
    | zero =>
      obtain ⟨-, hv, -⟩ : AnsweredBy (.bus ⟨ds, false⟩) [.poll true, .rst v] := h ▸ hans
      obtain rfl : decide (ds = []) = v := by
        rw [← hv]
        cases ds <;> rfl
      refine ⟨by simpa using ho, hm, ?_⟩
      rw [henv, h]
      rfl

/-- `RESET` reports its bus reset, and changes nothing else (R90). -/
theorem exec_reset_eq (s : State) : exec .reset s = .next
    { completed (busReset s.timing s.wire).1.result ((busReset s.timing s.wire).2.settle s.seq.reading) s with
      presence := (busReset s.timing s.wire).1.presence } := rfl

/-- Settles O28: a bus reset on a stuck line, and on one that is not. -/
theorem resetOnTheReferenceBus : Obligations.ResetOnTheReferenceBus := by
  unfold Obligations.ResetOnTheReferenceBus
  refine fun s ds => ⟨fun h => ?_, fun hp h => ?_⟩
  · obtain ⟨ho, ⟨-, htrace, -⟩, henv⟩ := busReset_of_stuck (p := s.timing) h
    refine ⟨(busReset s.timing s.wire).2.settle s.seq.reading, ?_, htrace, henv.trans h⟩
    rw [exec_reset_eq, ho]
    rfl
  · obtain ⟨ho, hm, henv⟩ := busReset_of_bus hp h
    refine ⟨(busReset s.timing s.wire).2.settle s.seq.reading, ?_, hm.settle, henv⟩
    rw [exec_reset_eq, ho]
    cases ds <;> rfl

/-! ### Slots on the reference bus -/

/-- A device after slots with these master bits (R58). -/
def Device.afterBits (bs : List Bool) (d : Device) : Device := bs.foldl (fun d m => d.afterSlot m) d

@[simp] theorem Device.afterBits_nil : Device.afterBits [] = id := rfl

theorem Device.afterBits_append (xs ys : List Bool) (d : Device) :
    d.afterBits (xs ++ ys) = (d.afterBits xs).afterBits ys := List.foldl_append ..

/-- Write slots move every device by their bits (R58). -/
theorem afterAll_writeEvents (ds : List Device) (stuck : Bool) (bs : List Bool) :
    (Env.bus ⟨ds, stuck⟩).afterAll (writeEvents bs) = .bus ⟨ds.map (Device.afterBits bs), stuck⟩ := by
  induction bs generalizing ds with
  | nil => simp [writeEvents, Env.afterAll_nil]
  | cons b bs ih =>
    refine (ih (ds.map (Device.afterSlot b))).trans ?_
    rw [List.map_map]
    rfl

/-- Read slots move every device by master bits 1, and each reads the AND of what the devices then drive (R58, R64). -/
theorem readBits_of_bus (p : Timing) (n : Nat) {w : Wire} {ds : List Device} {stuck : Bool}
    (h : w.env = .bus ⟨ds, stuck⟩) :
    (readBits p n w).1 =
        (List.range n).map (fun k => !stuck && ds.all fun d => (d.afterBits (List.replicate k true)).drive) ∧
      (readBits p n w).2.env = .bus ⟨ds.map (Device.afterBits (List.replicate n true)), stuck⟩ := by
  induction n generalizing w ds with
  | zero => simpa [readBits] using h
  | succ n ih =>
    have hslot : (readSlot p w).2.env = .bus ⟨ds.map (Device.afterSlot true), stuck⟩ := by
      change w.env.after (.read (readSlot p w).1) = _
      rw [h]
      rfl
    obtain ⟨hbits, henv⟩ := ih hslot
    constructor
    · rw [List.range_succ_eq_map, List.map_cons, List.map_map, readBits, hbits, readSlot_fst, h]
      simp only [List.all_map]
      rfl
    · rw [readBits, henv, List.map_map]
      rfl

/-- A reading command on the reference bus: its samples in `DATA`, zero-extended, and the devices moved (R58, R64,
R92, R98). -/
theorem exec_receive_on_bus {i : Instr} {s : State} {n : Nat} {ds : List Device} {stuck : Bool}
    (hact : activity s.data i = .receive n) (h : s.wire.env = .bus ⟨ds, stuck⟩) :
    ∃ t, exec i s = .next t ∧
      (∀ k, t.data.getLsbD k =
        (decide (k < n) && (!stuck && ds.all fun d => (d.afterBits (List.replicate k true)).drive))) ∧
      t.wire.env = .bus ⟨ds.map (Device.afterBits (List.replicate n true)), stuck⟩ := by
  obtain ⟨hbits, henv⟩ := readBits_of_bus s.timing n h
  have hmax := (count_of_receive hact).2
  refine ⟨_, exec_of_receive hact, fun k => ?_, henv⟩
  change (dataOfBits (readBits s.timing n s.wire).1).getLsbD k = _
  rw [getLsbD_dataOfBits _ (by rwa [readBits_length]), hbits]
  by_cases hk : k < n <;> simp [hk]

/-- A sending command on the reference bus: the devices moved by its bits, the rest of what later commands read as it
was. -/
theorem exec_send_on_bus {i : Instr} {s : State} {bs : List Bool} {ds : List Device} {stuck : Bool}
    (hact : activity s.data i = .send bs) (h : s.wire.env = .bus ⟨ds, stuck⟩) :
    ∃ t, exec i s = .next t ∧ t.result = .ok ∧ t.data = s.data ∧
      t.wire.env = .bus ⟨ds.map (Device.afterBits bs), stuck⟩ := by
  obtain ⟨w, hexec, -, -, -, henv, -⟩ := sends_of_activity hact
  exact ⟨_, hexec, rfl, rfl, by rw [completed_wire, henv, h, afterAll_writeEvents]⟩

/-- Bits that are all ones make the number with that many ones (R98). -/
theorem eq_ones_of_getLsbD {d : DWord} {n : Nat} (h : ∀ k, d.getLsbD k = decide (k < n)) :
    d = BitVec.ofNat 64 (2 ^ n - 1) := by
  apply BitVec.eq_of_getLsbD_eq
  intro k hk
  rw [h, BitVec.getLsbD_ofNat, Nat.testBit_two_pow_sub_one]
  simp [hk]

/-- What is read is all ones where every device drives 1 in every slot (R64). -/
theorem exec_receive_ones {i : Instr} {s : State} {n : Nat} {ds : List Device}
    (hact : activity s.data i = .receive n) (h : s.wire.env = .bus ⟨ds, false⟩)
    (hdrive : ∀ d ∈ ds, ∀ k, (d.afterBits (List.replicate k true)).drive = true) :
    ∃ t, exec i s = .next t ∧ t.data = BitVec.ofNat 64 (2 ^ n - 1) := by
  obtain ⟨t, hexec, hdata, -⟩ := exec_receive_on_bus hact h
  refine ⟨t, hexec, eq_ones_of_getLsbD fun k => ?_⟩
  have hall : (ds.all fun d => (d.afterBits (List.replicate k true)).drive) = true :=
    List.all_eq_true.2 fun d hd => hdrive d hd k
  rw [hdata, hall]
  simp

/-- What is read is 0 where the line is stuck (R56, R64). -/
theorem exec_receive_zeros {i : Instr} {s : State} {n : Nat} {ds : List Device}
    (hact : activity s.data i = .receive n) (h : s.wire.env = .bus ⟨ds, true⟩) :
    ∃ t, exec i s = .next t ∧ t.data = 0 := by
  obtain ⟨t, hexec, hdata, -⟩ := exec_receive_on_bus hact h
  exact ⟨t, hexec, BitVec.eq_of_getLsbD_eq fun k _ => by simp [hdata]⟩

/-- Settles O35: no device pulls an empty line low, and a stuck line always is. -/
theorem readsOfAnEmptyOrStuckBus : Obligations.ReadsOfAnEmptyOrStuckBus := by
  unfold Obligations.ReadsOfAnEmptyOrStuckBus
  refine fun s ds => ⟨fun h => ?_, fun h => ?_⟩
  · have hones : ∀ i n, activity s.data i = .receive n →
        ∃ t, exec i s = .next t ∧ t.data = BitVec.ofNat 64 (2 ^ n - 1) :=
      fun i n hact => exec_receive_ones hact h (by simp)
    exact ⟨hones .rbit 1 rfl, hones .r8 8 rfl, hones .r64 64 rfl⟩
  · exact ⟨exec_receive_zeros (n := 1) rfl h, exec_receive_zeros (n := 8) rfl h, exec_receive_zeros (n := 64) rfl h⟩

end Sys2Proof.Machine
end

section
/-! PROOFS. The reference devices bit by bit (20_memory.md R55 to R65): the ROM command after a bus reset, the match and
read of an address, the function phase. Settles O33, O36, O37, O57 and O58. -/

namespace Sys2Proof.Machine

/-! ### Commands run one after the other -/

theorem execAll_nil (s : State) : execAll [] s = .next s := rfl

theorem execAll_cons {i : Instr} {s t : State} (h : exec i s = .next t) (is : List Instr) :
    execAll (i :: is) s = execAll is t := by simp [execAll, h]

theorem execAll_append {is : List Instr} {s t : State} (h : execAll is s = .next t) (js : List Instr) :
    execAll (is ++ js) s = execAll js t := by
  induction is generalizing s with
  | nil => cases h; rfl
  | cons i is ih =>
    obtain ⟨u, hu⟩ := exec_answers_next i s
    rw [List.cons_append, execAll_cons hu]
    exact ih ((execAll_cons hu is).symm.trans h)

/-- `RESET` on a line that is not stuck sends every device to `Cmd(0, 0)` and keeps `DATA` (R57, R90). -/
theorem exec_reset_on_bus {s : State} {ds : List Device} (hp : s.timing.Valid) (h : s.wire.env = .bus ⟨ds, false⟩) :
    ∃ t, exec .reset s = .next t ∧ t.data = s.data ∧ t.wire.env = .bus ⟨afterPulse ds, false⟩ := by
  obtain ⟨-, -, -, -, -, -, -, hpolls⟩ := hp
  obtain ⟨-, -, henv⟩ := busReset_of_bus hpolls h
  exact ⟨_, exec_reset_eq s, rfl, henv⟩

/-! ### The ROM command byte -/

/-- The bits of a byte, written out (R49). -/
theorem lsbBits_byte (b : Byte) : lsbBits b = [b.getLsbD 0, b.getLsbD 1, b.getLsbD 2, b.getLsbD 3, b.getLsbD 4,
    b.getLsbD 5, b.getLsbD 6, b.getLsbD 7] := rfl

/-- One more bit of a byte received (R59, R63). -/
theorem getLsbD_accBit (acc : Byte) (m : Bool) {n : Nat} (hn : n < 8) (k : Nat) :
    (accBit acc n m).getLsbD k = (acc.getLsbD k || (decide (k = n) && m)) := by
  simp only [accBit, BitVec.getLsbD_or, BitVec.getLsbD_shiftLeft, BitVec.getLsbD_setWidth, BitVec.getLsbD_ofBool]
  grind

/-- The 8 bits of a byte make the byte again (R49, R59). -/
theorem accBit_lsbBits (b : Byte) :
    accBit (accBit (accBit (accBit (accBit (accBit (accBit (accBit 0 0 (b.getLsbD 0)) 1 (b.getLsbD 1)) 2 (b.getLsbD 2))
      3 (b.getLsbD 3)) 4 (b.getLsbD 4)) 5 (b.getLsbD 5)) 6 (b.getLsbD 6)) 7 (b.getLsbD 7) = b := by
  apply BitVec.eq_of_getLsbD_eq
  intro k hk
  simp (disch := decide) only [getLsbD_accBit]
  interval_cases k <;> simp

/-- A device after a bus reset takes the byte's 8 bits as its ROM command (R59). -/
theorem Device.afterBits_romCommand (d : Device) (b : Byte) :
    Device.afterBits (lsbBits b) { d with st := .cmd 0 0 } = { d with st := d.afterRomCommand b } := by
  have hslot : ∀ n acc m, Device.afterSlot m { d with st := .cmd n acc } =
      { d with st := if n + 1 < 8 then .cmd (n + 1) (accBit acc n m) else d.afterRomCommand (accBit acc n m) } :=
    fun _ _ _ => rfl
  rw [lsbBits_byte]
  simp only [Device.afterBits, List.foldl_cons, List.foldl_nil, hslot, Nat.reduceAdd, Nat.reduceLT, if_true, if_false,
    accBit_lsbBits]

/-- A bus reset and a command that sends the byte `b` (R57, R59). -/
theorem execAll_reset_romCommand {i : Instr} {s : State} {ds : List Device} {b : Byte} (hp : s.timing.Valid)
    (h : s.wire.env = .bus ⟨ds, false⟩) (hact : ∀ d, activity d i = .send (lsbBits b)) :
    ∃ t, execAll [.reset, i] s = .next t ∧ t.data = s.data ∧
      t.wire.env = .bus ⟨ds.map fun d => { d with st := d.afterRomCommand b }, false⟩ := by
  obtain ⟨t, ht, hdata, henv⟩ := exec_reset_on_bus hp h
  obtain ⟨u, hu, -, hdata', henv'⟩ := exec_send_on_bus (hact t.data) henv
  refine ⟨u, by rw [execAll_cons ht, execAll_cons hu, execAll_nil], hdata'.trans hdata, ?_⟩
  rw [henv', afterPulse, List.map_map]
  simp only [Function.comp_def, Device.afterBits_romCommand]

/-- A ROM command byte runs as `W8` of it after a bus reset too. -/
theorem execAll_reset_romByte {i : Instr} {b : Byte} (h : decodeRomByte b = some i) (s : State) :
    execAll [.reset, i] s = execAll [.reset, .w8 b] s := by
  obtain ⟨t, ht⟩ := exec_answers_next .reset s
  rw [execAll_cons ht, execAll_cons ht]
  simp only [execAll, exec_romByte h]

/-- Settles O33, from the ROM command that the 8 bits make. -/
theorem devicesTakeTheRomCommand : Obligations.DevicesTakeTheRomCommand := by
  unfold Obligations.DevicesTakeTheRomCommand
  intro s ds hp h
  have hbyte : ∀ b, ∃ t, execAll [.reset, .w8 b] s = .next t ∧
      t.wire.env = .bus ⟨ds.map fun d => { d with st := d.afterRomCommand b }, false⟩ := fun b =>
    let ⟨t, ht, _, henv⟩ := execAll_reset_romCommand (i := .w8 b) hp h fun _ => rfl
    ⟨t, ht, henv⟩
  refine ⟨fun i b after hcases => ?_, fun b h1 h2 h3 h4 h5 => ?_⟩
  · obtain ⟨hrom, hafter⟩ : decodeRomByte b = some i ∧ ∀ d, after d = d.afterRomCommand b := by
      rcases hcases with ⟨rfl, rfl, rfl⟩ | ⟨rfl, rfl, rfl⟩ | ⟨rfl, rfl, rfl⟩ | ⟨rfl, rfl, rfl⟩ | ⟨rfl, rfl, rfl⟩ <;>
        exact ⟨rfl, fun _ => rfl⟩
    obtain ⟨t, ht, henv⟩ := hbyte b
    exact ⟨t, (execAll_reset_romByte hrom s).trans ht, ht, by simpa only [hafter] using henv⟩
  · have hoff : ∀ d : Device, d.afterRomCommand b = .off := fun d => by
      rw [Device.afterRomCommand, if_neg h1, if_neg h2, if_neg h3, if_neg h4, if_neg h5]
    simpa only [hoff] using hbyte b

/-! ### An address matched, an address read -/

theorem Device.afterBits_off (d : Device) (bs : List Bool) :
    Device.afterBits bs { d with st := .off } = { d with st := .off } := by
  induction bs with
  | nil => rfl
  | cons b bs ih => exact ih

/-- A device that matches compares the rest of its address, and goes on only if all of it agrees (R61). -/
theorem Device.afterBits_matching (d : Device) (v : DWord) (n : Nat) {p : Nat} (hp : p + (n + 1) = 64) :
    Device.afterBits ((List.range' p (n + 1)).map v.getLsbD) { d with st := .matching p } =
      { d with st := if ∀ j, p ≤ j → j < 64 → v.getLsbD j = d.rom.getLsbD j then .func 0 0 else .off } := by
  induction n generalizing p with
  | zero =>
    obtain rfl : p = 63 := by omega
    have hall : (∀ j, 63 ≤ j → j < 64 → v.getLsbD j = d.rom.getLsbD j) ↔ v.getLsbD 63 = d.rom.getLsbD 63 :=
      ⟨fun h => h 63 (by omega) (by omega), fun h j h1 h2 => (by omega : 63 = j) ▸ h⟩
    simp only [hall]
    rfl
  | succ n ih =>
    have hne : p ≠ 63 := by omega
    have hall : (∀ j, p ≤ j → j < 64 → v.getLsbD j = d.rom.getLsbD j) ↔
        v.getLsbD p = d.rom.getLsbD p ∧ ∀ j, p + 1 ≤ j → j < 64 → v.getLsbD j = d.rom.getLsbD j := by
      refine ⟨fun h => ⟨h p (by omega) (by omega), fun j hj => h j (by omega)⟩, fun ⟨h, h'⟩ j hj hj' => ?_⟩
      rcases Nat.eq_or_lt_of_le hj with rfl | hlt
      · exact h
      · exact h' j hlt hj'
    have hslot : Device.afterSlot (v.getLsbD p) { d with st := .matching p } =
        { d with st := if v.getLsbD p = d.rom.getLsbD p then .matching (p + 1) else .off } := by
      simp [Device.afterSlot, hne]
    simp only [hall]
    rw [List.range'_succ, List.map_cons, Device.afterBits, List.foldl_cons, ← Device.afterBits, hslot]
    by_cases hb : v.getLsbD p = d.rom.getLsbD p
    · simp only [and_iff_right hb, if_pos hb]
      exact ih (by omega)
    · simp only [hb, false_and, if_false]
      exact Device.afterBits_off d _

/-- A device that is asked for its address and reads `k` slots (R62). -/
theorem Device.afterBits_readRom (d : Device) {k : Nat} (hk : k < 64) :
    Device.afterBits (List.replicate k true) { d with st := .readRom 0 } = { d with st := .readRom k } := by
  induction k with
  | zero => rfl
  | succ k ih =>
    rw [List.replicate_succ', Device.afterBits_append, ih (by omega)]
    have hne : k ≠ 63 := by omega
    simp [Device.afterBits, Device.afterSlot, hne]

/-- Settles O37: each device compares its address with the 64 bits after the ROM command byte 0x55. -/
theorem selectAddressesOneDevice : Obligations.SelectAddressesOneDevice := by
  unfold Obligations.SelectAddressesOneDevice
  intro s ds hp h
  obtain ⟨t, ht, hdata, henv⟩ := exec_reset_on_bus hp h
  obtain ⟨u, hu, hok, -, henv'⟩ := exec_send_on_bus (i := .select) rfl henv
  refine ⟨u, by rw [execAll_cons ht, execAll_cons hu, execAll_nil], hok, ?_⟩
  have hdev : ∀ d : Device, Device.afterBits (lsbBits (0x55 : Byte) ++ lsbBits t.data) { d with st := .cmd 0 0 } =
      { d with st := if d.rom = s.data then .func 0 0 else .off } := fun d => by
    have hall : (∀ j, 0 ≤ j → j < 64 → s.data.getLsbD j = d.rom.getLsbD j) ↔ d.rom = s.data :=
      ⟨fun h => BitVec.eq_of_getLsbD_eq fun j hj => (h j (Nat.zero_le j) hj).symm, fun h j _ _ => by rw [h]⟩
    have hrom : d.afterRomCommand 0x55 = .matching 0 := rfl
    rw [Device.afterBits_append, Device.afterBits_romCommand, hdata, hrom, lsbBits, List.range_eq_range',
      Device.afterBits_matching d s.data 63 rfl]
    simp only [hall]
  rw [henv', afterPulse, List.map_map]
  simp only [Function.comp_def, hdev]

/-- Settles O36: after the ROM command byte 0x33 each device drives its address, bit by bit. -/
theorem readRomReadsTheAndOfAddresses : Obligations.ReadRomReadsTheAndOfAddresses := by
  unfold Obligations.ReadRomReadsTheAndOfAddresses
  intro s ds hp h
  obtain ⟨t, ht, -, henv⟩ := execAll_reset_romCommand (i := .w8 0x33) hp h fun _ => rfl
  obtain ⟨u, hu, hdata, -⟩ := exec_receive_on_bus (i := .r64) rfl henv
  have hbits : ∀ k, k < 64 → u.data.getLsbD k = ds.all fun d => d.rom.getLsbD k := fun k hk => by
    have hdev : ∀ d : Device, Device.afterBits (List.replicate k true) { d with st := d.afterRomCommand 0x33 } =
        { d with st := .readRom k } := fun d => Device.afterBits_readRom d hk
    rw [hdata, List.all_map]
    simp only [hk, decide_true, Bool.not_false, Bool.true_and, Function.comp_def, hdev]
    rfl
  refine ⟨u, ?_, hbits, ?_⟩
  · exact (execAll_append ht [.r64]).trans ((execAll_cons hu []).trans (execAll_nil u))
  · rintro d rfl
    exact BitVec.eq_of_getLsbD_eq fun k hk => by simpa using hbits k hk

/-! ### Before the first bus reset -/

theorem Device.afterBits_idle {d : Device} (h : d.st = .idle) (bs : List Bool) : d.afterBits bs = d := by
  have hslot : ∀ b, d.afterSlot b = d := fun b => by simp [Device.afterSlot, h]
  induction bs with
  | nil => rfl
  | cons b bs ih => rwa [Device.afterBits, List.foldl_cons, hslot, ← Device.afterBits]

theorem map_afterBits_idle {ds : List Device} (h : ∀ d ∈ ds, d.st = .idle) (bs : List Bool) :
    ds.map (Device.afterBits bs) = ds := by
  rw [List.map_congr_left fun d hd => Device.afterBits_idle (h d hd) bs, List.map_id']

/-- A command without a bus reset leaves idle devices as they are (R55, R58, R65). -/
theorem exec_keeps_idle_bus {i : Instr} {s : State} {ds : List Device} {stuck : Bool} (hreset : i ≠ .reset)
    (hsearch : ¬ IsSearch i) (h : s.wire.env = .bus ⟨ds, stuck⟩) (hidle : ∀ d ∈ ds, d.st = .idle) :
    ∃ t, exec i s = .next t ∧ t.wire.env = s.wire.env := by
  cases hact : activity s.data i with
  | crc =>
    obtain ⟨t, ht⟩ := exec_answers_next i s
    exact ⟨t, ht, by rw [exec_wire_of_crc hact ht, quietWire_env]⟩
  | searchReset =>
    obtain rfl := eq_srst_of_searchReset hact
    exact ⟨_, rfl, rfl⟩
  | send bs =>
    obtain ⟨t, ht, -, -, henv⟩ := exec_send_on_bus hact h
    exact ⟨t, ht, by rw [henv, h, map_afterBits_idle hidle]⟩
  | receive n =>
    obtain ⟨t, ht, -, henv⟩ := exec_receive_on_bus hact h
    exact ⟨t, ht, by rw [henv, h, map_afterBits_idle hidle]⟩
  | busReset => exact absurd (eq_reset_of_busReset hact) hreset
  | pass => exact absurd ((activity_pass_iff _ _).1 hact) hsearch

/-- The devices of a fixture, each idle with an empty log (R55). -/
theorem fixture_getElem {devs : List (DWord × Bool × List Bool)} {stuck : Bool} {k : Nat} {d : Device}
    (h : (Bus.fixture devs stuck).devices[k]? = some d) :
    d.st = .idle ∧ d.log = [] ∧ devs[k]? = some (d.rom, d.alerting, d.resp) := by
  obtain ⟨x, hx, rfl⟩ : ∃ x, devs[k]? = some x ∧ Device.fixture x.1 x.2.1 x.2.2 = d := by
    simpa only [Bus.fixture, List.getElem?_map, Option.map_eq_some_iff] using h
  exact ⟨rfl, rfl, hx⟩

/-- Settles O57: an idle device stays idle in every slot, and drives 1. -/
theorem aFixtureIsIdleUntilTheFirstBusReset : Obligations.AFixtureIsIdleUntilTheFirstBusReset := by
  unfold Obligations.AFixtureIsIdleUntilTheFirstBusReset
  refine fun devs stuck => ⟨rfl, List.length_map _, fun k d hd => fixture_getElem hd, fun s h => ?_⟩
  have hidle : ∀ d ∈ (Bus.fixture devs false).devices, d.st = .idle := fun d hd => by
    obtain ⟨k, hk⟩ := List.mem_iff_getElem?.1 hd
    exact (fixture_getElem hk).1
  refine ⟨fun i hreset hsearch => exec_keeps_idle_bus hreset hsearch h hidle, ?_⟩
  exact exec_receive_ones (i := .r64) (n := 64) rfl h fun d hd k => by
    rw [Device.afterBits_idle (hidle d hd), Device.drive, hidle d hd]

/-! ### The function phase -/

/-- The 8 bits of a function byte go into the log (R63). -/
theorem Device.afterBits_functionByte (d : Device) (b : Byte) :
    Device.afterBits (lsbBits b) { d with st := .func 0 0 } =
      { d with log := d.log ++ lsbBits b, st := .respond } := by
  have hslot : ∀ l n acc m, Device.afterSlot m { d with log := l, st := .func n acc } =
      { d with log := l ++ [m], st := if n + 1 = 8 then .respond else .func (n + 1) (accBit acc n m) } :=
    fun _ _ _ _ => rfl
  rw [lsbBits_byte, Device.afterBits]
  simp [hslot]

/-- The response played back: its bits are used up one by one, and after them the master's bits are logged (R63). -/
theorem Device.afterBits_respond {d : Device} (h : d.st = .respond) (n : Nat) :
    Device.afterBits (List.replicate n true) d =
      { d with resp := d.resp.drop n, log := d.log ++ List.replicate (n - d.resp.length) true } := by
  induction n generalizing d with
  | zero => simp
  | succ n ih =>
    obtain ⟨rom, alerting, resp, log, st⟩ := d
    obtain rfl : st = .respond := h
    rw [List.replicate_succ, Device.afterBits, List.foldl_cons, ← Device.afterBits]
    cases resp with
    | nil => simp [Device.afterSlot, ih, List.replicate_succ]
    | cons b rest => simp [Device.afterSlot, ih]

theorem Device.drive_respond {d : Device} (h : d.st = .respond) : d.drive = d.resp.headD true := by
  simp [Device.drive, h]

/-- Settles O58: the ROM command byte 0xCC, the function byte, and 8 slots of the response. -/
theorem aDeviceLogsAndPlaysBack : Obligations.ADeviceLogsAndPlaysBack := by
  unfold Obligations.ADeviceLogsAndPlaysBack
  intro s d b hp h
  obtain ⟨t, ht, -, henv⟩ := execAll_reset_romCommand (i := .skip) hp h fun _ => rfl
  obtain ⟨u, hu, -, -, henv'⟩ := exec_send_on_bus (i := .w8 b) rfl henv
  have hfunc : Device.afterBits (lsbBits b) { d with st := d.afterRomCommand 0xCC } =
      { d with log := d.log ++ lsbBits b, st := .respond } := Device.afterBits_functionByte d b
  simp only [List.map_cons, List.map_nil, hfunc] at henv'
  obtain ⟨v, hv, hdata, henv''⟩ := exec_receive_on_bus (i := .r8) rfl henv'
  refine ⟨v, ?_, fun k hk => ?_, ?_⟩
  · exact (execAll_append ht [.w8 b, .r8]).trans
      ((execAll_cons hu [.r8]).trans ((execAll_cons hv []).trans (execAll_nil v)))
  · rw [hdata, List.all_cons, List.all_nil, Device.afterBits_respond rfl, Device.drive_respond rfl]
    simp [hk, List.headD_eq_head?_getD]
  · rw [henv'', List.map_cons, List.map_nil, Device.afterBits_respond rfl]

end Sys2Proof.Machine
end

section
/-! PROOFS. A search pass on the reference bus (43_search.md R123 to R128): after each position the devices still in the
search are those that answer and agree with the branches taken so far, and there is always one. Settles O47. -/

namespace Sys2Proof.Machine

/-! ### The devices in a search -/

/-- The device answers, and its address begins with the first `k` bits of `v` in wire order. -/
def follows (ans : Device → Bool) (k : Nat) (v : DWord) (d : Device) : Bool :=
  ans d && decide (∀ j, j < k → d.rom.getLsbD j = v.getLsbD j)

theorem follows_iff {ans : Device → Bool} {k : Nat} {v : DWord} {d : Device} :
    follows ans k v d = true ↔ ans d = true ∧ ∀ j, j < k → d.rom.getLsbD j = v.getLsbD j := by
  simp [follows]

theorem follows_zero (ans : Device → Bool) (v : DWord) (d : Device) : follows ans 0 v d = ans d := by
  simp [follows]

/-- One position further, where the branch `b` is recorded (R126). -/
theorem follows_withBit (ans : Device → Bool) {k : Nat} (hk : k < 64) (v : DWord) (b : Bool) (d : Device) :
    follows ans (k + 1) (withBit v k b) d = (follows ans k v d && d.rom.getLsbD k == b) := by
  rw [Bool.eq_iff_iff, Bool.and_eq_true, beq_iff_eq, follows_iff, follows_iff, and_assoc, and_congr_right_iff]
  refine fun _ => ⟨fun h => ⟨fun j hj => ?_, ?_⟩, fun ⟨h, hb⟩ j hj => ?_⟩
  · rw [h j (by omega), getLsbD_withBit v k j b hk, if_neg (by omega)]
  · rw [h k (by omega), getLsbD_withBit v k k b hk, if_pos rfl]
  · rw [getLsbD_withBit v k j b hk]
    split
    · next heq => rw [heq, hb]
    · exact h j (by omega)

theorem rom_of_follows {ans : Device → Bool} {v : DWord} {d : Device} (h : follows ans 64 v d = true) : d.rom = v :=
  BitVec.eq_of_getLsbD_eq (follows_iff.1 h).2

/-- The bus in a search: devices that follow the first `k` bits of `v` are in the state `st`, the others off (R60). -/
def inSearch (ans : Device → Bool) (k : Nat) (v : DWord) (st : DeviceState) (ds : List Device) : Bus :=
  ⟨ds.map fun d => { d with st := if follows ans k v d then st else .off }, false⟩

/-- Where the devices of a search are before position `k + 1`, and after position 64 (R60). -/
def searchState (k : Nat) : DeviceState := if k = 64 then .func 0 0 else .search k .bit

theorem searchState_of_lt {k : Nat} (hk : k < 64) : searchState k = .search k .bit := if_neg (by omega)

/-- In the read slots of a position the devices go on to the next phase (R60). -/
theorem inSearch_afterRead {ans : Device → Bool} {k : Nat} {v : DWord} {st st' : DeviceState} {ds : List Device}
    (h : ∀ d : Device, Device.afterSlot true { d with st := st } = { d with st := st' }) :
    (inSearch ans k v st ds).afterSlot true = inSearch ans k v st' ds := by
  have hdev : ∀ d : Device, Device.afterSlot true { d with st := if follows ans k v d then st else .off } =
      { d with st := if follows ans k v d then st' else .off } := fun d => by
    cases follows ans k v d
    · rfl
    · exact h d
  simp only [Bus.afterSlot, inSearch, List.map_map, Function.comp_def, hdev]

/-- In the write slot of a position the devices whose bit is the branch stay in the search (R60). -/
theorem inSearch_afterWrite (ans : Device → Bool) {k : Nat} (hk : k < 64) (v : DWord) (b : Bool) (ds : List Device) :
    (inSearch ans k v (.search k .dir) ds).afterSlot b =
      inSearch ans (k + 1) (withBit v k b) (searchState (k + 1)) ds := by
  have hdev : ∀ d : Device,
      Device.afterSlot b { d with st := if follows ans k v d then .search k .dir else .off } =
        { d with st := if follows ans (k + 1) (withBit v k b) d then searchState (k + 1) else .off } := fun d => by
    rw [follows_withBit ans hk]
    cases follows ans k v d with
    | false => rfl
    | true => simp [Device.afterSlot, searchState, eq_comm (a := b)]
  simp only [Bus.afterSlot, inSearch, List.map_map, Function.comp_def, hdev]

/-- What a read slot reads: the AND of what the devices in the search drive (R60, R64). -/
theorem inSearch_answer (ans : Device → Bool) (k : Nat) (v : DWord) (st : DeviceState) (ds : List Device) :
    (inSearch ans k v st ds).answer .slot =
      ds.all fun d => !follows ans k v d || Device.drive { d with st := st } := by
  have hdev : ∀ d : Device, Device.drive { d with st := if follows ans k v d then st else .off } =
      (!follows ans k v d || Device.drive { d with st := st }) := fun d => by
    cases follows ans k v d <;> rfl
  simp only [Bus.answer, inSearch, List.all_map, Function.comp_def, hdev, Bool.not_false, Bool.true_and]

/-! ### One position -/

section Position

variable {ans : Device → Bool} {k : Nat} {s : State} {ds : List Device}

/-- The reads of a position (R124): the AND of the bits of the devices in the search, then of their complements. -/
theorem position_reads (h : s.wire.env = .bus (inSearch ans k s.rom (.search k .bit) ds)) :
    idBit s = (ds.all fun d => !follows ans k s.rom d || d.rom.getLsbD k) ∧
      cmpBit s = (ds.all fun d => !follows ans k s.rom d || !d.rom.getLsbD k) ∧
      (afterReads s).wire.env = .bus (inSearch ans k s.rom (.search k .dir) ds) := by
  have hread : ∀ w b, w.env = Env.bus b → (readSlot s.timing w).2.env = .bus (b.afterSlot true) := fun w b hw => by
    change w.env.after (.read (readSlot s.timing w).1) = _
    rw [hw]
    rfl
  have hcmp : (readSlot s.timing s.wire).2.env = .bus (inSearch ans k s.rom (.search k .cmp) ds) := by
    rw [hread _ _ h, inSearch_afterRead fun _ => rfl]
  refine ⟨?_, ?_, ?_⟩
  · rw [idBit, readSlot_fst, h]
    exact inSearch_answer ..
  · rw [cmpBit, readSlot_fst, hcmp]
    exact inSearch_answer ..
  · change (readSlot s.timing (readSlot s.timing s.wire).2).2.env = _
    rw [hread _ _ hcmp, inSearch_afterRead fun _ => rfl]

/-- A position records the branch it writes (R126). -/
theorem afterPosition_rom (k : Nat) (s : State) : (afterPosition (k + 1) s).rom =
    withBit s.rom k (branchAt (k + 1) (idBit s) (cmpBit s) (afterReads s)) := rfl

/-- After the position the devices that follow the recorded branch too are in the search. -/
theorem position_env (hk : k < 64) (h : s.wire.env = .bus (inSearch ans k s.rom (.search k .bit) ds)) :
    (afterPosition (k + 1) s).wire.env =
      .bus (inSearch ans (k + 1) (afterPosition (k + 1) s).rom (searchState (k + 1)) ds) := by
  obtain ⟨-, -, henv⟩ := position_reads h
  rw [afterPosition_rom, ← inSearch_afterWrite ans hk]
  change (afterReads s).wire.env.after (.write _) = _
  rw [henv]
  rfl

/-- Some device in the search has each bit that a position leaves open, and not both reads are 1 (R60, R124). -/
theorem position_bits (h : s.wire.env = .bus (inSearch ans k s.rom (.search k .bit) ds))
    (hone : ∃ d ∈ ds, follows ans k s.rom d = true) :
    (idBit s && cmpBit s) = false ∧ ∀ b, (idBit s ≠ cmpBit s → b = idBit s) →
      ∃ d ∈ ds, follows ans k s.rom d = true ∧ d.rom.getLsbD k = b := by
  obtain ⟨hid, hcmp, -⟩ := position_reads h
  obtain ⟨d, hd, hfol⟩ := hone
  have hid1 : idBit s = true → d.rom.getLsbD k = true := fun hb => by
    simpa [hfol] using List.all_eq_true.1 (hid.symm.trans hb) d hd
  have hcmp1 : cmpBit s = true → d.rom.getLsbD k = false := fun hb => by
    simpa [hfol] using List.all_eq_true.1 (hcmp.symm.trans hb) d hd
  cases hi : idBit s <;> cases hc : cmpBit s
  case true.true => cases (hid1 hi).symm.trans (hcmp1 hc)
  case true.false => exact ⟨rfl, fun b hb => ⟨d, hd, hfol, (hid1 hi).trans (hb (by simp)).symm⟩⟩
  case false.true => exact ⟨rfl, fun b hb => ⟨d, hd, hfol, (hcmp1 hc).trans (hb (by simp)).symm⟩⟩
  case false.false =>
    rw [hid] at hi
    rw [hcmp] at hc
    refine ⟨rfl, fun b _ => ?_⟩
    cases b
    · simpa using hi
    · simpa using hc

/-- Where a device is in the search, a position has a response, and a device stays (R124, R125). -/
theorem position_keeps_one (hk : k < 64) (h : s.wire.env = .bus (inSearch ans k s.rom (.search k .bit) ds))
    (hone : ∃ d ∈ ds, follows ans k s.rom d = true) :
    (idBit s && cmpBit s) = false ∧ ∃ d ∈ ds, follows ans (k + 1) (afterPosition (k + 1) s).rom d = true := by
  obtain ⟨hresponse, hbits⟩ := position_bits h hone
  obtain ⟨d, hd, hfol, hbit⟩ := hbits (branchAt (k + 1) (idBit s) (cmpBit s) (afterReads s))
    fun hne => by simp [branchAt, hne]
  refine ⟨hresponse, d, hd, ?_⟩
  rw [afterPosition_rom, follows_withBit ans hk, hfol, hbit]
  simp

/-- The bit loop from position `k + 1` on: every position has a response, and at the end a device follows ROM. -/
theorem searchBits_on_bus (n : Nat) (hn : k + n = 64)
    (h : s.wire.env = .bus (inSearch ans k s.rom (searchState k) ds))
    (hone : ∃ d ∈ ds, follows ans k s.rom d = true) :
    (searchBits n (k + 1) s).1 = true ∧ ∃ d ∈ ds, follows ans 64 (searchBits n (k + 1) s).2.rom d = true := by
  induction n generalizing k s with
  | zero =>
    obtain rfl : k = 64 := hn
    exact ⟨rfl, hone⟩
  | succ n ih =>
    have hk : k < 64 := by omega
    rw [searchState_of_lt hk] at h
    obtain ⟨hresponse, hnext⟩ := position_keeps_one hk h hone
    rw [searchBits_succ, hresponse]
    exact ih (by omega) (position_env hk h) hnext

end Position

/-! ### A pass -/

/-- Steps 4 and 5 find a candidate whose family byte is not zero (R127, R128). -/
theorem afterBits_of_found {r : Bool × State} (h : r.1 = true) (hf : familyByte r.2.rom ≠ 0) :
    (afterBits r).found = true ∧ (afterBits r).rom = r.2.rom := by
  have hrom : (completePass r.2).rom = r.2.rom := rfl
  rw [afterBits, if_pos h, validateCandidate, hrom, if_neg hf]
  exact ⟨rfl, rfl⟩

/-- A pass on a bus where a device answers its ROM command byte finds the address of one that does, where all of them
have a non-zero family byte. -/
theorem searchPass_finds {ans : Device → Bool} {c : Byte} {s : State} {ds : List Device} (hp : s.timing.Valid)
    (hdev : s.lastDev = false) (h : s.wire.env = .bus ⟨ds, false⟩)
    (hcmd : ∀ d : Device, d.afterRomCommand c = if ans d then .search 0 .bit else .off)
    (hone : ∃ d ∈ ds, ans d = true) (hf : ∀ d ∈ ds, ans d = true → familyByte d.rom ≠ 0) :
    ∃ d ∈ ds, ans d = true ∧ ∃ z w, searchPass c s = foundState d.rom z w s := by
  obtain ⟨-, -, -, -, -, -, -, hpolls⟩ := hp
  obtain ⟨ho, -, henv⟩ := busReset_of_bus hpolls h
  have hne : ds ≠ [] := by
    rintro rfl
    simp at hone
  rw [if_neg hne] at ho
  have hstart : (bitsStart c (afterBusReset s)).wire.env = .bus (inSearch ans 0 s.rom (searchState 0) ds) := by
    change (writeByte s.timing c (busReset s.timing s.wire).2).env = _
    obtain ⟨-, -, -, hbyte, -⟩ := writeBits_moves_of_pos (p := s.timing) (bs := lsbBits c) (by simp [lsbBits_length])
      (busReset s.timing s.wire).2
    rw [writeByte, hbyte, henv, afterAll_writeEvents, afterPulse, List.map_map]
    simp only [Function.comp_def, Device.afterBits_romCommand, hcmd, inSearch, follows_zero]
    rfl
  obtain ⟨hall, d, hd, hfol⟩ := searchBits_on_bus 64 rfl hstart (by simpa only [follows_zero] using hone)
  have hans := (follows_iff.1 hfol).1
  have hrom := rom_of_follows hfol
  obtain ⟨hfound, hrom'⟩ : (searchPass c s).found = true ∧ (searchPass c s).rom = d.rom := by
    rw [searchPass_of_present c hdev ho, searchRest_eq, hrom]
    exact afterBits_of_found hall (hrom ▸ hf d hd hans)
  refine ⟨d, hd, hans, ?_⟩
  obtain ⟨z, w, -, -, -, -, ⟨code, presence, heq⟩ | ⟨a, -, heq⟩⟩ := searchPass_cases c s
  · rw [heq] at hfound
    cases hfound
  · obtain rfl : a = d.rom := by
      rw [← hrom', heq]
      rfl
    exact ⟨z, w, heq⟩

/-- Settles O47: the devices that answer a search command take its ROM command byte. -/
theorem searchFindsAnAnsweringDevice : Obligations.SearchFindsAnAnsweringDevice := by
  unfold Obligations.SearchFindsAnAnsweringDevice
  intro i s ds hi hp hdev h hne hf
  have hcmd : ∀ d : Device, d.afterRomCommand (searchByte i) = if answers i d then .search 0 .bit else .off := by
    rcases hi with rfl | rfl | rfl <;> exact fun d => rfl
  obtain ⟨d, hd, hans⟩ : ∃ d ∈ ds, answers i d = true := by simpa [answering] using hne
  have hf' : ∀ d ∈ ds, answers i d = true → familyByte d.rom ≠ 0 := fun d hd hans =>
    hf _ (List.mem_map_of_mem (List.mem_filter.2 ⟨hd, hans⟩))
  obtain ⟨d, hd, hans, z, w, heq⟩ := searchPass_finds (s := { passStart i s with sstate := .searching })
    (by simpa using hp) hdev (by simpa using h) hcmd ⟨d, hd, hans⟩ hf'
  refine ⟨d.rom, z, w, List.mem_map_of_mem (List.mem_filter.2 ⟨hd, hans⟩), ?_⟩
  rw [exec_of_isSearch hi, heq]
  unfold passStart
  split <;> rfl

end Sys2Proof.Machine
end

section
/-! PROOFS. The command word (30_encoding.md): a word is the number its fields make, the legal words told on the fields
(R72, R73), the decoder and the encoder as inverses of each other, the assembler (R81), what an illegal word does
(60_exceptions.md R137), and the wire ROM command bytes (R79). Settles O1 to O5 and O32. -/

namespace Sys2Proof.Machine

/-! ### The fields of a word as numbers -/

theorem toNat_opField (w : Word) : (opField w).toNat = w.toNat % 32 := by
  simp [opField]

theorem toNat_f0Field (w : Word) : (f0Field w).toNat = w.toNat / 32 % 2 := Nat.toNat_testBit w.toNat 5

theorem toNat_reservedField (w : Word) : (reservedField w).toNat = w.toNat / 64 % 4 := by
  simp [reservedField, Nat.shiftRight_eq_div_pow]

theorem reservedField_eq_zero_iff (w : Word) : reservedField w = 0 ↔ w.toNat / 64 % 4 = 0 := by
  rw [← toNat_reservedField, ← BitVec.toNat_inj]
  rfl

theorem toNat_imm8Field (w : Word) : (imm8Field w).toNat = w.toNat / 256 % 256 := by
  simp [imm8Field, Nat.shiftRight_eq_div_pow]

theorem toNat_imm16Field (w : Word) : (imm16Field w).toNat = w.toNat / 65536 := by
  have hw := w.isLt
  simp only [imm16Field, BitVec.extractLsb'_toNat, Nat.shiftRight_eq_div_pow]
  omega

/-- A word is the number its five fields make (R71). -/
theorem toNat_eq_fields (w : Word) : w.toNat = (opField w).toNat + 32 * (f0Field w).toNat +
    64 * (reservedField w).toNat + 256 * (imm8Field w).toNat + 65536 * (imm16Field w).toNat := by
  rw [toNat_opField, toNat_f0Field, toNat_reservedField, toNat_imm8Field, toNat_imm16Field]
  omega

theorem toNat_commandWord (imm16 : Half) (imm8 : Byte) (f0 : Bool) (op : BitVec 5) :
    (commandWord imm16 imm8 f0 op).toNat =
      op.toNat + 32 * f0.toNat + 256 * imm8.toNat + 65536 * imm16.toNat := by
  simp [toNat_eq_fields (commandWord imm16 imm8 f0 op), opField_commandWord, f0Field_commandWord,
    reservedField_commandWord, imm8Field_commandWord, imm16Field_commandWord]

/-- A word with its reserved bits 0 is the command word of its fields (R71). -/
theorem commandWord_fields {w : Word} (h : reservedField w = 0) :
    commandWord (imm16Field w) (imm8Field w) (f0Field w) (opField w) = w := by
  apply BitVec.eq_of_toNat_eq
  rw [toNat_commandWord, toNat_eq_fields w, h]
  simp

/-! ### Legal words -/

/-- The fields of a legal word, its reserved bits apart: none of the cases (a), (c) and (d) of R73. -/
def LegalFields (op : BitVec 5) (f0 : Bool) (imm8 : Byte) (imm16 : Half) : Prop :=
  assignedOp op = true ∧ (usesF0 op = false → f0 = false) ∧ (usesImm8 op = false → imm8 = 0) ∧
    (usesImm16 op = false → imm16 = 0) ∧ (op = 0x1A → f0 = true → imm16 = 0)

/-- The legality check finds no case of R73 exactly where the reserved bits are 0 and the other fields legal. -/
theorem illegalCase_eq_none_iff (w : Word) : illegalCase w = none ↔
    reservedField w = 0 ∧ LegalFields (opField w) (f0Field w) (imm8Field w) (imm16Field w) := by
  unfold illegalCase
  constructor
  · intro h
    split_ifs at h with hop hres hunused hseed
    simp only [Bool.or_eq_true, Bool.and_eq_true, Bool.not_eq_true', bne_iff_ne, not_or, not_and, not_not,
      Bool.not_eq_true, Bool.not_eq_false, beq_iff_eq] at hop hres hunused hseed
    obtain ⟨⟨hf0, himm8⟩, himm16⟩ := hunused
    exact ⟨hres, hop, hf0, himm8, himm16, fun ho hf => hseed ⟨ho, hf⟩⟩
  · rintro ⟨hres, hop, hf0, himm8, himm16, hseed⟩
    rw [if_neg (by simp [hop]), if_neg (by simp [hres]), if_neg (by simpa using ⟨⟨hf0, himm8⟩, himm16⟩),
      if_neg (by simpa using hseed)]

/-- An assigned OP stands for a command, whatever its operands (R72). -/
theorem commandOf_of_assigned {op : BitVec 5} (h : assignedOp op = true) (f0 : Bool) (imm8 : Byte) (imm16 : Half) :
    ∃ i, commandOf op f0 imm8 imm16 = some i := by
  unfold commandOf
  split
  case h_20 =>
    simp only [assignedOp, Bool.or_eq_true, Bool.and_eq_true, decide_eq_true_eq] at h
    simp only [imp_false] at *
    omega
  all_goals exact ⟨_, rfl⟩

/-- The decoder answers an instruction exactly for a legal word, the one its fields stand for. -/
theorem decodeWord_eq_ok_iff (w : Word) (i : Instr) : decodeWord w = .ok i ↔
    (reservedField w = 0 ∧ LegalFields (opField w) (f0Field w) (imm8Field w) (imm16Field w)) ∧
      commandOf (opField w) (f0Field w) (imm8Field w) (imm16Field w) = some i := by
  rw [← illegalCase_eq_none_iff]
  unfold decodeWord
  cases illegalCase w with
  | some r => simp
  | none => cases commandOf (opField w) (f0Field w) (imm8Field w) (imm16Field w) <;> simp

/-- The decoder refuses exactly the words that are not legal. -/
theorem decodeWord_error_iff (w : Word) : (∃ r, decodeWord w = .error r) ↔
    ¬ (reservedField w = 0 ∧ LegalFields (opField w) (f0Field w) (imm8Field w) (imm16Field w)) := by
  constructor
  · rintro ⟨r, hr⟩ ⟨hres, hlegal⟩
    obtain ⟨i, hi⟩ := commandOf_of_assigned hlegal.1 (f0Field w) (imm8Field w) (imm16Field w)
    simp [(decodeWord_eq_ok_iff w i).2 ⟨⟨hres, hlegal⟩, hi⟩] at hr
  · intro hillegal
    cases hdec : decodeWord w with
    | error r => exact ⟨r, rfl⟩
    | ok i => exact absurd ((decodeWord_eq_ok_iff w i).1 hdec).1 hillegal

/-! ### The decoder and the encoder -/

theorem decodeWord_commandWord {op : BitVec 5} {f0 : Bool} {imm8 : Byte} {imm16 : Half} {i : Instr}
    (hlegal : LegalFields op f0 imm8 imm16) (hi : commandOf op f0 imm8 imm16 = some i) :
    decodeWord (commandWord imm16 imm8 f0 op) = .ok i := by
  rw [decodeWord_eq_ok_iff, opField_commandWord, f0Field_commandWord, reservedField_commandWord,
    imm8Field_commandWord, imm16Field_commandWord]
  exact ⟨⟨rfl, hlegal⟩, hi⟩

/-- The decoder inverts the encoder on the command forms (R72, R80). -/
theorem decodeWord_encode {i : Instr} (h : i.WellFormed) : decodeWord (encode i) = .ok i := by
  cases i
  case romSearch | romAlarmSearch | romMatch | romSkip | romRead => cases h
  all_goals
    refine decodeWord_commandWord ?_ rfl
    simp [LegalFields, assignedOp, usesF0, usesImm8, usesImm16]

/-- The command that legal fields stand for is encoded with these fields: no operand is lost, and a field the command
does not use is 0 (R72, R73). -/
theorem encode_of_commandOf {op : BitVec 5} {f0 : Bool} {imm8 : Byte} {imm16 : Half} {i : Instr}
    (hlegal : LegalFields op f0 imm8 imm16) (hi : commandOf op f0 imm8 imm16 = some i) :
    i.WellFormed ∧ encode i = commandWord imm16 imm8 f0 op := by
  obtain ⟨-, hf0, himm8, himm16, hseed⟩ := hlegal
  unfold commandOf at hi
  split at hi
  case h_20 => cases hi
  all_goals -- one assigned OP each: it decides which fields are used, `hlegal` makes the others 0
    next hop =>
    obtain rfl : op = _ := (by simp : BitVec.ofNat 5 op.toNat = op).symm.trans (congrArg (BitVec.ofNat 5) hop)
    cases f0 <;> cases hi <;>
      simp_all [Instr.WellFormed, Instr.isCommand, encode, usesF0, usesImm8, usesImm16]

/-- Settles O2, the word being the command word of its fields. -/
theorem encodeOfDecodeIsTheWord : Obligations.EncodeOfDecodeIsTheWord := by
  unfold Obligations.EncodeOfDecodeIsTheWord
  intro w i hdec
  obtain ⟨⟨hres, hlegal⟩, hi⟩ := (decodeWord_eq_ok_iff w i).1 hdec
  obtain ⟨hcmd, henc⟩ := encode_of_commandOf hlegal hi
  exact ⟨hcmd, henc.trans (commandWord_fields hres)⟩

theorem decodeTableWord_word (w : Word) : decodeTableWord 32 w.toNat = (decodeWord w).toOption := by
  rw [decodeTableWord, if_neg (by decide), if_pos rfl, if_pos w.isLt, BitVec.ofNat_toNat, BitVec.setWidth_eq]

/-- Settles O1: a command form is decoded as a word, a ROM command byte as one of the five bytes of R78. -/
theorem decodeOfEncodeIsTheInstruction : Obligations.DecodeOfEncodeIsTheInstruction := by
  unfold Obligations.DecodeOfEncodeIsTheInstruction
  intro i
  by_cases hcmd : i.WellFormed
  · rw [encodedBits, if_pos hcmd, decodeTableWord_word, decodeWord_encode hcmd, Except.toOption]
  · cases i
    case romSearch | romAlarmSearch | romMatch | romSkip | romRead => rfl
    all_goals exact absurd rfl hcmd

/-- Settles O4, each command's word being its encoding. -/
theorem sampleWordsDecode : Obligations.SampleWordsDecode := by
  unfold Obligations.SampleWordsDecode
  have hword {w : Word} {i : Instr} (hcmd : i.WellFormed) (henc : encode i = w) : decodeWord w = .ok i :=
    henc ▸ decodeWord_encode hcmd
  refine ⟨hword rfl rfl, hword rfl rfl, hword rfl rfl, hword rfl rfl, hword rfl rfl, hword rfl rfl, hword rfl rfl,
    hword rfl rfl, hword rfl rfl, hword rfl rfl, hword rfl rfl, hword rfl rfl, hword rfl rfl, hword rfl rfl,
    hword rfl rfl, hword rfl rfl, hword rfl rfl, hword rfl rfl, hword rfl rfl, hword rfl rfl, hword rfl rfl,
    hword rfl rfl, hword rfl rfl, rfl, rfl, rfl, rfl, rfl, by decide, by decide⟩

/-! ### The assembler -/

/-- A line names a command form, never a wire ROM command byte (R81). -/
theorem wellFormed_asmInstr (name : Mnemonic) (v : Nat) : (asmInstr name v).WellFormed := by
  cases name <;> rfl

theorem assemble_of_wellFormed {l : AsmLine} (h : l.wellFormed = true) :
    assemble l = some (encode (asmInstr l.name (l.imm.getD 0))) := if_pos h

/-- The word with a byte operand is its OP with the byte shifted by 8 (R81). -/
theorem commandWord_imm8 {b : Nat} (hb : b ≤ 0xFF) (op : BitVec 5) :
    commandWord 0 (BitVec.ofNat 8 b) false op = BitVec.ofNat 32 (op.toNat + b * 256) := by
  apply BitVec.eq_of_toNat_eq
  have hop := op.isLt
  rw [toNat_commandWord]
  simp
  omega

/-- The word with a 16-bit operand is its OP with the operand shifted by 16 (R81). -/
theorem commandWord_imm16 (x : Nat) (op : BitVec 5) :
    commandWord (BitVec.ofNat 16 x) 0 false op = BitVec.ofNat 32 (op.toNat + x * 65536) := by
  apply BitVec.eq_of_toNat_eq
  have hop := op.isLt
  rw [toNat_commandWord]
  simp
  omega

/-- A line with a byte operand that fits (R81). -/
theorem assemble_imm8 {name : Mnemonic} {b : Nat} {op : BitVec 5} (hmax : name.immMax = some 0xFF) (hb : b ≤ 0xFF)
    (henc : encode (asmInstr name b) = commandWord 0 (BitVec.ofNat 8 b) false op) :
    assemble ⟨name, some b⟩ = some (BitVec.ofNat 32 (op.toNat + b * 256)) := by
  have hwf : AsmLine.wellFormed ⟨name, some b⟩ = true := by simp [AsmLine.wellFormed, hmax, hb]
  exact (assemble_of_wellFormed hwf).trans (congrArg some (henc.trans (commandWord_imm8 hb op)))

/-- Settles O5: an accepted line names a command form, and the decoder inverts the encoder on those. -/
theorem assemblerGivesTheWordOfTheLine : Obligations.AssemblerGivesTheWordOfTheLine := by
  unfold Obligations.AssemblerGivesTheWordOfTheLine
  refine ⟨fun l h => if_neg (by simp [h]), fun l h => ⟨_, assemble_of_wellFormed h,
    decodeWord_encode (wellFormed_asmInstr _ _)⟩, fun b hb => ⟨assemble_imm8 (op := 0x04) rfl hb rfl,
    assemble_imm8 (op := 0x19) rfl hb rfl, assemble_imm8 (op := 0x1B) rfl hb rfl⟩, fun x hx => ?_⟩
  have hwf : AsmLine.wellFormed ⟨.C16I, some x⟩ = true := decide_eq_true hx
  exact (assemble_of_wellFormed hwf).trans (congrArg some (commandWord_imm16 x 0x1A))

/-! ### Illegal words -/

/-- The legal fields told as numbers (R72, R73). -/
theorem legalFields_iff_toNat (op : BitVec 5) (f0 : Bool) (imm8 : Byte) (imm16 : Half) : LegalFields op f0 imm8 imm16 ↔
    ((1 ≤ op.toNat ∧ op.toNat ≤ 9) ∨ (0x10 ≤ op.toNat ∧ op.toNat ≤ 0x12) ∨ (0x18 ≤ op.toNat ∧ op.toNat ≤ 0x1E)) ∧
      (op.toNat ≠ 0x02 ∧ op.toNat ≠ 0x11 ∧ op.toNat ≠ 0x1A ∧ op.toNat ≠ 0x1C → f0.toNat = 0) ∧
      (op.toNat ≠ 0x04 ∧ op.toNat ≠ 0x19 ∧ op.toNat ≠ 0x1B → imm8.toNat = 0) ∧
      (op.toNat ≠ 0x1A → imm16.toNat = 0) ∧ (op.toNat = 0x1A → f0.toNat = 1 → imm16.toNat = 0) := by
  simp [LegalFields, assignedOp, usesF0, usesImm8, usesImm16, ← BitVec.toNat_inj, and_assoc, or_assoc]

/-- An illegal word completes as R137 says: the result code and the flag, and the line is left quiet. -/
theorem complete_of_illegal {s : State} {r : Illegal} (h : decodeWord s.cmdLatch = .error r) :
    complete s = .next { completed .illegal (quietWire s) s with errIllegal := true } := by
  obtain ⟨i, -, hok, -⟩ | ⟨-, -, hcomplete⟩ := complete_cases s
  · cases h.symm.trans hok
  · exact hcomplete

/-- Settles O3, a word being illegal where its fields are not legal. -/
theorem illegalWordsAndTheirEffect : Obligations.IllegalWordsAndTheirEffect := by
  unfold Obligations.IllegalWordsAndTheirEffect
  refine ⟨fun w => ?_, fun s r h => complete_of_illegal h⟩
  have hop := (opField w).isLt
  have hf0 := (f0Field w).toNat_le
  rw [decodeWord_error_iff, legalFields_iff_toNat, reservedField_eq_zero_iff]
  simp only [← toNat_opField, ← toNat_f0Field, ← toNat_imm8Field, ← toNat_imm16Field]
  generalize (opField w).toNat = op at hop ⊢
  generalize (f0Field w).toNat = f0 at hf0 ⊢
  omega

/-! ### The wire ROM command bytes -/

/-- Settles O32, from the bits of each row's activity. -/
theorem romCommandBytesOnTheWire : Obligations.RomCommandBytesOnTheWire := by
  unfold Obligations.RomCommandBytesOnTheWire
  exact fun s => ⟨sends_of_activity (i := .romSearch) rfl, sends_of_activity (i := .romAlarmSearch) rfl,
    sends_of_activity (i := .romMatch) rfl, sends_of_activity (i := .romSkip) rfl,
    sends_of_activity (i := .romRead) rfl⟩

end Sys2Proof.Machine
end

section
/-! PROOFS. The transport commands (40_transport.md R84 to R94): the slots and the reset pulse as waveforms, `WBIT` and
`RBIT` as one slot each, `RESET` as the bus reset that the answers of the line decide, and the idle block. Settles O22,
O24 to O27, O29 and O30. -/

namespace Sys2Proof.Machine

/-! ### The slots and the reset pulse -/

/-- A slot takes `T_SLOT + T_REC` (R86). -/
theorem wireTime_slot {p : Timing} {ev : WireEvent} (h : eventTime p ev = p.slotTime) (t : Nat) :
    t + wireTime p [ev] = t + p.tSlot + p.tRec := by
  simp [wireTime, h, Timing.slotTime, Nat.add_assoc]

/-- Settles O29, each slot by its moves and its marks. -/
theorem slotWaveforms : Obligations.SlotWaveforms := by
  unfold Obligations.SlotWaveforms
  refine ⟨nominal_valid, fun p hp w => ⟨fun b => ?_, readSlot_fst p w, ?_⟩⟩
  · obtain ⟨hlow, htrace, -, -, hnow⟩ := writeSlot_moves p b w
    exact ⟨(hnow hp).trans (wireTime_slot rfl _), hlow, htrace, writeSlot_wave p b w⟩
  · obtain ⟨hlow, htrace, -, -, hnow⟩ := readSlot_moves p w
    have hwave := readSlot_wave hp w
    rw [readSlot_fst] at htrace hwave
    exact ⟨(hnow hp).trans (wireTime_slot rfl _), hlow, htrace, hwave⟩

/-- The pulse, the presence sample and the recovery take their times one after the other, whatever the parameters (R88). -/
theorem resetPulse_now (p : Timing) (w : Wire) : (resetPulse p w).2.now = w.now + p.tRstl + p.tPds + p.tRstrec := by
  simp [resetPulse]

/-- Settles O30, by the moves and the marks of the pulse. -/
theorem resetPulseWaveform : Obligations.ResetPulseWaveform := by
  unfold Obligations.ResetPulseWaveform
  intro p w
  obtain ⟨hlow, htrace, -⟩ := resetPulse_moves p w
  have hwave := resetPulse_wave p w
  rw [resetPulse_fst] at htrace hwave
  rw [← Nat.add_assoc] at hwave
  exact ⟨resetPulse_fst p w, hlow, resetPulse_now p w, htrace, hwave⟩

/-! ### `WBIT` and `RBIT` -/

/-- Settles O24: the one slot of the command, settled. -/
theorem wbitWritesOneBit : Obligations.WbitWritesOneBit := by
  unfold Obligations.WbitWritesOneBit
  refine ⟨decodeWord_encode (i := .wbit false) rfl, decodeWord_encode (i := .wbit true) rfl, fun b s => ?_⟩
  exact ⟨_, exec_of_send (bs := [b]) rfl, (writeSlot_moves s.timing b s.wire).settle, writeSlot_wave s.timing b s.wire⟩

theorem dataOfBits_singleton (v : Bool) : dataOfBits [v] = if v then 1 else 0 := by
  cases v <;> rfl

/-- Settles O25: the one slot of the command, settled, and its one bit in `DATA`. -/
theorem rbitReadsOneBit : Obligations.RbitReadsOneBit := by
  unfold Obligations.RbitReadsOneBit
  refine ⟨decodeWord_encode (i := .rbit) rfl, fun s => ?_⟩
  refine ⟨(readSlot s.timing s.wire).2.settle s.seq.reading, (readSlot s.timing s.wire).1, ?_, readSlot_fst _ _,
    (readSlot_moves s.timing s.wire).settle, fun hp => readSlot_wave hp s.wire⟩
  rw [exec_of_receive (i := .rbit) (n := 1) rfl, readCommand_eq, ← dataOfBits_singleton]
  rfl

/-! ### `RESET` by the outcome of its bus reset -/

theorem exec_reset_of_stuck {s : State} (h : (busReset s.timing s.wire).1 = .stuck) :
    exec .reset s = .next { completed .busStuck ((busReset s.timing s.wire).2.settle s.seq.reading) s with
      presence := false } := by
  rw [exec_reset_eq, h]
  rfl

/-- A presence sample of 0 means present (R89, R90). -/
theorem exec_reset_of_presence {s : State} {v : Bool}
    (h : (busReset s.timing s.wire).1 = if v then .absent else .present) :
    exec .reset s = .next { completed (if v then .noPresence else .ok)
      ((busReset s.timing s.wire).2.settle s.seq.reading) s with presence := !v } := by
  rw [exec_reset_eq, h]
  cases v <;> rfl

/-- Settles O26, from the two outcomes of a bus reset. -/
theorem resetDetectsPresence : Obligations.ResetDetectsPresence := by
  unfold Obligations.ResetDetectsPresence
  refine ⟨decodeWord_encode (i := .reset) rfl, fun s => ⟨(busReset s.timing s.wire).2.settle s.seq.reading, ?_⟩⟩
  rcases busReset_cases s.timing s.wire with ⟨ho, hm⟩ | ⟨k, v, hk, ho, hm⟩
  · exact .inl ⟨exec_reset_of_stuck ho, hm.settle⟩
  · exact .inr ⟨k, v, hk, exec_reset_of_presence ho, hm.settle⟩

/-! ### The answers of the line decide the bus reset -/

/-- The environment after `k` polls that read 0. -/
def Env.afterZeros (k : Nat) (e : Env) : Env := e.afterAll (List.replicate k (.poll false))

/-- Within a run of polls that read 0 the environment answers 0 at each. -/
theorem answer_poll_of_zeros {e : Env} {k m : Nat} (hk : k < m)
    (h : AnsweredBy e (List.replicate m (.poll false))) : (e.afterZeros k).answer .poll = false := by
  obtain ⟨n, rfl⟩ : ∃ n, m = k + (n + 1) := ⟨m - k - 1, by omega⟩
  rw [List.replicate_add, answeredBy_append, List.replicate_succ] at h
  obtain ⟨-, hzero, -⟩ := h
  exact hzero

/-- A bus reset's samples: `k` zeros, a one, and the presence sample (R87, R88). -/
theorem answeredBy_resetEvents_iff {e : Env} {k : Nat} {v : Bool} : AnsweredBy e (resetEvents k v) ↔
    AnsweredBy e (List.replicate k (.poll false)) ∧ (e.afterZeros k).answer .poll = true ∧
      ((e.afterZeros k).after (.poll true)).answer .presence = v := by
  simp [resetEvents, answeredBy_append, AnsweredBy, Env.afterZeros]

/-- The first one ends the wait, so it stands at one place, and one presence sample follows it. -/
theorem resetEvents_unique {e : Env} {k k' : Nat} {v v' : Bool} (h : AnsweredBy e (resetEvents k v))
    (h' : AnsweredBy e (resetEvents k' v')) : k = k' ∧ v = v' := by
  obtain ⟨hzeros, hone, hv⟩ := answeredBy_resetEvents_iff.1 h
  obtain ⟨hzeros', hone', hv'⟩ := answeredBy_resetEvents_iff.1 h'
  rcases Nat.lt_trichotomy k k' with hlt | rfl | hlt
  · simp [answer_poll_of_zeros hlt hzeros'] at hone
  · exact ⟨rfl, hv.symm.trans hv'⟩
  · simp [answer_poll_of_zeros hlt hzeros] at hone'

/-- A one within the budget of polls is no stuck line (R87). -/
theorem not_stuckEvents_of_resetEvents {p : Timing} {e : Env} {k : Nat} {v : Bool} (hk : k < p.nIdlePolls)
    (h : AnsweredBy e (resetEvents k v)) : ¬ AnsweredBy e (stuckEvents p) := by
  intro hstuck
  obtain ⟨-, hone, -⟩ := answeredBy_resetEvents_iff.1 h
  simp [answer_poll_of_zeros hk hstuck] at hone

/-- Where the line answers the samples of a whole bus reset, the bus reset makes these events (R87, R88). -/
theorem busReset_of_resetEvents {p : Timing} {w : Wire} {k : Nat} {v : Bool} (hk : k < p.nIdlePolls)
    (h : AnsweredBy w.env (resetEvents k v)) :
    (busReset p w).1 = (if v then .absent else .present) ∧ Moves p w (resetEvents k v) (busReset p w).2 := by
  rcases busReset_cases p w with ⟨-, -, -, hans, -⟩ | ⟨k', v', -, ho, hm⟩
  · exact absurd hans (not_stuckEvents_of_resetEvents hk h)
  · obtain ⟨-, -, hans, -⟩ := id hm
    obtain ⟨rfl, rfl⟩ := resetEvents_unique h hans
    exact ⟨ho, hm⟩

/-- Where the line answers 0 to the whole budget of polls, the bus reset is stuck (R87). -/
theorem busReset_of_stuckEvents {p : Timing} {w : Wire} (h : AnsweredBy w.env (stuckEvents p)) :
    (busReset p w).1 = .stuck ∧ Moves p w (stuckEvents p) (busReset p w).2 := by
  rcases busReset_cases p w with hstuck | ⟨k, v, hk, -, -, -, hans, -⟩
  · exact hstuck
  · exact absurd h (not_stuckEvents_of_resetEvents hk hans)

/-! ### `RESET` on given draws -/

/-- Zeros on the tape are what that many polls read (R9, R87). -/
theorem zeros_on_tape (k : Nat) (tape : List Bool) (n : Nat) :
    AnsweredBy (.draws (List.replicate k false ++ tape) n) (List.replicate k (.poll false)) ∧
      (Env.draws (List.replicate k false ++ tape) n).afterZeros k = .draws tape (n + k) := by
  induction k generalizing n with
  | zero => exact ⟨trivial, rfl⟩
  | succ k ih =>
    obtain ⟨hans, henv⟩ := ih (n + 1)
    exact ⟨⟨rfl, hans⟩, henv.trans (by rw [Nat.add_assoc, Nat.add_comm 1 k])⟩

/-- A whole bus reset on the tape: its samples, and the two draws after the zeros (R9, R87, R88). -/
theorem resetEvents_on_tape (k : Nat) (v : Bool) (tape : List Bool) (n : Nat) :
    AnsweredBy (.draws (List.replicate k false ++ true :: v :: tape) n) (resetEvents k v) ∧
      (Env.draws (List.replicate k false ++ true :: v :: tape) n).afterAll (resetEvents k v) =
        .draws tape (n + k + 2) := by
  obtain ⟨hans, henv⟩ := zeros_on_tape k (true :: v :: tape) n
  refine ⟨answeredBy_resetEvents_iff.2 ⟨hans, by rw [henv]; rfl, by rw [henv]; rfl⟩, ?_⟩
  rw [Env.afterZeros] at henv
  rw [resetEvents, Env.afterAll_append, henv]
  rfl

/-- Settles O27: the draws are the samples of one bus reset, which the line's answers decide. -/
theorem resetOnDraws : Obligations.ResetOnDraws := by
  unfold Obligations.ResetOnDraws
  constructor
  · intro s k v tape n hk henv
    obtain ⟨hans, hdrawn⟩ := resetEvents_on_tape k v tape n
    rw [← henv] at hans hdrawn
    obtain ⟨ho, -, htrace, -, hmoved, -⟩ := busReset_of_resetEvents hk hans
    exact ⟨_, exec_reset_of_presence ho, htrace, hmoved.trans hdrawn⟩
  · intro s tape n henv
    obtain ⟨hans, hdrawn⟩ := zeros_on_tape s.timing.nIdlePolls tape n
    rw [← henv] at hans hdrawn
    obtain ⟨ho, -, htrace, -, hmoved, -⟩ := busReset_of_stuckEvents hans
    exact ⟨_, exec_reset_of_stuck ho, htrace, hmoved.trans hdrawn⟩

/-! ### The idle block -/

theorem step_of_idle {s : State} (hb : s.busy = false) (hag : s.agenda = []) : step s = .next s := by
  simp [step, hag, hb]

theorem elapse_of_idle {s : State} (hseq : s.seq = .idle) (t : Nat) :
    elapse t s = { s with wire := s.wire.wait t } := by
  simp only [elapse, hseq]

/-- Settles O22: without a turn nothing moves, and a gap is the timebase's own (R94, R146). -/
theorem anIdleBlockKeepsItsState : Obligations.AnIdleBlockKeepsItsState := by
  unfold Obligations.AnIdleBlockKeepsItsState
  refine fun s hb hseq => ⟨step_of_idle hb, fun t rest hag => ?_⟩
  rw [step_of_turn hag, takeTurn, elapse_of_idle (s := { s with agenda := rest }) hseq]
  rfl

end Sys2Proof.Machine
end

section
/-! PROOFS. The CRC functions and the streaming commands (42_crc.md): a CRC register with the top bit of its polynomial
set loses nothing, so a CRC over data and trailer tells the trailer, and the streaming commands fold the bytes that the
functions fold. Settles O38 to O43. -/

namespace Sys2Proof.Machine

/-! ### A CRC register loses nothing -/

/-- A round shifts a 0 in at the top, so where the polynomial's top bit is set that bit tells whether it was added. -/
theorem crcRound_eq_zero_iff {n : Nat} {poly : BitVec n} (hpoly : poly.msb = true) (x : BitVec n) :
    crcRound poly x = 0 ↔ x = 0 := by
  constructor
  · intro h
    cases hlow : x.getLsbD 0 with
    | true =>
      have hadded : (x >>> 1) ^^^ poly = 0#n := by simpa [crcRound, hlow] using h
      have htop : (x >>> 1).msb = true := by rw [BitVec.xor_eq_zero_iff.1 hadded, hpoly]
      simp [BitVec.msb_ushiftRight] at htop
    | false =>
      have hshift : x >>> 1 = 0 := by simpa [crcRound, hlow] using h
      apply BitVec.eq_of_getLsbD_eq
      rintro (_ | j) -
      · simpa using hlow
      · have hbit := congrArg (fun y => y.getLsbD j) hshift
        simpa [Nat.add_comm] using hbit
  · rintro rfl
    simp [crcRound]

theorem crcRound_injective {n : Nat} {poly : BitVec n} (hpoly : poly.msb = true) :
    Function.Injective (crcRound poly) := fun x y h =>
  BitVec.xor_eq_zero_iff.1 ((crcRound_eq_zero_iff hpoly _).1 (by rw [crcRound_xor, h]; exact BitVec.xor_self))

/-! ### CRC-8 over data and CRC -/

/-- The last step of a CRC-8 leaves 0 exactly where the byte is the CRC before it (R107). -/
theorem crc8Step_eq_zero_iff (c b : Byte) : crc8Step c b = 0 ↔ b = c := by
  have hzero : (crcRound (0x8C : Byte))^[8] 0 = 0 := by decide
  rw [crc8Step_eq, ← hzero, ((crcRound_injective (by decide)).iterate 8).eq_iff, eq_comm (a := b)]
  exact BitVec.xor_eq_zero_iff

theorem crc8_append_eq_zero_iff (d : List Byte) (c : Byte) : crc8 (d ++ [c]) = 0 ↔ c = crc8 d := by
  rw [crc8_append, crc8Step_eq_zero_iff]

/-- Settles O40: the last step leaves 0 exactly on the CRC so far. -/
theorem crcEightChecksItself : Obligations.CrcEightChecksItself := by
  unfold Obligations.CrcEightChecksItself
  exact ⟨crc8_append_eq_zero_iff, fun a =>
    (crc8_append_eq_zero_iff ((List.range 7).map (addressByte a)) (addressByte a 7)).trans eq_comm⟩

/-! ### CRC-16 over data and trailer -/

/-- Two bytes, low byte first, are 16 rounds on the register XOR their half-word (R108, R110). -/
theorem crc16Step_twice (poly c : Half) (lo hi : Byte) :
    crc16Step poly (crc16Step poly c lo) hi = (crcRound poly)^[16] (c ^^^ (hi ++ lo)) := by
  have hhigh : (hi ++ lo) >>> 8 = hi.setWidth 16 := by
    apply BitVec.eq_of_getLsbD_eq
    intro j hj
    rw [BitVec.getLsbD_ushiftRight, BitVec.getLsbD_append]
    simp [show j < 16 from hj]
  have hlow : (hi ++ lo).setWidth 8 = lo := by
    apply BitVec.eq_of_getLsbD_eq
    intro j hj
    rw [BitVec.getLsbD_setWidth, BitVec.getLsbD_append]
    simp [hj]
  calc crc16Step poly (crc16Step poly c lo) hi
      = (crcRound poly)^[8] ((crcRound poly)^[8] c ^^^ (crcRound poly)^[8] (hi ++ lo)) := by
        rw [crcRound_iterate_half poly (hi ++ lo), hhigh, hlow, crc16Step_eq, crc16Step_eq,
          crcRound_iterate_xor poly 8 c, BitVec.xor_assoc, BitVec.xor_comm (hi.setWidth 16)]
    _ = (crcRound poly)^[8] ((crcRound poly)^[8] (c ^^^ (hi ++ lo))) :=
        congrArg _ (crcRound_iterate_xor poly 8 c (hi ++ lo)).symm
    _ = (crcRound poly)^[16] (c ^^^ (hi ++ lo)) := (Function.iterate_add_apply _ 8 8 _).symm

/-- The plain CRC over data and trailer is the residue exactly where the trailer is the inverted CRC (R110). -/
theorem crc16_trailer_iff (d : List Byte) (lo hi : Byte) :
    crc16 d 0 0xA001 false true = hi ++ lo ↔ crc16 (d ++ [lo, hi]) 0 0xA001 false false = 0xB001 := by
  have hlow : crc16Step 0xA001 0xFFFF 0 = 0x40BF := by decide
  have hhigh : crc16Step 0xA001 0x40BF 0 = 0xB001 := by decide
  have hresidue : (crcRound (0xA001 : Half))^[16] 0xFFFF = 0xB001 := by
    rw [← hhigh, ← hlow, crc16Step_twice]
    rfl
  have hsplit : d ++ [lo, hi] = (d ++ [lo]) ++ [hi] := by simp
  rw [crc16_reflect_out, hsplit, crc16_append, crc16_append, crc16Step_twice, ← hresidue,
    ((crcRound_injective (by decide)).iterate 16).eq_iff]
  have hcancel (a x : Half) : a ^^^ (a ^^^ x) = x := by rw [← BitVec.xor_assoc, BitVec.xor_self, BitVec.zero_xor]
  exact ⟨fun h => by rw [← h, hcancel], fun h => by rw [← h, hcancel]⟩

/-- A value is its two halves (R44, R69). -/
theorem halves_append {n : Nat} (x : BitVec (n + n)) : x.extractLsb' n n ++ x.extractLsb' 0 n = x :=
  (BitVec.extractLsb'_append_extractLsb'_eq_extractLsb' (Nat.zero_add n).symm).trans BitVec.extractLsb'_eq_self

/-- Settles O41, the trailer's two bytes being the halves of the CRC. -/
theorem crcSixteenTrailerResidue : Obligations.CrcSixteenTrailerResidue := by
  unfold Obligations.CrcSixteenTrailerResidue
  refine fun d lo hi => ⟨crc16_trailer_iff d lo hi, (crc16_trailer_iff d _ _).1 ?_⟩
  exact (halves_append (n := 8) _).symm

/-! ### The table-driven CRC-16 -/

theorem crc16TableStep_eq (poly c : Half) (b : Byte) : crc16TableStep poly c b = crc16Step poly c b := by
  have hindex : (c ^^^ b.setWidth 16).setWidth 8 = c.setWidth 8 ^^^ b := by simp [BitVec.setWidth_xor]
  rw [crc16TableStep, crc16Step_high_low poly c, hindex]

/-- Settles O43: the two steps are the same function. -/
theorem tableDrivenCrcIsTheSame : Obligations.TableDrivenCrcIsTheSame := by
  unfold Obligations.TableDrivenCrcIsTheSame
  refine ⟨crc16TableStep_eq, fun poly c bs => ?_⟩
  rw [funext₂ (crc16TableStep_eq poly)]

/-! ### The CRC commands -/

theorem dataByte_eq_ofNat (s : State) : dataByte s = BitVec.ofNat 8 (s.data.toNat % 256) := by
  apply BitVec.eq_of_toNat_eq
  simp [dataByte]

/-- The word of `C8B #b` as its OP and its immediate (R71, R81). -/
theorem encode_c8b (b : Byte) : encode (.c8b b) = 0x00000019 ||| (b.setWidth 32 <<< 8) := by
  have hfit : b.toNat <<< 8 < 2 ^ 32 := by rw [Nat.shiftLeft_eq]; omega
  apply BitVec.eq_of_toNat_eq
  rw [encode, toNat_commandWord, BitVec.toNat_or, BitVec.toNat_shiftLeft, BitVec.toNat_setWidth_of_le (by omega),
    Nat.mod_eq_of_lt hfit, Nat.or_comm]
  change _ = b.toNat <<< 8 ||| 25
  rw [← Nat.shiftLeft_add_eq_or_of_lt (by omega), Nat.shiftLeft_eq]
  simp
  omega

/-- `C8D` is `C8B` with the low byte of `DATA` (R113). -/
theorem exec_c8d (s : State) : exec .c8d s = exec (.c8b (dataByte s)) s := rfl

/-- `C16D` is `C16B` with the low byte of `DATA` (R116). -/
theorem exec_c16d (s : State) : exec .c16d s = exec (.c16b (dataByte s)) s := rfl

theorem crc16Final_true (c : Half) : crc16Final c true = ~~~c := BitVec.xor_allOnes

/-- Settles O38, command by command. -/
theorem crcEightCommands : Obligations.CrcEightCommands := by
  unfold Obligations.CrcEightCommands
  refine ⟨decodeWord_encode (i := .c8i) rfl, decodeWord_encode (i := .c8d) rfl, fun b => ?_,
    fun s => ⟨rfl, fun _ => rfl, ?_⟩⟩
  · rw [← encode_c8b, decodeWord_encode rfl]
  · rw [exec_c8d, dataByte_eq_ofNat]

/-- Settles O39, command by command. -/
theorem crcSixteenCommands : Obligations.CrcSixteenCommands := by
  unfold Obligations.CrcSixteenCommands
  refine fun s => ⟨fun _ => rfl, rfl, fun _ => rfl, ?_, rfl, ?_⟩
  · rw [exec_c16d, dataByte_eq_ofNat]
  · rw [← crc16Final_true]
    rfl

/-! ### Bytes fed to the streaming commands -/

/-- The two halves the host writes make the value (R44, R83). -/
theorem loadData_of_idle {s : State} (hb : s.busy = false) (v : DWord) : loadData v s = { s with data := v } := by
  have hlow (x : Word) : (x ++ v.extractLsb' 0 32).extractLsb' 0 32 = v.extractLsb' 0 32 :=
    BitVec.extractLsb'_append_eq_right
  have hhalves : v.extractLsb' 32 32 ++ v.extractLsb' 0 32 = v := halves_append (n := 32) v
  rw [loadData, writeReg_of_idle hb .dataLo, writeReg_of_idle (s := writeRegIdle .dataLo _ s) hb]
  simp only [writeRegIdle, hlow, hhalves]

/-- One feed as a command: an immediate, or the same command on the low byte of a `DATA` just loaded (R118). -/
theorem feedAll_cons {fold : Byte → Instr} {foldData : Instr}
    (hdata : ∀ s, exec foldData s = exec (fold (dataByte s)) s) {s : State} (hb : s.busy = false) (f : Feed)
    (fs : List Feed) : ∃ d, ∀ t, exec (fold f.byte) { s with data := d } = .next t →
      feedAll fold foldData (f :: fs) s = feedAll fold foldData fs t := by
  cases f with
  | imm b =>
    refine ⟨s.data, fun t ht => ?_⟩
    have himm : exec (fold b) s = .next t := ht
    simp only [feedAll, himm]
  | data v =>
    refine ⟨v, fun t ht => ?_⟩
    have hload : exec foldData (loadData v s) = .next t := by rw [loadData_of_idle hb, hdata]; exact ht
    simp only [feedAll, hload]

/-- Where the command of each byte takes a register (`Runs`, in an idle block) one step on whatever `DATA` holds, a list
of feeds folds its bytes into it. -/
theorem feedAll_folds {α : Type} {Runs : α → State → Prop} {step : α → Byte → α} {fold : Byte → Instr}
    {foldData : Instr} (hdata : ∀ s, exec foldData s = exec (fold (dataByte s)) s)
    (hidle : ∀ c s, Runs c s → s.busy = false)
    (hstep : ∀ c s d b, Runs c s → ∃ t, exec (fold b) { s with data := d } = .next t ∧ Runs (step c b) t)
    (fs : List Feed) {c : α} {s : State} (h : Runs c s) :
    ∃ t, feedAll fold foldData fs s = .next t ∧ Runs ((fs.map Feed.byte).foldl step c) t := by
  induction fs generalizing c s with
  | nil => exact ⟨s, rfl, h⟩
  | cons f fs ih =>
    obtain ⟨d, hfeed⟩ := feedAll_cons hdata (hidle c s h) f fs
    obtain ⟨t, ht, hruns⟩ := hstep c s d f.byte h
    rw [hfeed t ht]
    exact ih hruns

/-- An idle block whose running CRC-8 is `c` (R28). -/
def RunsCrc8 (c : Byte) (s : State) : Prop := s.busy = false ∧ s.crc8 = c

/-- An idle block whose running CRC-16 with polynomial `poly` is `c` (R27, R29). -/
def RunsCrc16 (poly c : Half) (s : State) : Prop := s.busy = false ∧ s.crc16Poly = poly ∧ s.crc16 = c

theorem feedAll_crc8 (fs : List Feed) {c : Byte} {s : State} (h : RunsCrc8 c s) :
    ∃ t, feedAll .c8b .c8d fs s = .next t ∧ RunsCrc8 ((fs.map Feed.byte).foldl crc8Step c) t := by
  refine feedAll_folds exec_c8d (fun _ _ hruns => hruns.1) ?_ fs h
  rintro c s d b ⟨-, rfl⟩
  exact ⟨_, rfl, rfl, rfl⟩

theorem feedAll_crc16 (fs : List Feed) {poly c : Half} {s : State} (h : RunsCrc16 poly c s) :
    ∃ t, feedAll .c16b .c16d fs s = .next t ∧ RunsCrc16 poly ((fs.map Feed.byte).foldl (crc16Step poly) c) t := by
  refine feedAll_folds exec_c16d (fun _ _ hruns => hruns.1) ?_ fs h
  rintro c s d b ⟨-, rfl, rfl⟩
  exact ⟨_, rfl, rfl, rfl, rfl⟩

/-- Both starts of a CRC-16 (R114). -/
theorem exec_crc16_start {start : Instr} {seed : Half} {ri : Bool}
    (h : (start = .c16i seed ∧ ri = false) ∨ (start = .c16iRefin ∧ ri = true)) (s : State) :
    ∃ t, exec start s = .next t ∧ RunsCrc16 s.crc16Poly (crc16Start seed ri) t := by
  obtain ⟨rfl, rfl⟩ | ⟨rfl, rfl⟩ := h
  · exact ⟨_, rfl, rfl, rfl, rfl⟩
  · exact ⟨_, rfl, rfl, rfl, rfl⟩

/-- Both ends of a CRC-16 (R117). -/
theorem exec_crc16_final (ro : Bool) (s : State) :
    ∃ t, exec (if ro then .c16fRefout else .c16f) s = .next t ∧ t.crc16Out = crc16Final s.crc16 ro := by
  cases ro with
  | false => exact ⟨_, rfl, rfl⟩
  | true => exact ⟨_, rfl, rfl⟩

/-- Settles O42: the start leaves the start value, each byte folds, and the end finalises. -/
theorem streamingEqualsTheFunction : Obligations.StreamingEqualsTheFunction := by
  unfold Obligations.StreamingEqualsTheFunction
  refine fun s fs => ⟨?_, fun start seed ri ro hstart => ?_⟩
  · obtain ⟨t, hfeed, -, hcrc⟩ := feedAll_crc8 (s := finish .ok { s with crc8 := 0 }) fs ⟨rfl, rfl⟩
    exact ⟨_, t, rfl, hfeed, hcrc⟩
  · obtain ⟨s1, hs1, hrun⟩ := exec_crc16_start hstart s
    obtain ⟨s2, hs2, -, -, hcrc⟩ := feedAll_crc16 fs hrun
    obtain ⟨t, ht, hout⟩ := exec_crc16_final ro s2
    exact ⟨s1, s2, t, hs1, hs2, ht, by rw [hout, hcrc, crc16]⟩

end Sys2Proof.Machine
end

section
/-! PROOFS. The commands that end without a bit loop, and the bit loop of a search pass position by position
(43_search.md R121 to R129). Settles O44, O45, O46. -/

namespace Sys2Proof.Machine

/-! ### `SRST`, and a search after the last device -/

/-- What `SRST` leaves: the cursor, FOUND and SSTATE clear, and no wire used (R129). -/
def srstState (s : State) : State := { completed .ok (quietWire s) s with
  lastDisc := 0, lastDev := false, rom := 0, found := false, sstate := .idle }

theorem exec_srst (s : State) : exec .srst s = .next (srstState s) := rfl

/-- Settles O44: in IDLE the invariant says that what `SRST` clears is clear already. -/
theorem srstResetsTheSearch : Obligations.SrstResetsTheSearch := by
  unfold Obligations.SrstResetsTheSearch
  refine ⟨by decide, fun s => ⟨exec_srst s, fun hs hidle => ?_⟩⟩
  obtain ⟨-, -, -, hclear, -⟩ := hs.cursor
  obtain ⟨hdisc, hdev, hrom, hfound⟩ := hclear (.inl hidle)
  rw [exec_srst]
  cases s
  cases hidle; cases hdisc; cases hdev; cases hrom; cases hfound
  rfl

/-- The state in which a search command's pass begins (R119, R131). -/
def passFrom (i : Instr) (s : State) : State := { passStart i s with sstate := .searching }

@[simp] theorem passFrom_wire (i : Instr) (s : State) : (passFrom i s).wire = s.wire := passStart_wire i s
@[simp] theorem passFrom_timing (i : Instr) (s : State) : (passFrom i s).timing = s.timing := passStart_timing i s
@[simp] theorem passFrom_seq (i : Instr) (s : State) : (passFrom i s).seq = s.seq := passStart_seq i s

/-- A search command runs a pass from there (R130, R131). -/
theorem exec_search {i : Instr} (h : IsSearch i) (s : State) :
    exec i s = .next (searchPass (searchByte i) (passFrom i s)) := exec_of_isSearch h s

/-- A pass that reports no address overwrites all that its start primes (R119, R120, R131). -/
theorem noAddressState_passFrom (code : ResultCode) (presence : Bool) (z : BitVec 7) (w : Wire) (i : Instr)
    (s : State) : noAddressState code presence z w (passFrom i s) = noAddressState code presence z w s := by
  unfold passFrom passStart
  split <;> rfl

/-- So does a pass that finds an address (R127, R128, R131). -/
theorem foundState_passFrom (a : DWord) (z : BitVec 7) (w : Wire) (i : Instr) (s : State) :
    foundState a z w (passFrom i s) = foundState a z w s := by
  unfold passFrom passStart
  split <;> rfl

/-- Settles O45: step 0 ends the pass (R121). -/
theorem searchEndAfterTheLastDevice : Obligations.SearchEndAfterTheLastDevice := by
  unfold Obligations.SearchEndAfterTheLastDevice
  intro i s hi hdev
  rw [exec_search (hi.imp_right .inl)]
  rcases hi with rfl | rfl <;> exact congrArg _ (searchPass_of_lastDev _ hdev)

/-! ### The bit loop by its positions -/

/-- The state before position `k + 1` of a bit loop that begins in `s`, where the positions before it had a response. -/
def beforePosition (s : State) : Nat → State
  | 0 => s
  | k + 1 => afterPosition (k + 1) (beforePosition s k)

/-- Position `k + 1` had a response: not both reads are 1 (R124). -/
def Responds (s : State) (k : Nat) : Prop :=
  (idBit (beforePosition s k) && cmpBit (beforePosition s k)) = false

/-- Position `k + 1`: its bit, its complement and its branch (R124 to R126). -/
def positionAt (s : State) (k : Nat) : Position :=
  (idBit (beforePosition s k), cmpBit (beforePosition s k),
    branchAt (k + 1) (idBit (beforePosition s k)) (cmpBit (beforePosition s k)) (afterReads (beforePosition s k)))

/-- The first `m` positions. -/
def positions (s : State) (m : Nat) : List Position := (List.range m).map (positionAt s)

@[simp] theorem positions_length (s : State) (m : Nat) : (positions s m).length = m := by simp [positions]

@[simp] theorem getElem_positions (s : State) (m k : Nat) (h : k < (positions s m).length) :
    (positions s m)[k] = positionAt s k := by simp [positions]

theorem positions_succ (s : State) (m : Nat) : positions s (m + 1) = positions s m ++ [positionAt s m] := by
  simp [positions, List.range_succ]

/-- The bit loop ends before a position without a response, or after its last one (R124). -/
theorem searchBits_cases (s : State) (n k : Nat) :
    (∃ m, k ≤ m ∧ m < k + n ∧ (∀ j, k ≤ j → j < m → Responds s j) ∧
      idBit (beforePosition s m) = true ∧ cmpBit (beforePosition s m) = true ∧
      searchBits n (k + 1) (beforePosition s k) = (false, afterReads (beforePosition s m))) ∨
    ((∀ j, k ≤ j → j < k + n → Responds s j) ∧
      searchBits n (k + 1) (beforePosition s k) = (true, beforePosition s (k + n))) := by
  induction n generalizing k with
  | zero => exact .inr ⟨fun j hj hj' => absurd hj' (by omega), rfl⟩
  | succ n ih =>
    rw [searchBits_succ]
    cases hr : idBit (beforePosition s k) && cmpBit (beforePosition s k) with
    | true =>
      obtain ⟨hid, hcmp⟩ := Bool.and_eq_true_iff.1 hr
      exact .inl ⟨k, Nat.le_refl k, by omega, fun j hj hj' => absurd hj' (by omega), hid, hcmp, rfl⟩
    | false =>
      have hfrom : ∀ j, k ≤ j → (k + 1 ≤ j → Responds s j) → Responds s j := fun j hj h => by
        rcases Nat.eq_or_lt_of_le hj with rfl | hlt
        · exact hr
        · exact h hlt
      rcases ih (k + 1) with ⟨m, hkm, hm, hall, hid, hcmp, heq⟩ | ⟨hall, heq⟩
      · exact .inl ⟨m, by omega, by omega, fun j hj hj' => hfrom j hj fun h => hall j h hj', hid, hcmp, heq⟩
      · refine .inr ⟨fun j hj hj' => hfrom j hj fun h => hall j h (by omega), ?_⟩
        rw [Nat.add_left_comm, Nat.add_comm n]
        exact heq

/-- The positions change `last_zero`, ROM and the line alone (R124 to R126). -/
theorem beforePosition_eq (s : State) (k : Nat) : beforePosition s k = { s with
    lastZero := (beforePosition s k).lastZero
    rom := (beforePosition s k).rom
    wire := (beforePosition s k).wire } := by
  induction k with
  | zero => rfl
  | succ k ih =>
    rw [beforePosition, afterPosition, takeBranch_eq, afterReads, ih]

@[simp] theorem beforePosition_timing (s : State) (k : Nat) : (beforePosition s k).timing = s.timing := by
  rw [beforePosition_eq]

@[simp] theorem beforePosition_lastDisc (s : State) (k : Nat) : (beforePosition s k).lastDisc = s.lastDisc := by
  rw [beforePosition_eq]

/-- Each position records its branch in its bit of ROM (R126). -/
theorem getLsbD_rom_beforePosition (s : State) {m : Nat} (hm : m ≤ 64) (j : Nat) :
    (beforePosition s m).rom.getLsbD j = if j < m then (positionAt s j).2.2 else s.rom.getLsbD j := by
  induction m with
  | zero => rfl
  | succ m ih =>
    rw [beforePosition, afterPosition_rom, getLsbD_withBit _ _ _ _ (by omega), ih (by omega)]
    by_cases hj : j = m
    · subst hj
      simp [positionAt]
    · have hiff : j < m + 1 ↔ j < m := by omega
      simp only [if_neg hj, hiff]

/-- The branch of a position is the rule's, for the cursor with which the loop began (R125). -/
theorem positionAt_branch (s : State) {k : Nat} (hk : k < 64) : (positionAt s k).2.2 =
    ruleBranch s.lastDisc s.rom (k + 1) (positionAt s k).1 (positionAt s k).2.1 := by
  have hrom : (beforePosition s k).rom.getLsbD k = s.rom.getLsbD k := by
    rw [getLsbD_rom_beforePosition s (by omega), if_neg (by omega)]
  simp only [positionAt, branchAt_eq, ruleBranch, afterReads, beforePosition_lastDisc, Nat.add_sub_cancel, hrom]

/-- Positions that all had a response follow the rule (R124, R125). -/
theorem positions_followsRule (s : State) {m : Nat} (hm : m ≤ 64) (hall : ∀ k, k < m → Responds s k) :
    FollowsRule s.lastDisc s.rom (positions s m) := by
  intro k hk
  rw [positions_length] at hk
  rw [getElem_positions]
  refine ⟨fun ⟨hid, hcmp⟩ => ?_, positionAt_branch s (by omega)⟩
  have hr : (idBit (beforePosition s k) && cmpBit (beforePosition s k)) = false := hall k hk
  rw [show idBit _ = true from hid, show cmpBit _ = true from hcmp] at hr
  cases hr

/-- The slots of the positions (R124, R126). -/
theorem positions_moves (s : State) (h : s.wire.dqLow = false) (m : Nat) :
    Moves s.timing s.wire ((positions s m).flatMap positionEvents) (beforePosition s m).wire := by
  induction m with
  | zero => exact .refl _ h
  | succ m ih =>
    have hstep := afterPosition_moves (m + 1) (beforePosition s m)
    rw [beforePosition_timing] at hstep
    rw [positions_succ, List.flatMap_append, List.flatMap_singleton]
    exact ih.trans hstep

/-- Position `pos` of the list is a branch point at which 0 was taken (R125). -/
theorem zeroTaken_positions_iff {s : State} {m pos : Nat} : ZeroTaken (positions s m) pos ↔
    1 ≤ pos ∧ pos ≤ m ∧ positionAt s (pos - 1) = (false, false, false) := by
  unfold ZeroTaken
  refine and_congr_right fun hpos => ?_
  rw [List.getElem?_eq_some_iff]
  simp only [positions_length, getElem_positions, exists_prop]
  exact and_congr_left fun _ => by omega

/-- A position that responds records itself in `last_zero` where it is a branch point and 0 is taken (R125). -/
theorem beforePosition_succ_lastZero {s : State} {k : Nat} (h : Responds s k) : (beforePosition s (k + 1)).lastZero =
    if positionAt s k = (false, false, false) then BitVec.ofNat 7 (k + 1) else (beforePosition s k).lastZero := by
  change (if (idBit (beforePosition s k) == cmpBit (beforePosition s k)) && !(positionAt s k).2.2 then _ else _) = _
  unfold Responds at h
  unfold positionAt
  dsimp only
  generalize branchAt _ _ _ _ = branch
  revert h
  cases idBit (beforePosition s k) <;> cases cmpBit (beforePosition s k) <;> cases branch <;> simp [afterReads]

/-- `last_zero` is the last branch point at which 0 was taken (R31, R125). -/
theorem lastZeroTaken_positions {s : State} (h : s.lastZero = 0) {m : Nat} (hm : m ≤ 64)
    (hall : ∀ k, k < m → Responds s k) :
    LastZeroTaken (positions s m) (beforePosition s m).lastZero.toNat := by
  simp only [LastZeroTaken, zeroTaken_positions_iff]
  induction m with
  | zero => exact ⟨.inl (by simp [beforePosition, h]), fun pos hpos => absurd hpos (by omega)⟩
  | succ m ih =>
    obtain ⟨hlast, hmax⟩ := ih (by omega) fun k hk => hall k (by omega)
    rw [beforePosition_succ_lastZero (hall m (by omega))]
    split
    · next hzero =>
      have hval : (BitVec.ofNat 7 (m + 1)).toNat = m + 1 := by
        rw [BitVec.toNat_ofNat]
        omega
      rw [hval]
      exact ⟨.inr ⟨by omega, Nat.le_refl _, hzero⟩, fun _ ⟨_, hle, _⟩ => hle⟩
    · next hzero =>
      refine ⟨hlast.imp_right fun ⟨h1, h2, h3⟩ => ⟨h1, by omega, h3⟩,
        fun pos ⟨h1, h2, h3⟩ => hmax pos ⟨h1, ?_, h3⟩⟩
      rcases Nat.eq_or_lt_of_le h2 with rfl | hlt
      · exact absurd h3 hzero
      · omega

/-! ### The outcomes of a search command -/

/-- The state in which the bit loop of a search command begins, after the bus reset and the ROM command byte (R122,
R123). -/
def loopStart (i : Instr) (s : State) : State := bitsStart (searchByte i) (afterBusReset (passFrom i s))

@[simp] theorem loopStart_timing (i : Instr) (s : State) : (loopStart i s).timing = s.timing := passFrom_timing i s

theorem loopStart_wire (i : Instr) (s : State) :
    (loopStart i s).wire = writeByte s.timing (searchByte i) (busReset s.timing s.wire).2 := by
  simp only [loopStart, bitsStart, afterBusReset, passFrom_timing, passFrom_wire]

theorem loopStart_moves (i : Instr) {s : State} {evs : List WireEvent}
    (h : Moves s.timing s.wire evs (busReset s.timing s.wire).2) :
    Moves s.timing s.wire (evs ++ writeEvents (lsbBits (searchByte i))) (loopStart i s).wire := by
  rw [loopStart_wire]
  exact h.trans (writeBits_moves_of_pos (by simp [lsbBits_length]) _)

/-- The line before position `k + 1` of a search command. -/
theorem beforePosition_moves (i : Instr) {s : State} {evs : List WireEvent}
    (h : Moves s.timing s.wire evs (busReset s.timing s.wire).2) (k : Nat) :
    Moves s.timing s.wire
      (evs ++ writeEvents (lsbBits (searchByte i)) ++ (positions (loopStart i s) k).flatMap positionEvents)
      (beforePosition (loopStart i s) k).wire :=
  (loopStart_moves i h).trans (loopStart_timing i s ▸ positions_moves (loopStart i s) rfl k)

/-- What a pass leaves whose 64 positions have a response: the candidate, if its family byte is not 0 (R127, R128). -/
def candidateState (a : DWord) (z : BitVec 7) (w : Wire) (s : State) : State :=
  if familyByte a = 0 then noAddressState .searchZeroFamily true z w s else foundState a z w s

/-- Steps 4 and 5 at the end of a pass from `s`, whose bit loop ends in `t` (R127, R128). -/
theorem validateCandidate_completePass {s t : State} (hdev : s.lastDev = false) (h : t = { s with
      presence := true, lastZero := t.lastZero, rom := t.rom, wire := t.wire }) :
    validateCandidate (completePass t) =
      candidateState t.rom t.lastZero (t.wire.settle s.seq.reading) s := by
  obtain ⟨z, a, w, rfl⟩ : ∃ z a w, t = { s with presence := true, lastZero := z, rom := a, wire := w } :=
    ⟨_, _, _, h⟩
  have hlast : (if z = 0 then true else s.lastDev) = decide (z = 0) := by
    by_cases hz : z = 0 <;> simp [hz, hdev]
  simp only [validateCandidate, completePass, candidateState, hlast]
  rfl

/-- A pass that ends at its bus reset (R122). -/
theorem noAddress_afterBusReset (code : ResultCode) (i : Instr) (s : State) :
    noAddress code (afterBusReset (passFrom i s)) = noAddressState code (busReset s.timing s.wire).1.presence s.lastZero
      ((busReset s.timing s.wire).2.settle s.seq.reading) s := by
  unfold afterBusReset passFrom passStart
  split <;> rfl

section Outcomes

variable {i : Instr} {s : State} (hi : IsSearch i) (hdev : (passStart i s).lastDev = false)

include hi hdev

/-- A search on a line that never idles (R122). -/
theorem exec_search_of_stuck (ho : (busReset s.timing s.wire).1 = .stuck) : exec i s =
    .next (noAddressState .busStuck false s.lastZero ((busReset s.timing s.wire).2.settle s.seq.reading) s) := by
  have hpass := searchPass_of_stuck (s := passFrom i s) (searchByte i) hdev (by simpa using ho)
  rw [exec_search hi, hpass, noAddress_afterBusReset, ho]
  rfl

/-- A search on a line without a presence pulse (R122). -/
theorem exec_search_of_absent (ho : (busReset s.timing s.wire).1 = .absent) : exec i s =
    .next (noAddressState .noPresence false s.lastZero ((busReset s.timing s.wire).2.settle s.seq.reading) s) := by
  have hpass := searchPass_of_absent (s := passFrom i s) (searchByte i) hdev (by simpa using ho)
  rw [exec_search hi, hpass, noAddress_afterBusReset, ho]
  rfl

/-- A search on a line with a presence pulse: a position without a response, or a candidate (R124, R127, R128). -/
theorem exec_search_present_cases (ho : (busReset s.timing s.wire).1 = .present) :
    (∃ m, m < 64 ∧ (∀ k, k < m → Responds (loopStart i s) k) ∧
      idBit (beforePosition (loopStart i s) m) = true ∧ cmpBit (beforePosition (loopStart i s) m) = true ∧
      exec i s = .next (noAddressState .searchNoResponse true (beforePosition (loopStart i s) m).lastZero
        ((afterReads (beforePosition (loopStart i s) m)).wire.settle s.seq.reading) s)) ∨
    ((∀ k, k < 64 → Responds (loopStart i s) k) ∧
      exec i s = .next (candidateState (beforePosition (loopStart i s) 64).rom
        (beforePosition (loopStart i s) 64).lastZero
        ((beforePosition (loopStart i s) 64).wire.settle s.seq.reading) s)) := by
  have ho' : (busReset (passFrom i s).timing (passFrom i s).wire).1 = .present := by simpa using ho
  have hframe : ∀ k, beforePosition (loopStart i s) k = { passFrom i s with
      presence := true
      lastZero := (beforePosition (loopStart i s) k).lastZero
      rom := (beforePosition (loopStart i s) k).rom
      wire := (beforePosition (loopStart i s) k).wire } := fun k => by
    rw [beforePosition_eq, loopStart, bitsStart, afterBusReset, ho']
    rfl
  rw [exec_search hi, searchPass_of_present (s := passFrom i s) _ hdev ho', searchRest_eq, ← loopStart,
    ← passFrom_seq i s]
  rcases searchBits_cases (loopStart i s) 64 0 with ⟨m, -, hm, hall, hid, hcmp, heq⟩ | ⟨hall, heq⟩
  · refine .inl ⟨m, by omega, fun k => hall k (Nat.zero_le k), hid, hcmp, ?_⟩
    rw [show searchBits 64 1 (loopStart i s) = _ from heq, ← noAddressState_passFrom _ _ _ _ i s, afterReads, hframe]
    rfl
  · refine .inr ⟨fun k hk => hall k (Nat.zero_le k) (by omega), ?_⟩
    have hsteps := validateCandidate_completePass (s := passFrom i s) hdev (hframe 64)
    rw [candidateState, noAddressState_passFrom, foundState_passFrom] at hsteps
    rw [show searchBits 64 1 (loopStart i s) = _ from heq, candidateState]
    exact congrArg _ ((if_pos rfl).trans hsteps)

end Outcomes

/-- Settles O46: the outcomes of the bus reset, then those of the bit loop. -/
theorem searchPassOutcomes : Obligations.SearchPassOutcomes := by
  unfold Obligations.SearchPassOutcomes
  intro i s hi hdev
  rcases busReset_cases s.timing s.wire with ⟨ho, hm⟩ | ⟨k, v, hk, ho, hm⟩
  · exact ⟨_, .inl ⟨hm.settle, exec_search_of_stuck hi hdev ho⟩⟩
  cases v with
  | true => exact ⟨_, .inr (.inl ⟨k, hk, hm.settle, exec_search_of_absent hi hdev ho⟩)⟩
  | false =>
    have hloop := beforePosition_moves i hm
    rcases exec_search_present_cases hi hdev ho with ⟨m, hm64, hall, hid, hcmp, hexec⟩ | ⟨hall, hexec⟩
    · have hreads := afterReads_moves (beforePosition (loopStart i s) m)
      rw [hid, hcmp, beforePosition_timing, loopStart_timing] at hreads
      refine ⟨_, .inr (.inr (.inl ⟨k, positions (loopStart i s) m, _, hk, by simpa using hm64,
        positions_followsRule _ (by omega) hall, lastZeroTaken_positions rfl (by omega) hall,
        ((hloop m).trans hreads).settle, ?_⟩))⟩
      rwa [BitVec.ofNat_toNat, BitVec.setWidth_eq]
    · refine ⟨_, .inr (.inr (.inr ⟨k, positions (loopStart i s) 64, _, (beforePosition (loopStart i s) 64).rom, hk,
        by simp, positions_followsRule _ (Nat.le_refl _) hall, lastZeroTaken_positions rfl (Nat.le_refl _) hall,
        fun n hn => ?_, (hloop 64).settle, ?_⟩))⟩
      · rw [getLsbD_rom_beforePosition _ (Nat.le_refl _), if_pos (by simpa using hn), getElem_positions]
      · rwa [BitVec.ofNat_toNat, BitVec.setWidth_eq]

end Sys2Proof.Machine
end

section
/-! PROOFS. The bit loop of a search command on the reference bus, position by position, and a search that nobody
answers (43_search.md R122 to R125). Settles O48. -/

namespace Sys2Proof.Machine

/-! ### The bit loop on the reference bus -/

section OnTheBus

variable {i : Instr} {s : State} {ds : List Device} (hi : IsSearch i) (hp : s.timing.Valid)
  (h : s.wire.env = .bus ⟨ds, false⟩)

include hi hp h

/-- After the ROM command byte of a search the devices that answer it are in the search (R59, R123). -/
theorem loopStart_on_bus : (loopStart i s).wire.env =
    .bus (inSearch (answers i) 0 (loopStart i s).rom (searchState 0) ds) := by
  have hcmd : ∀ d : Device, d.afterRomCommand (searchByte i) = if answers i d then .search 0 .bit else .off := by
    rcases hi with rfl | rfl | rfl <;> exact fun d => rfl
  obtain ⟨-, -, -, -, -, -, -, hpolls⟩ := hp
  obtain ⟨-, -, henv⟩ := busReset_of_bus (p := s.timing) hpolls h
  obtain ⟨-, -, -, hbyte, -⟩ := writeBits_moves_of_pos (p := s.timing) (bs := lsbBits (searchByte i))
    (by simp [lsbBits_length]) (busReset s.timing s.wire).2
  rw [loopStart_wire, writeByte, hbyte, henv, afterAll_writeEvents, afterPulse, List.map_map]
  simp only [Function.comp_def, Device.afterBits_romCommand, hcmd, inSearch, follows_zero]
  rfl

/-- Before each position the devices that follow the branches taken so far are in the search (R60, R125). -/
theorem beforePosition_on_bus {k : Nat} (hk : k ≤ 64) : (beforePosition (loopStart i s) k).wire.env =
    .bus (inSearch (answers i) k (beforePosition (loopStart i s) k).rom (searchState k) ds) := by
  induction k with
  | zero => exact loopStart_on_bus hi hp h
  | succ k ih => exact position_env (by omega) (searchState_of_lt (k := k) (by omega) ▸ ih (by omega))

/-- Where a device answers, each position has a response, and a device stays in the search (R124, R125). -/
theorem beforePosition_keeps_one (hone : ∃ d ∈ ds, answers i d = true) {k : Nat} (hk : k ≤ 64) :
    (∀ j, j < k → Responds (loopStart i s) j) ∧
      ∃ d ∈ ds, follows (answers i) k (beforePosition (loopStart i s) k).rom d = true := by
  induction k with
  | zero => exact ⟨fun j hj => absurd hj (by omega), by simpa only [follows_zero] using hone⟩
  | succ k ih =>
    obtain ⟨hall, hd⟩ := ih (by omega)
    have henv := beforePosition_on_bus hi hp h (k := k) (by omega)
    rw [searchState_of_lt (by omega)] at henv
    obtain ⟨hresponse, hnext⟩ := position_keeps_one (by omega) henv hd
    refine ⟨fun j hj => ?_, hnext⟩
    rcases Nat.lt_succ_iff_lt_or_eq.1 hj with hlt | rfl
    · exact hall j hlt
    · exact hresponse

/-- Where no device answers, both reads of the first position are 1 (R124). -/
theorem reads_of_no_answer (hnone : ∀ d ∈ ds, answers i d = false) :
    idBit (loopStart i s) = true ∧ cmpBit (loopStart i s) = true := by
  obtain ⟨hid, hcmp, -⟩ := position_reads (loopStart_on_bus hi hp h)
  rw [hid, hcmp, List.all_eq_true, List.all_eq_true]
  refine ⟨fun d hd => ?_, fun d hd => ?_⟩ <;> rw [follows_zero, hnone d hd] <;> rfl

end OnTheBus

theorem answering_eq_nil_iff (i : Instr) (ds : List Device) :
    answering i ds = [] ↔ ∀ d ∈ ds, answers i d = false := by
  simp [answering, List.filter_eq_nil_iff]

/-- A search on a bus with devices, none of which answers (R124). -/
theorem exec_search_of_no_answer {i : Instr} {s : State} {ds : List Device} (hi : IsSearch i) (hp : s.timing.Valid)
    (hdev : (passStart i s).lastDev = false) (h : s.wire.env = .bus ⟨ds, false⟩) (hne : ds ≠ [])
    (hnone : answering i ds = []) :
    exec i s = .next (noAddressState .searchNoResponse true 0
      ((afterReads (loopStart i s)).wire.settle s.seq.reading) s) := by
  obtain ⟨hid, hcmp⟩ := reads_of_no_answer hi hp h ((answering_eq_nil_iff i ds).1 hnone)
  have hsilent : ¬ Responds (loopStart i s) 0 := by simp [Responds, beforePosition, hid, hcmp]
  obtain ⟨-, -, -, -, -, -, -, hpolls⟩ := id hp
  obtain ⟨ho, -⟩ := busReset_of_bus (p := s.timing) hpolls h
  rw [if_neg hne] at ho
  rcases exec_search_present_cases hi hdev ho with ⟨m, -, hall, -, -, hexec⟩ | ⟨hall, -⟩
  · obtain rfl : m = 0 := Nat.eq_zero_of_not_pos fun hm => hsilent (hall 0 hm)
    exact hexec
  · exact absurd (hall 0 (by omega)) hsilent

/-- Settles O48, from the outcome of the bus reset on each of the three buses. -/
theorem searchWithoutAnAnswer : Obligations.SearchWithoutAnAnswer := by
  unfold Obligations.SearchWithoutAnAnswer
  intro i s ds hi hp hdev
  obtain ⟨-, -, -, -, -, -, -, hpolls⟩ := id hp
  refine ⟨fun h hne hnone => ?_, fun h => ?_, fun h => ?_⟩
  · obtain ⟨-, hm, -⟩ := busReset_of_bus (p := s.timing) hpolls h
    obtain ⟨hid, hcmp⟩ := reads_of_no_answer hi hp h ((answering_eq_nil_iff i ds).1 hnone)
    have hreads := afterReads_moves (loopStart i s)
    rw [hid, hcmp, loopStart_timing] at hreads
    rw [decide_eq_false hne] at hm
    exact ⟨_, exec_search_of_no_answer hi hp hdev h hne hnone, ((loopStart_moves i hm).trans hreads).settle⟩
  · obtain ⟨ho, hm, -⟩ := busReset_of_bus (p := s.timing) hpolls h
    exact ⟨_, exec_search_of_absent hi hdev ho, hm.settle⟩
  · obtain ⟨ho, hm, -⟩ := busReset_of_stuck (p := s.timing) h
    exact ⟨_, exec_search_of_stuck hi hdev ho, hm.settle⟩

end Sys2Proof.Machine
end

section
/-! PROOFS. The address a search command finds on the reference bus, told by the branch points of the answering
addresses (43_search.md R124 to R128, R132). Settles O49, O51. -/

namespace Sys2Proof.Machine

/-! ### Branch points of the answering addresses -/

/-- `a` has a branch point at bit `k`: an address of the list agrees with it below the bit and differs in it. -/
def ForksAt (as : List DWord) (a : DWord) (k : Nat) : Prop :=
  ∃ b ∈ as, (∀ j, j < k → b.getLsbD j = a.getLsbD j) ∧ b.getLsbD k ≠ a.getLsbD k

theorem ForksAt.lt {as : List DWord} {a : DWord} {k : Nat} (h : ForksAt as a k) : k < 64 := by
  obtain ⟨b, -, -, hne⟩ := h
  by_contra hk
  exact hne (by rw [BitVec.getLsbD_of_ge b k (by omega), BitVec.getLsbD_of_ge a k (by omega)])

/-- `z` is the position of the last branch point of `a` at which `a` has 0, or 0 for none (R31, R125). -/
structure LastZeroOf (as : List DWord) (a : DWord) (z : BitVec 7) : Prop where
  zero_le : ∀ k, ForksAt as a k → a.getLsbD k = false → k + 1 ≤ z.toNat
  zero_taken : z ≠ 0 → ∃ k, z.toNat = k + 1 ∧ ForksAt as a k ∧ a.getLsbD k = false

/-- `a` is the address of the list that a pass with this cursor takes, and `z` the LAST_DISC it leaves: the rule decides
each branch point (R125, R127). -/
structure ChosenFrom (as : List DWord) (lastDisc : BitVec 7) (rom a : DWord) (z : BitVec 7) : Prop
    extends LastZeroOf as a z where
  mem : a ∈ as
  branch : ∀ k, ForksAt as a k → a.getLsbD k = ruleBranch lastDisc rom (k + 1) false false

theorem mem_answering {i : Instr} {ds : List Device} {b : DWord} :
    b ∈ answering i ds ↔ ∃ d ∈ ds, answers i d = true ∧ d.rom = b := by
  simp [answering, and_assoc]

theorem follows_congr {ans : Device → Bool} {k : Nat} {v v' : DWord}
    (h : ∀ j, j < k → v.getLsbD j = v'.getLsbD j) (d : Device) : follows ans k v d = follows ans k v' d := by
  rw [Bool.eq_iff_iff, follows_iff, follows_iff]
  exact and_congr_right fun _ => forall₂_congr fun j hj => by rw [h j hj]

/-- Below position `k + 1` ROM holds the bits of the candidate (R126). -/
theorem rom_beforePosition_agrees (s : State) {k : Nat} (hk : k ≤ 64) {j : Nat} (hj : j < k) :
    (beforePosition s k).rom.getLsbD j = (beforePosition s 64).rom.getLsbD j := by
  rw [getLsbD_rom_beforePosition s hk, getLsbD_rom_beforePosition s (Nat.le_refl _), if_pos hj, if_pos (by omega)]

section OnTheBus

variable {i : Instr} {s : State} {ds : List Device} (hi : IsSearch i) (hp : s.timing.Valid)
  (h : s.wire.env = .bus ⟨ds, false⟩) (hone : ∃ d ∈ ds, answers i d = true)

include hi hp h hone

/-- The candidate is an answering address (R60). -/
theorem candidate_mem : (beforePosition (loopStart i s) 64).rom ∈ answering i ds := by
  obtain ⟨-, d, hd, hfol⟩ := beforePosition_keeps_one hi hp h hone (Nat.le_refl 64)
  exact mem_answering.2 ⟨d, hd, (follows_iff.1 hfol).1, rom_of_follows hfol⟩

/-- The reads of a position are 0, 0 exactly where the candidate has a branch point (R60, R64, R124). -/
theorem forksAt_candidate_iff {k : Nat} (hk : k < 64) :
    ForksAt (answering i ds) (beforePosition (loopStart i s) 64).rom k ↔
      idBit (beforePosition (loopStart i s) k) = false ∧ cmpBit (beforePosition (loopStart i s) k) = false := by
  have henv := searchState_of_lt hk ▸ beforePosition_on_bus hi hp h (k := k) (by omega)
  obtain ⟨-, hkeeps⟩ := beforePosition_keeps_one hi hp h hone (k := k) (by omega)
  obtain ⟨hid, hcmp, -⟩ := position_reads henv
  obtain ⟨-, hbits⟩ := position_bits henv hkeeps
  have hfol := follows_congr (ans := answers i) fun j => rom_beforePosition_agrees (loopStart i s) (k := k) (by omega)
  simp only [hfol] at hid hcmp hbits
  obtain ⟨d, hd, hansd, hromd⟩ := mem_answering.1 (candidate_mem hi hp h hone)
  rw [← hromd] at hid hcmp hbits ⊢
  refine ⟨fun ⟨b, hb, hagree, hne⟩ => ?_, fun ⟨hid0, hcmp0⟩ => ?_⟩
  · obtain ⟨e, he, hanse, rfl⟩ := mem_answering.1 hb
    have hfold : follows (answers i) k d.rom d = true := follows_iff.2 ⟨hansd, fun _ _ => rfl⟩
    have hfole : follows (answers i) k d.rom e = true := follows_iff.2 ⟨hanse, hagree⟩
    rw [hid, hcmp, List.all_eq_false, List.all_eq_false]
    cases hbit : d.rom.getLsbD k <;> rw [hbit] at hne
    · exact ⟨⟨d, hd, by simp [hfold, hbit]⟩, e, he, by simp [hfole, hne]⟩
    · exact ⟨⟨e, he, by simp [hfole, hne]⟩, d, hd, by simp [hfold, hbit]⟩
  · obtain ⟨e, he, hfole, hbit⟩ := hbits (!d.rom.getLsbD k) (by simp [hid0, hcmp0])
    obtain ⟨hanse, hagree⟩ := follows_iff.1 hfole
    exact ⟨e.rom, mem_answering.2 ⟨e, he, hanse, rfl⟩, hagree, by simp [hbit]⟩

/-- A position is 0, 0 with branch 0 exactly where the candidate has a branch point and the bit 0 (R125). -/
theorem positionAt_eq_zero_iff {k : Nat} (hk : k < 64) : positionAt (loopStart i s) k = (false, false, false) ↔
    ForksAt (answering i ds) (beforePosition (loopStart i s) 64).rom k ∧
      (beforePosition (loopStart i s) 64).rom.getLsbD k = false := by
  rw [forksAt_candidate_iff hi hp h hone hk, getLsbD_rom_beforePosition _ (Nat.le_refl _), if_pos hk, positionAt]
  simp only [Prod.mk.injEq, and_assoc]

/-- The candidate is the address that the pass's cursor chooses (R125, R127). -/
theorem candidate_chosen : ChosenFrom (answering i ds) (passStart i s).lastDisc (passStart i s).rom
    (beforePosition (loopStart i s) 64).rom (beforePosition (loopStart i s) 64).lastZero := by
  obtain ⟨hall, -⟩ := beforePosition_keeps_one hi hp h hone (Nat.le_refl 64)
  have hzero : ∀ k, k < 64 → (ZeroTaken (positions (loopStart i s) 64) (k + 1) ↔
      ForksAt (answering i ds) (beforePosition (loopStart i s) 64).rom k ∧
        (beforePosition (loopStart i s) 64).rom.getLsbD k = false) := fun k hk => by
    rw [zeroTaken_positions_iff, Nat.add_sub_cancel, positionAt_eq_zero_iff hi hp h hone hk]
    exact ⟨fun ⟨_, _, hf⟩ => hf, fun hf => ⟨by omega, by omega, hf⟩⟩
  obtain ⟨hlast, hmax⟩ := lastZeroTaken_positions (s := loopStart i s) rfl (Nat.le_refl 64) hall
  refine ⟨⟨fun k hfork hbit => hmax _ ((hzero k hfork.lt).2 ⟨hfork, hbit⟩), fun hz => ?_⟩,
    candidate_mem hi hp h hone, fun k hfork => ?_⟩
  · rcases hlast with hz0 | htaken
    · exact absurd (BitVec.eq_of_toNat_eq hz0) hz
    · obtain ⟨hpos, hle, -⟩ := zeroTaken_positions_iff.1 htaken
      obtain ⟨k, hk⟩ := Nat.exists_eq_add_of_le' hpos
      rw [hk] at htaken
      exact ⟨k, hk, (hzero k (by omega)).1 htaken⟩
  · obtain ⟨hid, hcmp⟩ := (forksAt_candidate_iff hi hp h hone hfork.lt).1 hfork
    rw [getLsbD_rom_beforePosition _ (Nat.le_refl _), if_pos hfork.lt, positionAt_branch _ hfork.lt]
    simp only [positionAt, hid, hcmp]
    rfl

end OnTheBus

/-- A search on the reference bus, where a device answers, ends with the address its cursor chooses, and with the same
devices on the bus (R125, R127, R128). -/
theorem exec_search_chosen {i : Instr} {s : State} {ds : List Device} (hi : IsSearch i) (hp : s.timing.Valid)
    (hdev : (passStart i s).lastDev = false) (h : s.wire.env = .bus ⟨ds, false⟩) (hne : answering i ds ≠ []) :
    ∃ a z w, exec i s = .next (candidateState a z w s) ∧
      ChosenFrom (answering i ds) (passStart i s).lastDisc (passStart i s).rom a z ∧
      ∃ ds', w.env = .bus ⟨ds', false⟩ ∧ answering i ds' = answering i ds := by
  have hone : ∃ d ∈ ds, answers i d = true := by simpa [answering] using hne
  obtain ⟨d, hd, -⟩ := id hone
  obtain ⟨-, -, -, -, -, -, -, hpolls⟩ := id hp
  obtain ⟨ho, -⟩ := busReset_of_bus (p := s.timing) hpolls h
  rw [if_neg (List.ne_nil_of_mem hd)] at ho
  obtain ⟨hall, -⟩ := beforePosition_keeps_one hi hp h hone (Nat.le_refl 64)
  rcases exec_search_present_cases hi hdev ho with ⟨m, hm, -, hid, hcmp, -⟩ | ⟨-, hexec⟩
  · have hresponse := hall m hm
    rw [Responds, hid, hcmp] at hresponse
    cases hresponse
  · have henv := beforePosition_on_bus hi hp h (Nat.le_refl 64)
    refine ⟨_, _, _, hexec, candidate_chosen hi hp h hone, _, (Wire.settle_env _ _).trans henv, ?_⟩
    simp only [answering, List.filter_map, List.map_map]
    rfl

/-! ### From a clear cursor, and with a primed cursor -/

/-- Where two addresses first differ. -/
theorem exists_first_difference {a b : DWord} (h : a ≠ b) :
    ∃ k, (∀ j, j < k → a.getLsbD j = b.getLsbD j) ∧ a.getLsbD k ≠ b.getLsbD k := by
  have hex : ∃ k, a.getLsbD k ≠ b.getLsbD k := by
    by_contra hall
    exact h (BitVec.eq_of_getLsbD_eq fun k _ => by simpa using not_exists.1 hall k)
  exact ⟨Nat.find hex, fun j hj => not_not.1 (Nat.find_min hex hj), Nat.find_spec hex⟩

/-- Of two addresses the one with 0 where they first differ comes first (R132). -/
theorem wireOrder_of_first_difference {a b : DWord} {k : Nat} (hagree : ∀ j, j < k → a.getLsbD j = b.getLsbD j)
    (hne : a.getLsbD k ≠ b.getLsbD k) (hzero : a.getLsbD k = false) : WireOrder a b :=
  ⟨k, hagree, hzero, by simpa [hzero] using hne.symm⟩

/-- From a clear cursor the first address in wire order is chosen (R132). -/
theorem ChosenFrom.first {as : List DWord} {rom a : DWord} {z : BitVec 7} (h : ChosenFrom as 0 rom a z) {b : DWord}
    (hb : b ∈ as) (hne : b ≠ a) : WireOrder a b := by
  obtain ⟨k, hagree, hdiff⟩ := exists_first_difference hne.symm
  refine wireOrder_of_first_difference hagree hdiff ?_
  simpa [ruleBranch] using h.branch k ⟨b, hb, fun j hj => (hagree j hj).symm, hdiff.symm⟩

/-- With LAST_DISC 64 the address in ROM is chosen where it is one of the list, and none other differs from it in bit 63
alone (R131). -/
theorem ChosenFrom.primed {as : List DWord} {rom a : DWord} {z : BitVec 7} (h : ChosenFrom as 64 rom a z)
    (hrom : rom ∈ as) (hlast : (∀ j, j < 63 → a.getLsbD j = rom.getLsbD j) → a = rom) : a = rom := by
  by_contra hne
  obtain ⟨k, hagree, hdiff⟩ := exists_first_difference hne
  have hfork : ForksAt as a k := ⟨rom, hrom, fun j hj => (hagree j hj).symm, hdiff.symm⟩
  have hbit := h.branch k hfork
  have hk := hfork.lt
  by_cases h63 : k = 63
  · exact hne (hlast fun j hj => hagree j (by omega))
  · have hlt : k + 1 < 64 := by omega
    exact hdiff (by simpa [ruleBranch, hlt] using hbit)

theorem candidateState_of_family {a : DWord} (h : familyByte a ≠ 0) (z : BitVec 7) (w : Wire) (s : State) :
    candidateState a z w s = foundState a z w s := if_neg h

/-- A candidate that is reported is the one chosen (R128). -/
theorem data_of_found_candidateState {a : DWord} {z : BitVec 7} {w : Wire} {s : State}
    (h : (candidateState a z w s).found = true) : (candidateState a z w s).data = a := by
  by_cases hf : familyByte a = 0
  · rw [candidateState, if_pos hf] at h
    cases h
  · rw [candidateState_of_family hf]
    rfl

/-- Where no device answers a search reports no address, whether the bus is empty or not (R122, R124). -/
theorem exec_search_without_answer {i : Instr} {s : State} {ds : List Device} (hi : IsSearch i) (hp : s.timing.Valid)
    (hdev : (passStart i s).lastDev = false) (h : s.wire.env = .bus ⟨ds, false⟩) (hnone : answering i ds = []) :
    ∃ code presence z w, exec i s = .next (noAddressState code presence z w s) := by
  obtain ⟨hsilent, hempty, -⟩ := searchWithoutAnAnswer i s ds hi hp hdev
  by_cases hds : ds = []
  · obtain ⟨w, hexec, -⟩ := hempty (hds ▸ h)
    exact ⟨_, _, _, w, hexec⟩
  · obtain ⟨w, hexec, -⟩ := hsilent h hds hnone
    exact ⟨_, _, _, w, hexec⟩

/-- Settles O49, from the choice of a clear cursor. -/
theorem clearCursorFindsTheFirstInWireOrder : Obligations.ClearCursorFindsTheFirstInWireOrder := by
  unfold Obligations.ClearCursorFindsTheFirstInWireOrder
  intro i s ds hi hp hdev hdisc h hne hf
  have hstart : passStart i s = s := by rcases hi with rfl | rfl <;> rfl
  obtain ⟨a, z, w, hexec, hchosen, -⟩ :=
    exec_search_chosen (hi.imp_right .inl) hp (by rwa [hstart]) h hne
  rw [candidateState_of_family (hf a hchosen.mem)] at hexec
  rw [hstart, hdisc] at hchosen
  exact ⟨a, z, w, hchosen.mem, hexec, fun b => hchosen.first⟩

/-- Settles O51: where the address answers it is the candidate, and otherwise no candidate has it. -/
theorem sselReturnsThePresentAlertingDevice : Obligations.SselReturnsThePresentAlertingDevice := by
  unfold Obligations.SselReturnsThePresentAlertingDevice
  intro s ds hp h hf hlast
  have hi : IsSearch .ssel := .inr (.inr rfl)
  by_cases hnone : answering .ssel ds = []
  · obtain ⟨code, presence, z, w, hexec⟩ := exec_search_without_answer hi hp rfl h hnone
    exact ⟨_, hexec, by simp [noAddressState, hnone]⟩
  · obtain ⟨a, z, w, hexec, hchosen, -⟩ := exec_search_chosen hi hp rfl h hnone
    refine ⟨_, hexec, fun ⟨hfound, hdata⟩ => ?_, fun hmem => ?_⟩
    · rw [← hdata, data_of_found_candidateState hfound]
      exact hchosen.mem
    · obtain rfl : a = s.data := ChosenFrom.primed hchosen hmem (hlast a hchosen.mem)
      rw [candidateState_of_family hf]
      exact ⟨rfl, rfl⟩

end Sys2Proof.Machine
end

section
/-! PROOFS. Enumeration on the reference bus (43_search.md R132, R133): each pass takes the next address in wire order,
and the last one leaves LAST_DEV 1. Settles O50. -/

namespace Sys2Proof.Machine

/-! ### Wire order -/

theorem WireOrder.irrefl (a : DWord) : ¬ WireOrder a a := fun ⟨_, _, h0, h1⟩ => by simp [h0] at h1

theorem WireOrder.ne {a b : DWord} (h : WireOrder a b) : b ≠ a := by
  rintro rfl
  exact WireOrder.irrefl _ h

theorem WireOrder.trans {a b c : DWord} (hab : WireOrder a b) (hbc : WireOrder b c) : WireOrder a c := by
  obtain ⟨k, hk, hak, hbk⟩ := hab
  obtain ⟨n, hn, hbn, hcn⟩ := hbc
  rcases Nat.lt_trichotomy k n with hlt | rfl | hlt
  · exact ⟨k, fun j hj => (hk j hj).trans (hn j (by omega)), hak, (hn k hlt).symm.trans hbk⟩
  · cases hbk.symm.trans hbn
  · exact ⟨n, fun j hj => (hk j (by omega)).trans (hn j hj), (hk n hlt).trans hbn, hcn⟩

theorem WireOrder.asymm {a b : DWord} (hab : WireOrder a b) : ¬ WireOrder b a :=
  fun hba => WireOrder.irrefl a (hab.trans hba)

/-! ### The address a pass takes next -/

/-- An address that comes after `a` makes a branch point of `a` at which `a` has 0. -/
theorem forksAt_of_wireOrder {as : List DWord} {a b : DWord} (hb : b ∈ as) (h : WireOrder a b) :
    ∃ k, ForksAt as a k ∧ a.getLsbD k = false ∧ b.getLsbD k = true ∧ ∀ j, j < k → a.getLsbD j = b.getLsbD j := by
  obtain ⟨k, hagree, hak, hbk⟩ := h
  exact ⟨k, ⟨b, hb, fun j hj => (hagree j hj).symm, by simp [hak, hbk]⟩, hak, hbk, hagree⟩

/-- LAST_DISC is 0 exactly after the last address in wire order (R127). -/
theorem LastZeroOf.eq_zero_iff {as : List DWord} {a : DWord} {z : BitVec 7} (h : LastZeroOf as a z) :
    z = 0 ↔ ∀ b ∈ as, ¬ WireOrder a b := by
  refine ⟨fun hz b hb hab => ?_, fun hlast => ?_⟩
  · obtain ⟨k, hfork, hak, -, -⟩ := forksAt_of_wireOrder hb hab
    have hle := h.zero_le k hfork hak
    simp [hz] at hle
  · by_contra hz
    obtain ⟨k, -, ⟨b, hb, hagree, hne⟩, hak⟩ := h.zero_taken hz
    exact hlast b hb (wireOrder_of_first_difference (fun j hj => (hagree j hj).symm) hne.symm hak)

/-- The rule at a branch point, where LAST_DISC is the position of bit `m` (R125). -/
theorem ChosenFrom.bit {as : List DWord} {lastDisc : BitVec 7} {r a : DWord} {z : BitVec 7} {m k : Nat}
    (h : ChosenFrom as lastDisc r a z) (hm : lastDisc.toNat = m + 1) (hfork : ForksAt as a k) :
    a.getLsbD k = if k < m then r.getLsbD k else decide (k = m) := by
  rw [h.branch k hfork]
  simp [ruleBranch, hm]

/-- After the address `r` a pass keeps its bits below LAST_DISC, and turns to 1 there (R125). -/
theorem ChosenFrom.turn {as : List DWord} {lastDisc : BitVec 7} {r a : DWord} {z : BitVec 7}
    (h : ChosenFrom as lastDisc r a z) (hr : r ∈ as) (hlast : LastZeroOf as r lastDisc) (hne : lastDisc ≠ 0) :
    ∃ m, lastDisc.toNat = m + 1 ∧ (∀ j, j < m → r.getLsbD j = a.getLsbD j) ∧ r.getLsbD m = false ∧
      a.getLsbD m = true := by
  obtain ⟨m, hm, ⟨c, hc, hcr, hcm⟩, hrm⟩ := hlast.zero_taken hne
  have hturn : ¬ ∀ j, j ≤ m → r.getLsbD j = a.getLsbD j := fun hra => by
    have hram := hra m (Nat.le_refl m)
    have ham := h.bit hm (k := m) ⟨c, hc, fun j hj => (hcr j hj).trans (hra j (by omega)), hram ▸ hcm⟩
    simp [← hram, hrm] at ham
  obtain ⟨n, hagree, hdiff⟩ := exists_first_difference fun h : r = a => hturn fun j _ => by rw [h]
  have hbit := h.bit hm (k := n) ⟨r, hr, hagree, hdiff⟩
  rcases Nat.lt_trichotomy n m with hlt | rfl | hlt
  · exact absurd (hbit.trans (if_pos hlt)).symm hdiff
  · exact ⟨n, hm, hagree, hrm, by simpa using hbit⟩
  · exact absurd (fun j hj => hagree j (by omega)) hturn

/-- After the address `r` the first of those that come after it is chosen (R125, R132). -/
theorem ChosenFrom.next {as : List DWord} {lastDisc : BitVec 7} {r a : DWord} {z : BitVec 7}
    (h : ChosenFrom as lastDisc r a z) (hr : r ∈ as) (hlast : LastZeroOf as r lastDisc) (hne : lastDisc ≠ 0) :
    WireOrder r a ∧ ∀ b ∈ as, WireOrder r b → b ≠ a → WireOrder a b := by
  obtain ⟨m, hm, hra, hrm, ham⟩ := h.turn hr hlast hne
  refine ⟨⟨m, hra, hrm, ham⟩, fun b hb hab hba => ?_⟩
  obtain ⟨k, hfork, hrk, hbk, hrb⟩ := forksAt_of_wireOrder hb hab
  have hkm : k + 1 ≤ m + 1 := hm ▸ hlast.zero_le k hfork hrk
  obtain ⟨n, hagree, hdiff⟩ := exists_first_difference hba.symm
  refine wireOrder_of_first_difference hagree hdiff ?_
  have hbit := h.bit hm (k := n) ⟨b, hb, fun j hj => (hagree j hj).symm, hdiff.symm⟩
  have hnk : n ≤ m → n ≤ k := fun hn => by
    by_contra hlt
    have hrbk := (hra k (by omega)).trans (hagree k (by omega))
    simp [hrk, hbk] at hrbk
  rcases Nat.lt_trichotomy n m with hlt | rfl | hlt
  · rw [if_pos hlt] at hbit
    rcases Nat.eq_or_lt_of_le (hnk (by omega)) with rfl | hlt'
    · exact hbit.trans hrk
    · exact absurd (hbit.trans (hrb n hlt')) hdiff
  · obtain rfl : k = n := Nat.le_antisymm (by omega) (hnk (Nat.le_refl n))
    exact absurd (ham.trans hbk.symm) hdiff
  · simpa [Nat.lt_asymm hlt, Nat.ne_of_gt hlt] using hbit

/-! ### Enumeration -/

/-- In `s` an enumeration of the addresses `as` has still to report those of `rest`, and the cursor says so: it chooses
the first of `rest` in wire order, and LAST_DEV is 1 only where none is left (R121, R132, R133). -/
structure Pending (i : Instr) (as rest : List DWord) (s : State) : Prop where
  valid : s.timing.Valid
  onBus : ∃ ds, s.wire.env = .bus ⟨ds, false⟩ ∧ answering i ds = as
  mem : ∀ b ∈ rest, b ∈ as
  more : rest ≠ [] → s.lastDev = false ∧ ∀ a z, ChosenFrom as s.lastDisc s.rom a z →
    a ∈ rest ∧ (∀ b ∈ rest, b ≠ a → WireOrder a b) ∧ ∀ b ∈ as, WireOrder a b → b ∈ rest
  done : rest = [] → s.lastDisc = 0 ∧ s.lastDev = true

/-- From a clear cursor all addresses are still to be reported (R132). -/
theorem pending_of_clear {i : Instr} {ds : List Device} {s : State} (hp : s.timing.Valid)
    (h : s.wire.env = .bus ⟨ds, false⟩) (hne : answering i ds ≠ []) (hdisc : s.lastDisc = 0)
    (hdev : s.lastDev = false) : Pending i (answering i ds) (answering i ds) s where
  valid := hp
  onBus := ⟨ds, h, rfl⟩
  mem := fun _ hb => hb
  more := fun _ => ⟨hdev, fun _ _ hchosen => ⟨hchosen.mem, fun _ => (hdisc ▸ hchosen).first, fun _ hb _ => hb⟩⟩
  done := fun h => absurd h hne

/-- Without its first address the list has those that come after it (R132). -/
theorem mem_erase_first_iff {as rest : List DWord} {a : DWord} (hnodup : rest.Nodup)
    (hmem : ∀ b ∈ rest, b ∈ as) (hfirst : ∀ b ∈ rest, b ≠ a → WireOrder a b)
    (hafter : ∀ b ∈ as, WireOrder a b → b ∈ rest) (b : DWord) :
    b ∈ rest.erase a ↔ b ∈ as ∧ WireOrder a b := by
  rw [hnodup.mem_erase_iff]
  exact ⟨fun ⟨hne, hb⟩ => ⟨hmem b hb, hfirst b hb hne⟩, fun ⟨hb, hab⟩ => ⟨hab.ne, hafter b hb hab⟩⟩

section Enumeration

variable {i : Instr} {as : List DWord} (hi : i = .srch ∨ i = .srchA) (hf : ∀ a ∈ as, familyByte a ≠ 0)

include hi hf

/-- A pass reports the first of the addresses that are left, and leaves the others (R132, R133). -/
theorem Pending.pass {rest : List DWord} {s : State} (h : Pending i as rest s) (hne : rest ≠ [])
    (hnodup : rest.Nodup) : ∃ a t, exec i s = .next t ∧ t.found = true ∧ t.data = a ∧ a ∈ rest ∧
      (∀ b ∈ rest.erase a, WireOrder a b) ∧ Pending i as (rest.erase a) t := by
  have hstart : passStart i s = s := by rcases hi with rfl | rfl <;> rfl
  obtain ⟨ds, henv, rfl⟩ := h.onBus
  obtain ⟨hdev, hchoice⟩ := h.more hne
  obtain ⟨b0, hb0⟩ := List.exists_mem_of_ne_nil _ hne
  obtain ⟨a, z, w, hexec, hchosen, ds', henv', hds'⟩ := exec_search_chosen (hi.imp_right .inl) h.valid
    (by rwa [hstart]) henv (List.ne_nil_of_mem (h.mem b0 hb0))
  rw [hstart] at hchosen
  rw [candidateState_of_family (hf a hchosen.mem)] at hexec
  obtain ⟨hmem, hfirst, hafter⟩ := hchoice a z hchosen
  have hleft := mem_erase_first_iff hnodup h.mem hfirst hafter
  refine ⟨a, _, hexec, rfl, rfl, hmem, fun b hb => ((hleft b).1 hb).2, h.valid, ⟨ds', henv', hds'⟩,
    fun b hb => ((hleft b).1 hb).1, fun hrest => ?_, fun hrest => ?_⟩
  · obtain ⟨b, hb⟩ := List.exists_mem_of_ne_nil _ hrest
    have hz : z ≠ 0 := fun hz => hchosen.eq_zero_iff.1 hz b ((hleft b).1 hb).1 ((hleft b).1 hb).2
    refine ⟨decide_eq_false hz, fun a' z' hchosen' => ?_⟩
    obtain ⟨haa', hnext⟩ := ChosenFrom.next hchosen' hchosen.mem hchosen.toLastZeroOf hz
    simp only [hleft]
    exact ⟨⟨hchosen'.mem, haa'⟩, fun b hb => hnext b hb.1 hb.2, fun b hb hab => ⟨hb, haa'.trans hab⟩⟩
  · have hz : z = 0 := hchosen.eq_zero_iff.2 fun b hb hab => by
      have := (hleft b).2 ⟨hb, hab⟩
      simp [hrest] at this
    exact ⟨hz, decide_eq_true hz⟩

/-- As many passes as addresses are left report them in wire order (R132, R133). -/
theorem Pending.enumerates {n : Nat} {rest : List DWord} {s : State} (h : Pending i as rest s) (hn : rest.length = n)
    (hnodup : rest.Nodup) : ∃ l t, enumerate i n s = (l, t) ∧ l.Perm rest ∧ l.Pairwise WireOrder ∧
      Pending i as [] t := by
  induction n generalizing rest s with
  | zero =>
    obtain rfl := List.eq_nil_of_length_eq_zero hn
    exact ⟨[], s, rfl, .refl _, .nil, h⟩
  | succ n ih =>
    obtain ⟨a, t, hexec, hfound, hdata, hmem, hfirst, hpending⟩ :=
      h.pass hi hf (List.ne_nil_of_length_eq_add_one hn) hnodup
    obtain ⟨l, u, henum, hperm, hsorted, hu⟩ := ih hpending (by rw [List.length_erase_of_mem hmem, hn]; rfl)
      (hnodup.erase a)
    refine ⟨a :: l, u, ?_, (hperm.cons a).trans (List.perm_cons_erase hmem).symm,
      List.pairwise_cons.2 ⟨fun b hb => hfirst b (hperm.subset hb), hsorted⟩, hu⟩
    simp only [enumerate, hexec, hfound, if_true, hdata, henum]

end Enumeration

/-- Settles O50, by the number of addresses left; two lists in wire order of the same addresses are one. -/
theorem enumerationFindsEachDeviceOnce : Obligations.EnumerationFindsEachDeviceOnce := by
  unfold Obligations.EnumerationFindsEachDeviceOnce
  refine ⟨fun s ds hp h hne hnone => ?_, fun i s ds hi hp h hne hnodup hf => ?_⟩
  · obtain ⟨hsilent, -, -⟩ := searchWithoutAnAnswer .srchA (srstState s) ds (.inr (.inl rfl)) hp rfl
    obtain ⟨w, hexec, -⟩ := hsilent h hne hnone
    exact ⟨_, _, exec_srst s, hexec, rfl, rfl⟩
  · have hstart := pending_of_clear (i := i) (s := srstState s) hp h hne rfl rfl
    obtain ⟨l, t, henum, hperm, hsorted, ht⟩ := hstart.enumerates hi hf rfl hnodup
    obtain ⟨hdisc, hdev⟩ := ht.done rfl
    obtain ⟨ds', henv, hds'⟩ := ht.onBus
    have hend := searchEndAfterTheLastDevice i t hi hdev
    have hagain := pending_of_clear (i := i) (s := noAddressState .searchEnd t.presence t.lastZero (quietWire t) t)
      ht.valid henv (hds' ▸ hne) rfl rfl
    rw [hds'] at hagain
    obtain ⟨l', t', henum', hperm', hsorted', -⟩ := hagain.enumerates hi hf rfl hnodup
    refine ⟨_, l, t, _, exec_srst s, henum, hperm, hsorted, hdisc, hdev, hend, rfl, rfl, rfl, rfl, rfl, ?_⟩
    rw [henum']
    exact (hperm'.trans hperm.symm).eq_of_pairwise (fun _ _ _ _ hab hba => absurd hba hab.asymm) hsorted' hsorted

end Sys2Proof.Machine
end

section
/-! PROOFS. The durations of the commands (60_exceptions.md R162): the events of a command counted, slots alone for the
codec and the wire bits, none for the CRC commands, and the course of a bus reset or a search pass for the others.
Settles O56. -/

namespace Sys2Proof.Machine

/-! ### The events of a command and their time -/

/-- The events that a command which leads from `s` to `t` adds to the trace. -/
def commandEvents (s t : State) : List WireEvent := t.wire.trace.drop s.wire.trace.length

/-- The time those events take. -/
def commandTime (s t : State) : Nat := wireTime s.timing (commandEvents s t)

theorem WireAfter.commandEvents_eq {s t : State} {evs : List WireEvent} (h : WireAfter s evs t.wire) :
    commandEvents s t = evs := by
  obtain ⟨-, htrace, -⟩ := h
  rw [commandEvents, htrace, List.drop_left]

theorem commandEvents_of_quietWire {s t : State} (h : t.wire = quietWire s) : commandEvents s t = [] := by
  rw [commandEvents, h, quietWire, List.drop_length]

/-- A command's events and `T_INTERNAL` are its time (R93, R162). -/
theorem now_of_exec {i : Instr} {s t : State} (hp : s.timing.Valid) (h : exec i s = .next t) :
    t.wire.now = max (s.wire.now + commandTime s t + Config.tInternal) s.seq.reading := by
  obtain ⟨t', evs, hexec, -, -, hafter, -⟩ := exec_completes i s
  cases hexec.symm.trans h
  have hevs := hafter.commandEvents_eq
  obtain ⟨-, -, -, -, hnow⟩ := hafter
  rw [commandTime, hevs, hnow hp]

theorem wireTime_of_slotsOnly {evs : List WireEvent} (h : SlotsOnly evs) (p : Timing) :
    wireTime p evs = p.slotTime * evs.length := by
  obtain ⟨hpolls, hpulses, hslots⟩ := h
  simp [wireTime_eq_counts, hpolls, hpulses, hslots]

/-- A sending command takes one slot period for each of its bits (R86, R97). -/
theorem commandTime_of_send {i : Instr} {s t : State} {bs : List Bool} (hact : activity s.data i = .send bs)
    (h : exec i s = .next t) : commandTime s t = s.timing.slotTime * bs.length := by
  obtain ⟨w, hexec, hafter⟩ := sends_of_activity hact
  cases hexec.symm.trans h
  rw [commandTime, WireAfter.commandEvents_eq hafter, wireTime_of_slotsOnly (slotsOnly_writeEvents bs),
    writeEvents, List.length_map]

/-- So does a receiving command (R86, R98). -/
theorem commandTime_of_receive {i : Instr} {s t : State} {n : Nat} (hact : activity s.data i = .receive n)
    (h : exec i s = .next t) : commandTime s t = s.timing.slotTime * n := by
  obtain ⟨w, bs, d, hlen, hexec, -, hafter⟩ := readsInto_of_activity hact
  cases hexec.symm.trans h
  rw [commandTime, WireAfter.commandEvents_eq hafter, wireTime_of_slotsOnly (slotsOnly_readEvents bs),
    readEvents, List.length_map, hlen]

/-- The CRC commands and `SRST` take no time on the wire (R96, R129). -/
theorem commandTime_of_usesNoWire {i : Instr} {s t : State} (hi : UsesNoWire i) (h : exec i s = .next t) :
    commandTime s t = 0 := by
  rw [commandTime, commandEvents_of_quietWire (exec_wire_of_usesNoWire hi h)]
  rfl

/-! ### The course of a bus reset or a search pass -/

/-- The courses of `RESET` and of the search commands: the result each reports and its events (R87, R88, R121 to R128).
Where the pulse is driven, `k` polls read 0 before it. -/
inductive Course (p : Timing) (i : Instr) : ResultCode → List WireEvent → Prop
  /-- Step 0 of a search ends the pass. -/
  | ended (hi : IsSearch i) : Course p i .searchEnd []
  /-- The line never idles. -/
  | stuck : Course p i .busStuck (stuckEvents p)
  /-- No presence pulse. -/
  | absent {k : Nat} (hk : k < p.nIdlePolls) : Course p i .noPresence (resetEvents k true)
  /-- `RESET` with a presence pulse. -/
  | present {k : Nat} (hk : k < p.nIdlePolls) (hi : i = .reset) : Course p i .ok (resetEvents k false)
  /-- A search whose position `m + 1` has no response: the ROM command byte, `m` positions and two reads. -/
  | unanswered {k m : Nat} {slots : List WireEvent} (hk : k < p.nIdlePolls) (hi : IsSearch i) (hm : m < 64)
      (hslots : SlotsOnly slots) (hlen : slots.length = 3 * m + 10) :
      Course p i .searchNoResponse (resetEvents k false ++ slots)
  /-- A search with 64 positions: the ROM command byte and all their slots. -/
  | candidate {k : Nat} {r : ResultCode} {slots : List WireEvent} (hk : k < p.nIdlePolls) (hi : IsSearch i)
      (hslots : SlotsOnly slots) (hlen : slots.length = 200) (hr : r = .ok ∨ r = .searchZeroFamily) :
      Course p i r (resetEvents k false ++ slots)

/-- The course of a command whose next state and events are known. -/
theorem course_of_exec {i : Instr} {s t u : State} {evs : List WireEvent} (h : exec i s = .next t)
    (hexec : exec i s = .next u) (hafter : WireAfter s evs u.wire) (hcourse : Course s.timing i u.result evs) :
    Course s.timing i t.result (commandEvents s t) := by
  cases hexec.symm.trans h
  rwa [hafter.commandEvents_eq]

theorem exec_reset_course {s t : State} (h : exec .reset s = .next t) :
    Course s.timing .reset t.result (commandEvents s t) := by
  obtain ⟨w, ⟨hexec, hafter⟩ | ⟨k, v, hk, hexec, hafter⟩⟩ := resetDetectsPresence.2 s
  · exact course_of_exec h hexec hafter .stuck
  · refine course_of_exec h hexec hafter ?_
    cases v with
    | true => exact .absent hk
    | false => exact .present hk rfl

theorem length_searchByteEvents (i : Instr) : (writeEvents (lsbBits (searchByte i))).length = 8 := by
  simp [writeEvents, lsbBits_length]

/-- `SSEL` clears LAST_DEV before its pass begins (R131). -/
theorem lastDev_of_passStart {i : Instr} {s : State} (hi : IsSearch i) (h : (passStart i s).lastDev = true) :
    (i = .srch ∨ i = .srchA) ∧ s.lastDev = true := by
  rcases hi with rfl | rfl | rfl
  · exact ⟨.inl rfl, h⟩
  · exact ⟨.inr rfl, h⟩
  · cases h

theorem exec_search_course {i : Instr} {s t : State} (hi : IsSearch i) (h : exec i s = .next t) :
    Course s.timing i t.result (commandEvents s t) := by
  cases hdev : (passStart i s).lastDev with
  | true =>
    obtain ⟨hi', hlast⟩ := lastDev_of_passStart hi hdev
    cases (searchEndAfterTheLastDevice i s hi' hlast).symm.trans h
    rw [commandEvents_of_quietWire (t := noAddressState _ _ _ (quietWire s) s) rfl]
    exact .ended hi
  | false =>
    have hbyte := slotsOnly_writeEvents (lsbBits (searchByte i))
    have hlen8 := length_searchByteEvents i
    obtain ⟨w, ⟨hafter, hexec⟩ | ⟨k, hk, hafter, hexec⟩ | ⟨k, xs, z, hk, hxs, -, -, hafter, hexec⟩ |
      ⟨k, xs, z, a, hk, hxs, -, -, -, hafter, hexec⟩⟩ := searchPassOutcomes i s hi hdev
    · exact course_of_exec h hexec hafter .stuck
    · exact course_of_exec h hexec hafter (.absent hk)
    · rw [List.append_assoc, List.append_assoc] at hafter
      refine course_of_exec h hexec hafter (.unanswered hk hi hxs
        (hbyte.append ((slotsOnly_positions xs).append (slotsOnly_readEvents [true, true]))) ?_)
      rw [List.length_append, List.length_append, hlen8, length_positions]
      simp only [List.length_cons, List.length_nil]
      omega
    · have hslots := hbyte.append (slotsOnly_positions xs)
      have hlen : (writeEvents (lsbBits (searchByte i)) ++ xs.flatMap positionEvents).length = 200 := by
        rw [List.length_append, hlen8, length_positions, hxs]
      rw [List.append_assoc] at hafter
      split at hexec
      · exact course_of_exec h hexec hafter (.candidate hk hi hslots hlen (.inr rfl))
      · exact course_of_exec h hexec hafter (.candidate hk hi hslots hlen (.inl rfl))

theorem exec_course {i : Instr} {s t : State} (hi : i = .reset ∨ IsSearch i) (h : exec i s = .next t) :
    Course s.timing i t.result (commandEvents s t) := by
  rcases hi with rfl | hi
  · exact exec_reset_course h
  · exact exec_search_course hi h

/-! ### The polls and the time of each course -/

theorem pollCount_resetEvents (k : Nat) (v : Bool) : pollCount (resetEvents k v) = k + 1 := by
  simp [resetEvents, pollCount, List.countP_replicate]

theorem pollCount_stuckEvents (p : Timing) : pollCount (stuckEvents p) = p.nIdlePolls := by
  simp [stuckEvents, pollCount, List.countP_replicate]

/-- The whole budget of polls (R87, R162). -/
theorem wireTime_stuckEvents (p : Timing) : wireTime p (stuckEvents p) = p.tIdlePoll * p.nIdlePolls := by
  simp [stuckEvents, wireTime, eventTime, Nat.mul_comm]

/-- A bus reset that drives its pulse (R87, R88, R162). -/
theorem wireTime_resetEvents (p : Timing) (k : Nat) (v : Bool) :
    wireTime p (resetEvents k v) = p.tIdlePoll * pollCount (resetEvents k v) + p.pulseTime := by
  rw [wireTime_eq_counts]
  simp [resetEvents, pulseCount, slotCount, List.countP_replicate]

/-- A bus reset followed by slots alone (R93, R162). -/
theorem wireTime_resetEvents_slots {slots : List WireEvent} (h : SlotsOnly slots) (p : Timing) (k : Nat) (v : Bool) :
    wireTime p (resetEvents k v ++ slots) =
      p.tIdlePoll * pollCount (resetEvents k v ++ slots) + p.pulseTime + p.slotTime * slots.length := by
  rw [wireTime_append, wireTime_resetEvents, wireTime_of_slotsOnly h]
  obtain ⟨hpolls, -, -⟩ := h
  rw [pollCount_append, hpolls, Nat.add_zero]

section Times

variable {p : Timing} {i : Instr} {r : ResultCode} {evs : List WireEvent}

/-- A bus reset makes at least one poll, and no more than `N_IDLE_POLLS` (R87). -/
theorem Course.pollCount_bounds (h : Course p i r evs) (hp : p.Valid) (hr : r ≠ .searchEnd) :
    1 ≤ pollCount evs ∧ pollCount evs ≤ p.nIdlePolls := by
  obtain ⟨-, -, -, -, -, -, -, hbudget⟩ := hp
  cases h with
  | ended => exact absurd rfl hr
  | stuck => rw [pollCount_stuckEvents]; exact ⟨hbudget, Nat.le_refl _⟩
  | absent hk => rw [pollCount_resetEvents]; omega
  | present hk => rw [pollCount_resetEvents]; omega
  | unanswered hk _ _ hslots | candidate hk _ hslots =>
    obtain ⟨hpolls, -, -⟩ := hslots
    rw [pollCount_append, pollCount_resetEvents, hpolls]
    omega

theorem Course.time_of_searchEnd (h : Course p i .searchEnd evs) : wireTime p evs = 0 := by
  cases h with
  | ended => rfl
  | candidate _ _ _ _ hr => simp at hr

theorem Course.time_of_busStuck (h : Course p i .busStuck evs) : wireTime p evs = p.tIdlePoll * p.nIdlePolls := by
  cases h with
  | stuck => exact wireTime_stuckEvents p
  | candidate _ _ _ _ hr => simp at hr

theorem Course.time_of_noPresence (h : Course p i .noPresence evs) :
    wireTime p evs = p.tIdlePoll * pollCount evs + p.pulseTime := by
  cases h with
  | absent => exact wireTime_resetEvents p _ true
  | candidate _ _ _ _ hr => simp at hr

theorem Course.time_of_present (h : Course p .reset .ok evs) :
    wireTime p evs = p.tIdlePoll * pollCount evs + p.pulseTime := by
  cases h with
  | present => exact wireTime_resetEvents p _ false
  | candidate _ hi => simp [IsSearch] at hi

/-- A pass of 64 positions: 8 slots of the ROM command byte and 192 of the positions (R123 to R128). -/
theorem Course.time_of_candidate (h : Course p i r evs) (hr : (r = .ok ∧ IsSearch i) ∨ r = .searchZeroFamily) :
    wireTime p evs = p.tIdlePoll * pollCount evs + p.pulseTime + p.slotTime * 200 := by
  cases h with
  | candidate _ _ hslots hlen => rw [wireTime_resetEvents_slots hslots, hlen]
  | present _ hi => simp [hi, IsSearch] at hr
  | ended | stuck | absent | unanswered => simp at hr

/-- A pass that ends at position `n`: 8 slots of the ROM command byte, three for each position before, two reads (R123,
R124). -/
theorem Course.time_of_noResponse (h : Course p i .searchNoResponse evs) : ∃ n, 1 ≤ n ∧ n ≤ 64 ∧
    wireTime p evs = p.tIdlePoll * pollCount evs + p.pulseTime + p.slotTime * (3 * n + 7) := by
  cases h with
  | unanswered _ _ hm hslots hlen =>
    exact ⟨_ + 1, by omega, hm, by rw [wireTime_resetEvents_slots hslots, hlen]; rfl⟩
  | candidate _ _ _ _ hr => simp at hr

end Times

/-- Settles O56: the slots of each command that only writes or reads slots, the course of each that resets the bus. -/
theorem commandDurations : Obligations.CommandDurations := by
  unfold Obligations.CommandDurations
  intro i s t hp h
  have hvalid : s.timing.Valid := hp ▸ nominal_valid
  have hsend : ∀ bs, activity s.data i = .send bs → commandTime s t = 70 * bs.length := fun bs hact => by
    rw [commandTime_of_send hact h, hp]
    rfl
  have hreceive : ∀ n, activity s.data i = .receive n → commandTime s t = 70 * n := fun n hact => by
    rw [commandTime_of_receive hact h, hp]
    rfl
  refine ⟨commandTime s t, now_of_exec hvalid h, ?_, ?_, ?_, ?_, fun hi => commandTime_of_usesNoWire hi h, ?_⟩
  · rintro (⟨b, rfl⟩ | rfl)
    · exact hsend [b] rfl
    · exact hreceive 1 rfl
  · rintro (⟨b, rfl⟩ | rfl | rfl)
    · exact hsend (lsbBits b) rfl
    · exact hreceive 8 rfl
    · exact hsend (lsbBits (0xCC : Byte)) rfl
  · rintro (rfl | rfl)
    · exact hsend (lsbBits s.data) rfl
    · exact hreceive 64 rfl
  · rintro rfl
    exact hsend (lsbBits (0x55 : Byte) ++ lsbBits s.data) rfl
  · rintro k rfl hi
    have hcourse := exec_course hi h
    rw [hp] at hcourse
    rw [commandTime, hp]
    refine ⟨hcourse.pollCount_bounds nominal_valid, fun hr => ?_, fun hr => ?_, fun hr => ?_,
      fun ⟨hr, hreset⟩ => ?_, hcourse.time_of_candidate, fun hr => ?_⟩
    · exact (hr ▸ hcourse).time_of_searchEnd
    · exact (hr ▸ hcourse).time_of_busStuck
    · exact (hr ▸ hcourse).time_of_noPresence
    · exact (hr ▸ hreset ▸ hcourse).time_of_present
    · exact (hr ▸ hcourse).time_of_noResponse

end Sys2Proof.Machine
end
